-- ==== Sys2Proof/Word.lean ====
section
/-! DEFINITION. The widths of this hardware's values: register words, instruction words, CSR numbers, immediates. -/

namespace Sys2Proof

/-- A register value. MXLEN is 32 or 64 (00_scope R2); a word is held in 64 bits, and with MXLEN = 32 its
upper half is 0 (Machine/Params.lean, `Params.fit`). -/
abbrev Word := BitVec 64

/-- One instruction: "32 bits long, stored as one 32-bit word" (30_encoding R60). -/
abbrev InstrWord := BitVec 32

/-- A CSR number, `instr[31:20]`, "used as it stands" (30_encoding R61). -/
abbrev CsrNum := BitVec 12

/-- A general register number, 0 to 31 (30_encoding R61, 10_state R41). -/
abbrev Reg := Fin 32

/-- The 5-bit unsigned immediate `uimm`, `instr[19:15]` of the immediate forms (30_encoding R61). -/
abbrev Uimm := BitVec 5

end Sys2Proof
end

