-- ==== Sys2Proof/Syntax.lean ====
section
/-! DEFINITION. The instructions of spec/opcode_table.json, one constructor each, and the names a word is rejected by. -/

namespace Sys2Proof

/-- The eight instructions (30_encoding R63, R64), operands in the assembler's order (R66). -/
inductive Instr where
  | csrrw (rd : Reg) (csr : CsrNum) (rs1 : Reg)
  | csrrs (rd : Reg) (csr : CsrNum) (rs1 : Reg)
  | csrrc (rd : Reg) (csr : CsrNum) (rs1 : Reg)
  | csrrwi (rd : Reg) (csr : CsrNum) (uimm : Uimm)
  | csrrsi (rd : Reg) (csr : CsrNum) (uimm : Uimm)
  | csrrci (rd : Reg) (csr : CsrNum) (uimm : Uimm)
  | mret
  | sret
  deriving DecidableEq, Repr

/-- Why a word has no meaning: "a 32-bit word that matches no row of opcode_table.json is outside the model: the model
refuses it" (30_encoding R65). -/
inductive DecodeError where
  /-- `opcode` is not SYSTEM, 0x73 (R60). -/
  | notSystemOpcode
  /-- "funct3 = 100 with the SYSTEM opcode is not a CSR instruction" (R65 c). -/
  | funct3IsNoCsrForm
  /-- `funct3` = 000 and the word is neither MRET nor SRET (R64, R65 a). -/
  | notATrapReturn
  deriving DecidableEq, Repr

/-- The CSRs a CSR instruction of this model reaches: `mie` and `mip` (30_encoding R62), and the view registers that
"a model which also implements the alias registers may route" (R65 b). -/
inductive Csr where
  | mie
  | mip
  | sip
  | sie
  | mvip
  | hip
  | hvip
  | vsip
  deriving DecidableEq, Repr

end Sys2Proof
end

