-- ==== Sys2Proof/Machine/CsrNumbers.lean ====
section
/-! DEFINITION. The CSR numbers (30_encoding R62): a number to the register it names, and the privilege a number asks. -/

namespace Sys2Proof

/-- The CSR number of each register (30_encoding R62 and the list after it; general knowledge G1,
assumption log 10). -/
def Csr.number : Csr → CsrNum
  | .mie => 0x304
  | .mip => 0x344
  | .sip => 0x144
  | .sie => 0x104
  | .mvip => 0x309
  | .hip => 0x644
  | .hvip => 0x645
  | .vsip => 0x244

/-- Every register of `Csr`. -/
def Csr.all : List Csr := [.mie, .mip, .sip, .sie, .mvip, .hip, .hvip, .vsip]

/-- The register a CSR number names, `none` outside this hardware (30_encoding R65 b). -/
def Csr.ofNumber (n : CsrNum) : Option Csr := Csr.all.find? (fun c => c.number == n)

/-- "bits 9:8 give the lowest privilege that may access it (11 = M-mode)" (30_encoding R62). -/
def Csr.lowestPrivilege (c : Csr) : Nat := (c.number.extractLsb' 8 2).toNat

end Sys2Proof
end

