-- ==== Sys2Proof/WellFormed.lean ====
section
/-! DEFINITION. Which instruction terms are instructions of this hardware: the `csr` field names a register of it. -/

namespace Sys2Proof

/-- "An instruction of this table concerns this hardware when its csr field is 0x304 or 0x344" (30_encoding R63), or
names one of the alias registers a model may route (R65 b). -/
def csrFieldOk (n : CsrNum) : Bool := (Csr.ofNumber n).isSome

/-- The checks an instruction term must pass. -/
def Instr.wellFormed : Instr → Bool
  | .csrrw _ csr _ => csrFieldOk csr
  | .csrrs _ csr _ => csrFieldOk csr
  | .csrrc _ csr _ => csrFieldOk csr
  | .csrrwi _ csr _ => csrFieldOk csr
  | .csrrsi _ csr _ => csrFieldOk csr
  | .csrrci _ csr _ => csrFieldOk csr
  | .mret => true
  | .sret => true

end Sys2Proof
end

