-- ==== Sys2Proof/Decode.lean ====
section
/-! DEFINITION. From a 32-bit word to an instruction or a rejection by name, and back (30_encoding R60 to R65). -/

namespace Sys2Proof

/-! ### The opcode table as the spec prints it -/

/-- One row of the opcode map: "a 32-bit word w is the instruction when w & mask == match" (30_encoding R63). -/
structure OpcodeRow where
  mnemonic : String
  pattern : InstrWord
  mask : InstrWord
  deriving DecidableEq, Repr

/-- The eight rows of R63 and R64. -/
def opcodeTable : List OpcodeRow :=
  [⟨"CSRRW", 0x00001073, 0x0000707F⟩, ⟨"CSRRS", 0x00002073, 0x0000707F⟩, ⟨"CSRRC", 0x00003073, 0x0000707F⟩,
   ⟨"CSRRWI", 0x00005073, 0x0000707F⟩, ⟨"CSRRSI", 0x00006073, 0x0000707F⟩, ⟨"CSRRCI", 0x00007073, 0x0000707F⟩,
   ⟨"MRET", 0x30200073, 0xFFFFFFFF⟩, ⟨"SRET", 0x10200073, 0xFFFFFFFF⟩]

/-- The word is the row's instruction. -/
def OpcodeRow.accepts (r : OpcodeRow) (w : InstrWord) : Bool := w &&& r.mask == r.pattern

/-! ### Fields (R60, R61) -/

/-- `opcode` = bits 6:0. -/
def fieldOpcode (w : InstrWord) : BitVec 7 := w.extractLsb' 0 7

/-- `rd` = bits 11:7. -/
def fieldRd (w : InstrWord) : Reg := (w.extractLsb' 7 5).toFin

/-- `funct3` = bits 14:12. -/
def fieldFunct3 (w : InstrWord) : BitVec 3 := w.extractLsb' 12 3

/-- `rs1` = bits 19:15. -/
def fieldRs1 (w : InstrWord) : Reg := (w.extractLsb' 15 5).toFin

/-- `uimm` = bits 19:15 of the immediate forms. -/
def fieldUimm (w : InstrWord) : Uimm := w.extractLsb' 15 5

/-- `csr` = bits 31:20. -/
def fieldCsr (w : InstrWord) : CsrNum := w.extractLsb' 20 12

/-- The SYSTEM major opcode (R60). -/
def opcodeSystem : BitVec 7 := 0b1110011

/-- MRET and SRET, "fixed 32-bit patterns with no operand fields" (R64). -/
def mretWord : InstrWord := 0x30200073

/-- See `mretWord`. -/
def sretWord : InstrWord := 0x10200073

/-! ### Decoding -/

/-- The instruction a word is, or why it is none. -/
def decode (w : InstrWord) : Except DecodeError Instr :=
  if fieldOpcode w ≠ opcodeSystem then .error .notSystemOpcode
  else match (fieldFunct3 w).toNat with
    | 1 => .ok (.csrrw (fieldRd w) (fieldCsr w) (fieldRs1 w))
    | 2 => .ok (.csrrs (fieldRd w) (fieldCsr w) (fieldRs1 w))
    | 3 => .ok (.csrrc (fieldRd w) (fieldCsr w) (fieldRs1 w))
    | 5 => .ok (.csrrwi (fieldRd w) (fieldCsr w) (fieldUimm w))
    | 6 => .ok (.csrrsi (fieldRd w) (fieldCsr w) (fieldUimm w))
    | 7 => .ok (.csrrci (fieldRd w) (fieldCsr w) (fieldUimm w))
    | 0 => if w = mretWord then .ok .mret else if w = sretWord then .ok .sret else .error .notATrapReturn
    | _ => .error .funct3IsNoCsrForm

/-- The instruction this decoder reads from a table word. Every instruction is 32 bits (R60); bits from `nbits` up
are 0. -/
def decodeTableWord (nbits w : Nat) : Option Instr :=
  (decode (BitVec.ofNat 32 (w % 2 ^ nbits))).toOption

/-! ### Encoding -/

/-- The I-type layout of R60. -/
def encodeCsrForm (csr : CsrNum) (src : BitVec 5) (funct3 : BitVec 3) (rd : Reg) : InstrWord :=
  csr ++ src ++ funct3 ++ (BitVec.ofFin rd : BitVec 5) ++ opcodeSystem

/-- The word of an instruction (R60, R63, R64). -/
def encode : Instr → InstrWord
  | .csrrw rd csr rs1 => encodeCsrForm csr (BitVec.ofFin rs1) 0b001 rd
  | .csrrs rd csr rs1 => encodeCsrForm csr (BitVec.ofFin rs1) 0b010 rd
  | .csrrc rd csr rs1 => encodeCsrForm csr (BitVec.ofFin rs1) 0b011 rd
  | .csrrwi rd csr uimm => encodeCsrForm csr uimm 0b101 rd
  | .csrrsi rd csr uimm => encodeCsrForm csr uimm 0b110 rd
  | .csrrci rd csr uimm => encodeCsrForm csr uimm 0b111 rd
  | .mret => mretWord
  | .sret => sretWord

end Sys2Proof
end

