-- ==== Sys2Proof/Machine/Agents.lean ====
section
/-! DEFINITION. The agents and their turns (00_scope R4): the modes and `mstatus` fields an agent may change, the alias
fields it may write, what one step of each agent is, and the choice the evaluation logic makes. -/

namespace Sys2Proof.Machine

/-! ### The modes and `mstatus` -/

/-- Privilege modes below which nothing is named: U, S (HS or, with `virt`, VS), M (60_exceptions R118). -/
inductive Priv where
  | u
  | s
  | m
  deriving DecidableEq, Repr

/-- The fields of `mstatus` the rules name (60_exceptions R113, 41_trap_return R90, R91). The spec gives the register
no bit positions and no instruction here reads it as a word (DESIGN CHOICE, assumption log 20). -/
structure Mstatus where
  mie : Bool
  mpie : Bool
  mpp : Priv
  mpv : Bool
  mprv : Bool
  sie : Bool
  spie : Bool
  /-- `SPP`: S when true, U when false (41_trap_return R91 "S or U"). -/
  spp : Bool
  tsr : Bool
  deriving DecidableEq, Repr

/-! ### The choice of the evaluation logic -/

/-- What the evaluation logic does where the rules leave it a choice: take nothing where R108 says MAY, take the
interrupt the present values select, take the stale interrupt `i`, or, at the boundary after an explicit write or xRET,
take the first by "the values as they stand after the instruction" (R109; assumption log 25). -/
inductive EvalChoice where
  | defer
  | present
  | stale (i : Nat)
  | settled
  deriving DecidableEq, Repr, Inhabited

/-! ### The agents' turns -/

/-- The fields of other registers that are views or aliases of `mip` and `mie` bits (10_state R36 to R40). -/
inductive ViewField where
  | sipSSIP
  | sipSTIP
  | sipSEIP
  | sipLCOFIP
  | sieSSIE
  | sieSTIE
  | sieSEIE
  | sieLCOFIE
  | mvipSSIP
  | mvipSTIP
  | mvipSEIP
  | hipVSSIP
  | hipVSTIP
  | hipVSEIP
  | hipSGEIP
  | hvipVSSIP
  | hvipVSTIP
  | hvipVSEIP
  | vsipSSIP
  | vsipSTIP
  | vsipSEIP
  | vsipLCOFIP
  deriving DecidableEq, Repr

/-- One step of an agent other than the hart: a change of an input (00_scope R4 b to d), a hardware update (10_state R33).
Every input of 00_scope R5 "may differ at every step": each has an event that changes it, those that instructions can write
included, and leaves the evaluation logic alone (assumption log 27). -/
inductive EnvEvent where
  /-- A counter-overflow interrupt request (10_state R28). -/
  | lcofiRequest
  | meip (b : Bool)
  | seip (b : Bool)
  | vseip (b : Bool)
  | mtimer (b : Bool)
  | stimer (b : Bool)
  | vstimer (b : Bool)
  | hgeip (n : Nat)
  /-- The platform's interrupt bits: what it stores in the writable ones and drives on the others (10_state R14). -/
  | platform (stored wires : Word)
  | hvipVSTIP (b : Bool)
  | hvipVSEIP (b : Bool)
  | menvcfgSTCE (b : Bool)
  | mideleg (w : Word)
  | hideleg (w : Word)
  /-- A change of the input `mstatus_MIE`. -/
  | mstatusMIE (b : Bool)
  /-- A change of the input `priv`, and of V with it. -/
  | mode (p : Priv) (v : Bool)
  /-- An instruction word placed where the hart fetches. -/
  | code (addr : Nat) (w : InstrWord)
  /-- Reset (70_reset R130 to R134). -/
  | reset
  deriving DecidableEq, Repr

/-- One thing an instruction outside this spec does to the hart, the inputs or the pair (10_state R33, U17). -/
inductive HartEffect where
  /-- An explicit write of one bit through an alias name (10_state R33, R36 to R40). -/
  | viewWrite (f : ViewField) (b : Bool)
  /-- An explicit write of `menvcfg.STCE`. -/
  | menvcfgSTCE (b : Bool)
  /-- An explicit write of `mideleg`. -/
  | mideleg (w : Word)
  | hideleg (w : Word)
  /-- A change of `mstatus`, by an explicit write or otherwise (a trap to a lower mode). -/
  | mstatus (m : Mstatus) (explicit : Bool)
  | hstatusSPV (b : Bool)
  /-- A change of mode, `byXret` when by another trap-return instruction. -/
  | mode (p : Priv) (v : Bool) (byXret : Bool)
  | mtvec (base : Word) (vectored : Bool)
  | mepc (w : Word)
  | sepc (w : Word)
  | mcause (w : Word)
  | mtval (w : Word)
  | reg (r : Reg) (w : Word)
  | pc (w : Word)
  deriving DecidableEq, Repr

/-- The effect is an explicit write to a register the conditions depend on, or an xRET's change of mode, after which they
are evaluated at once (60_exceptions R109). -/
def HartEffect.evaluated : HartEffect → Bool
  | .viewWrite _ _ | .menvcfgSTCE _ | .mideleg _ => true
  | .mstatus _ explicit => explicit
  | .mode _ _ byXret => byXret
  | .hideleg _ | .hstatusSPV _ | .mtvec _ _ | .mepc _ | .sepc _ | .mcause _ | .mtval _ | .reg _ _ | .pc _ => false

/-- Whose step comes next (00_scope R4: the other agents step "between any two instructions of the hart"; DESIGN CHOICE,
assumption log 3). -/
inductive Turn where
  /-- The hart runs the instruction at `pc`, after the boundary before it, with the choice the evaluation logic makes
  there. -/
  | hart (c : EvalChoice)
  /-- The hart runs an instruction outside this spec, which does the given things, after the boundary before it
  (assumption log 29). -/
  | foreign (c : EvalChoice) (effects : List HartEffect)
  /-- One step of another agent. -/
  | env (e : EnvEvent)
  deriving DecidableEq, Repr, Inhabited

end Sys2Proof.Machine
end

