-- ==== Sys2Proof/Config.lean ====
section
/-! DEFINITION. What an implementation fixes (the OPEN parameters of 92_eei_decisions.md, as plain data that State
carries and no step changes) and the free values (opaque constants: nothing can prove a value of one). -/

namespace Sys2Proof

/-- The width of `mie` and `mip` (00_scope R2): "Its legal values are 32 and 64". -/
inductive Mxlen where
  | rv32
  | rv64
  deriving DecidableEq, Repr

/-- The parameters the spec leaves OPEN (00_scope section 5). They stand in State as plain data, so every statement
"for every state" is a statement for every value of them (assumption log 1). -/
structure Params where
  /-- `MXLEN` (R2, D2). -/
  mxlen : Mxlen
  /-- `MSIE_WRITABLE` (R15, D4): whether `mie[3]` is writable. -/
  msieWritable : Bool
  /-- `PLATFORM_MASK` (R14, D6): which of bits MXLEN-1:16 exist in `mip` and `mie`. -/
  platformMask : Word
  /-- Which platform bits of `mip` are writable: "a model that takes a non-zero PLATFORM_MASK must also take, per
  bit, whether mip[i] is writable and what drives it" (R14). -/
  platformWritable : Word
  /-- The platform's own priority order of bits 16 and above (R111, R112). -/
  platformOrder : List Nat
  /-- `EVAL_BOUND` (R108, D13), counted in instruction boundaries. -/
  evalBound : Nat
  /-- An illegal-instruction exception "records the instruction bits in mtval or zero, at the implementation's
  choice" (R100). -/
  mtvalHoldsInstr : Bool
  deriving DecidableEq, Repr

namespace Config

/-- The parameters `State.reset` carries: DESIGN CHOICE, assumption log 1. `PLATFORM_MASK` = 0 is the spec's default. -/
def defaultParams : Params where
  mxlen := .rv64
  msieWritable := false
  platformMask := 0
  platformWritable := 0
  platformOrder := []
  evalBound := 0
  mtvalHoldsInstr := true

/-- The implementation-defined reset vector (R134): DESIGN CHOICE, assumption log 7. -/
def resetVector : Word := 0

/-- FREE VALUE: what the writable bits of `mie` hold after the reset drawn with the given number, "a `draw`"
(70_reset R131, D12). Assumption log 6. -/
opaque mieReset : Nat → Word

/-- FREE VALUE: the "implementation-defined reset cause" in `mcause` (70_reset R134). Assumption log 7. -/
opaque resetCause : Word

/-- FREE VALUE: `STIP_b` after `menvcfg.STCE` goes from 1 to 0 (10_state R33, U6, D15). Assumption log 8. -/
opaque stipDraw : Nat → Bool

/-- FREE VALUE: whose step comes next where the agenda lists none: a turn of the hart, with the choice the rules leave to the
evaluation logic, running the instruction at `pc` or one outside this spec, or a step of another agent, which acts "at times
no rule of this spec fixes" (00_scope R4). Assumption log 3, 4, 29. -/
opaque freeTurn : Nat → Machine.Turn

/-- FREE VALUE: what the bits of `sip`, `sie`, `mvip`, `hip`, `hvip`, `vsip` that the spec does not give read as
(91_not_in_source N16, N36). Assumption log 12. -/
opaque viewRest : Nat → Word

end Config

end Sys2Proof
end

