-- ==== Sys2Proof/Machine/Params.lean ====
section
/-! DEFINITION. What follows from the parameters: the width mask, the writable masks, the priority order; and the
single-bit helpers every register read is composed from. -/

namespace Sys2Proof

/-- The word whose bit `i` is `b` and whose other bits are 0. -/
def atBit (i : Nat) (b : Bool) : Word := if b then BitVec.twoPow 64 i else 0

/-- `v` with bit `i` replaced by `b`. -/
def withBit (v : Word) (i : Nat) (b : Bool) : Word := (v &&& ~~~(BitVec.twoPow 64 i)) ||| atBit i b

namespace Params

/-- The bits of a value MXLEN bits wide. -/
def xmask (p : Params) : Word :=
  match p.mxlen with
  | .rv32 => 0xFFFFFFFF
  | .rv64 => 0xFFFFFFFFFFFFFFFF

/-- A value cut to MXLEN bits (00_scope section 7, "all values are bit vectors of a stated width"). -/
def fit (p : Params) (w : Word) : Word := w &&& p.xmask

/-- A value has no bit above MXLEN. -/
abbrev Fits (p : Params) (w : Word) : Prop := p.fit w = w

/-- "the most significant bit of mcause, bit MXLEN-1, is set for an interrupt" (60_exceptions R105). -/
def interruptBit (p : Params) : Word :=
  match p.mxlen with
  | .rv32 => 0x80000000
  | .rv64 => 0x8000000000000000

/-- The platform bits that exist: `PLATFORM_MASK`, "a subset of bits MXLEN-1:16" (10_state R14). -/
def platformBits (p : Params) : Word := p.fit p.platformMask &&& ~~~0xFFFF

/-- The platform bits of `mip` that software may write (10_state R14). -/
def platformStored (p : Params) : Word := p.platformBits &&& p.platformWritable

/-- The bits of `mip` that an input can drive (10_state R21 to R27), the platform's wires among them. -/
def inputDrivable (p : Params) : Word := 0x1EE0 ||| (p.platformBits &&& ~~~p.platformStored)

/-- `MIE_WMASK` (10_state R15). -/
def mieWritable (p : Params) : Word := 0x3EE6 ||| (if p.msieWritable then 0x0008 else 0) ||| p.platformBits

/-- `MIP_WMASK` (10_state R32), given `menvcfg_STCE`; with platform bits, the stored ones as well. -/
def mipWritable (p : Params) (stce : Bool) : Word := 0x2206 ||| (if stce then 0 else 0x0020) ||| p.platformStored

/-- `ORDER` (60_exceptions R111): platform interrupts first, "in the platform's own order" (those the platform leaves
unordered after them, by number), then MEI MSI MTI SEI SSI STI SGEI VSEI VSSI VSTI LCOFI. -/
def order (p : Params) : List Nat :=
  p.platformOrder.filter (fun i => decide (16 ≤ i)) ++ List.range' 16 48 ++ [11, 3, 7, 9, 1, 5, 12, 10, 2, 6, 13]

end Params

end Sys2Proof
end

