-- ==== Sys2Proof/Machine/State.lean ====
section
/-! DEFINITION. The state, as plain data: what this hardware owns (10_state R34), the inputs of 00_scope R5, the part of
the hart the eight instructions touch, and the model's own bookkeeping; the reasons a step stops; the state after reset. -/

namespace Sys2Proof.Machine

/-! ### The owned storage -/

/-- The storage bits behind `mip` (10_state R34), and the storage of the writable platform bits (R14). -/
structure Pending where
  /-- `SSIP_b` (R18). -/
  ssip : Bool
  /-- `VSSIP_b` (R19). -/
  vssip : Bool
  /-- `STIP_b`, "meaningful while menvcfg_STCE = 0" (R21). -/
  stip : Bool
  /-- `SEIP_B`, the shadow value B (R24). -/
  seipB : Bool
  /-- `LCOFIP_s`, the hidden sticky bit (R28). -/
  lcofip : Bool
  /-- Storage of the platform bits of `mip` that are writable; empty with `PLATFORM_MASK` = 0 (R14). -/
  platform : Word
  deriving DecidableEq, Repr

/-! ### The inputs -/

/-- The inputs of 00_scope R5 that are wires, or registers of other blocks. The other agents' turns change them. -/
structure Inputs where
  mideleg : Word
  hideleg : Word
  /-- `menvcfg_STCE`. -/
  stce : Bool
  hvipVSTIP : Bool
  hvipVSEIP : Bool
  /-- `hgeip`, "a register, width not given": a number, so that no width is presumed (DESIGN CHOICE, assumption log 18). -/
  hgeip : Nat
  meipWire : Bool
  /-- `seip_wire`, called E. -/
  seipWire : Bool
  vseipWire : Bool
  mtimerIrq : Bool
  stimerIrq : Bool
  vstimerIrq : Bool
  /-- What the platform drives on its read-only `mip` bits (10_state R14; DESIGN CHOICE, assumption log 13). -/
  platformWires : Word
  deriving DecidableEq, Repr

/-! ### The hart -/

/-- The hart's state that the eight instructions, trap entry and trap return touch. -/
structure Hart where
  /-- `x0` to `x31` (10_state R41); the cell of `x0` is never read and never written. -/
  x : Vector Word 32
  pc : Word
  priv : Priv
  /-- The virtualization mode V (41_trap_return R90). -/
  virt : Bool
  mstatus : Mstatus
  /-- `hstatus.SPV` (41_trap_return R91). -/
  hstatusSPV : Bool
  mepc : Word
  sepc : Word
  mcause : Word
  mtval : Word
  /-- `mtvec.BASE`, as the address it stands for (60_exceptions R113). -/
  mtvecBase : Word
  /-- `mtvec.MODE == 1` (60_exceptions R113). -/
  mtvecVectored : Bool
  deriving DecidableEq, Repr

/-! ### The evaluation logic's memory -/

/-- What the evaluation logic saw at an instruction boundary, or right after an xRET or explicit write (60_exceptions
R108, R109): the interrupts whose condition held, and those of them whose `mip` bit an input was driving. -/
structure Boundary where
  held : Word
  driven : Word
  deriving DecidableEq, Repr

/-- The evaluation logic's memory, which R108 and R109 imply: the model's own, not the spec's. -/
structure Evaluation where
  /-- An xRET or an explicit write has executed and the boundary after it is still to come (R109): what stood right after
  the instruction. -/
  due : Option Boundary
  /-- The boundaries past, latest first, at most `EVAL_BOUND` of them (R108); of those before the last such instruction
  only what held, since no stale interrupt "reaches across" it (R109). -/
  recent : List Boundary
  deriving DecidableEq, Repr

/-- The instruction words the environment supplies, by address: strictly rising, an address not listed supplies none.
It is the hart's fetch, an input: this hardware "fetches nothing" itself (20_memory R50, assumption log 2). -/
abbrev Code := List (Nat × InstrWord)

/-- The machine. -/
structure State where
  params : Params
  /-- `mie`; "bits outside MIE_WMASK are always 0" (10_state R34). -/
  mie : Word
  pend : Pending
  inputs : Inputs
  hart : Hart
  evaln : Evaluation
  /-- The model's own: the instruction words to fetch. -/
  code : Code
  /-- The model's own: the turns to come, first one first; with none listed the next turn is a free value. -/
  agenda : List Turn
  /-- The model's own: how many free values have been drawn. -/
  draws : Nat
  /-- The output of the latest step: `TakeMInterrupt(i)` or nothing (00_scope section 6). -/
  output : Option Nat
  deriving DecidableEq, Repr

/-- Why the machine stops. -/
inductive Fault where
  /-- Raised by `fetch`: the environment supplies no instruction word at `pc`. Safe: nothing runs. -/
  | noInstruction (pc : Nat)
  deriving DecidableEq, Repr

/-- Why a step has no meaning. -/
inductive Refusal where
  /-- An arm of `exec` whose instruction has no meaning yet. Safe. No arm raises it. -/
  | notModelled (mnemonic : String)
  /-- Raised by `fetchDecode`: the word matches no row of the opcode table (30_encoding R65 a, c). Safe. -/
  | undecodable (e : DecodeError)
  /-- Raised by `csrInstr`: the `csr` field names no register of this hardware (30_encoding R65 b). Safe. -/
  | csrOutsideHardware (n : CsrNum)
  /-- Raised by `csrInstr` and `applyEffects`: the access reaches a view field in the case the spec leaves out:
  `mvip.STIP` while STCE is set (U6), a `vsip` field while its `hideleg` bit is clear (U12). Safe. -/
  | viewFieldNotGiven (f : ViewField)
  /-- Raised by `csrInstr`: `sie` from VS-mode; the register VS-mode has in its place, `vsie`, occurs in no source
  (91_not_in_source N16, N36; assumption log 24). Safe. -/
  | viewFromVirtualMode (c : Csr)
  deriving DecidableEq, Repr

/-! ### Reset -/

/-- The machine right after reset, for every parameter and every value the spec leaves to a draw or to the
implementation: `mie0` (70_reset R131), the reset vector and the reset cause (R134). The agenda is empty: whose step
comes next is then a free value, at every step (00_scope R4; DESIGN CHOICE, assumption log 3). -/
def State.resetWith (p : Params) (mie0 vector cause0 : Word) : State where
  params := p
  mie := mie0 &&& p.mieWritable
  pend := ⟨false, false, false, false, false, 0⟩
  inputs :=
    { mideleg := 0, hideleg := 0, stce := false, hvipVSTIP := false, hvipVSEIP := false, hgeip := 0, meipWire := false
      seipWire := false, vseipWire := false, mtimerIrq := false, stimerIrq := false, vstimerIrq := false
      platformWires := 0 }
  hart :=
    { x := Vector.replicate 32 0, pc := p.fit vector, priv := .m, virt := false
      mstatus := ⟨false, false, .u, false, false, false, false, false, false⟩
      hstatusSPV := false, mepc := 0, sepc := 0, mcause := p.fit cause0, mtval := 0, mtvecBase := 0
      mtvecVectored := false }
  evaln := ⟨none, []⟩
  code := []
  agenda := []
  draws := 0
  output := none

/-- The machine right after reset. Draw number 0 is spent on `mie` (assumption log 6). -/
def State.reset : State :=
  { State.resetWith Config.defaultParams (Config.mieReset 0) Config.resetVector Config.resetCause with draws := 1 }

end Sys2Proof.Machine
end

