-- ==== Sys2Proof/Machine/Flags.lean ====
section
/-! DEFINITION. This hardware has no condition flags (10_state section 6, G25). Its flags are the interrupt-pending and
interrupt-enable bits: how `mip` is composed from storage and inputs, and what a write of `mip` stores. -/

namespace Sys2Proof.Machine

/-! ### The pending bits that are functions of the inputs (10_state R21 to R27) -/

/-- `mip[5]` (R21). -/
def pendingSTIP (s : State) : Bool := if s.inputs.stce then s.inputs.stimerIrq else s.pend.stip

/-- `mip[6]` (R22). -/
def pendingVSTIP (s : State) : Bool := s.inputs.hvipVSTIP || (s.inputs.stce && s.inputs.vstimerIrq)

/-- `mip[9]` as read: `SEIP_B || seip_wire` (R24). -/
def pendingSEIP (s : State) : Bool := s.pend.seipB || s.inputs.seipWire

/-- `mip[10]` (R25). -/
def pendingVSEIP (s : State) : Bool := s.inputs.hvipVSEIP || s.inputs.vseipWire

/-- `mip[12]`, `OR(hgeip)` (R27). -/
def pendingSGEIP (s : State) : Bool := decide (s.inputs.hgeip ≠ 0)

/-- The platform bits of `mip`: storage where writable, the platform's drive where not (R14). -/
def pendingPlatform (s : State) : Word :=
  (s.pend.platform &&& s.params.platformStored) |||
    (s.inputs.platformWires &&& s.params.platformBits &&& ~~~s.params.platformStored)

/-! ### Reading `mip` and `mie` -/

/-- `mip` with the given value of bit 9: what `mip_read()` and `mip_rmw()` share (10_state R30, R31). -/
def mipWithSEIP (seip : Bool) (s : State) : Word :=
  atBit 1 s.pend.ssip ||| atBit 2 s.pend.vssip ||| atBit 5 (pendingSTIP s) ||| atBit 6 (pendingVSTIP s) |||
    atBit 7 s.inputs.mtimerIrq ||| atBit 9 seip ||| atBit 10 (pendingVSEIP s) ||| atBit 11 s.inputs.meipWire |||
    atBit 12 (pendingSGEIP s) ||| atBit 13 s.pend.lcofip ||| pendingPlatform s

/-- `mip_read()` (10_state R30). -/
def mipRead (s : State) : Word := mipWithSEIP (pendingSEIP s) s

/-- `mip_rmw()`, the old value of a read-modify-write: bit 9 is `SEIP_B` alone (10_state R31). -/
def mipRmw (s : State) : Word := mipWithSEIP s.pend.seipB s

/-- `mie_read()` (10_state R16). -/
def mieRead (s : State) : Word := s.mie

/-! ### What a write stores -/

/-- The storage behind `mip` after `mip_write(v)` (10_state R32): `STIP_b` only while STCE is clear. -/
def Pending.write (p : Pending) (params : Params) (stce : Bool) (v : Word) : Pending where
  ssip := v.getLsbD 1
  vssip := v.getLsbD 2
  stip := if stce then p.stip else v.getLsbD 5
  seipB := v.getLsbD 9
  lcofip := v.getLsbD 13
  platform := v &&& params.platformStored

end Sys2Proof.Machine
end

