-- ==== Sys2Proof/Machine/Condition.lean ====
section
/-! DEFINITION. The condition for an interrupt to trap to M-mode (60_exceptions R106), and what of it stands at an
instant: what the evaluation logic sees. -/

namespace Sys2Proof.Machine

/-! ### The condition (R106) -/

/-- `m_global()`: condition (a). -/
def mGlobal (s : State) : Bool := decide (s.hart.priv ≠ .m) || s.hart.mstatus.mie

/-- `m_cand()`: conditions (b) and (c), for every interrupt. -/
def mCand (s : State) : Word := mipRead s &&& mieRead s &&& ~~~s.inputs.mideleg

/-- `cond(i)`. -/
def trapCond (i : Nat) (s : State) : Bool := mGlobal s && (mCand s).getLsbD i

/-- The interrupts whose condition holds: bit `i` is `cond(i)`. -/
def condSet (s : State) : Word := if mGlobal s then mCand s else 0

/-! ### What the evaluation logic sees (R108) -/

/-- The bits of `mip` that an input of 00_scope R5 is driving to 1. R5 names no input of the platform: with platform
bits, those its wires drive count here, and the stored ones do not, though the platform's own step may clear them (DESIGN
CHOICE, unsafe with a `PLATFORM_MASK` that is not 0, assumption log 30). -/
def inputDriven (s : State) : Word :=
  atBit 5 (s.inputs.stce && s.inputs.stimerIrq) ||| atBit 6 (pendingVSTIP s) ||| atBit 7 s.inputs.mtimerIrq |||
    atBit 9 s.inputs.seipWire ||| atBit 10 (pendingVSEIP s) ||| atBit 11 s.inputs.meipWire |||
    atBit 12 (pendingSGEIP s) ||| (s.inputs.platformWires &&& s.params.platformBits &&& ~~~s.params.platformStored)

/-- What stands now: the interrupts whose condition holds, and those of them an input drives. -/
def boundaryNow (s : State) : Boundary := ⟨condSet s, condSet s &&& inputDriven s⟩

end Sys2Proof.Machine
end

