-- ==== Sys2Proof/Machine/Ops.lean ====
section
/-! DEFINITION. The named operations: general registers, `pc`, the instruction words, the mark an explicit write leaves,
the writes of `mip` and `mie`, taking an exception (one operation for every trap to M-mode) and returning from one. -/

namespace Sys2Proof.Machine

/-! ### Instruction words (assumption log 2) -/

/-- The word supplied at an address. -/
def Code.word (c : Code) (addr : Nat) : Option InstrWord :=
  match c with
  | [] => none
  | (a, w) :: rest => if a = addr then some w else Code.word rest addr

/-- The words with one placed at an address, in canonical form. -/
def Code.place (c : Code) (addr : Nat) (w : InstrWord) : Code :=
  match c with
  | [] => [(addr, w)]
  | (a, v) :: rest =>
    if addr < a then (addr, w) :: (a, v) :: rest
    else if addr = a then (addr, w) :: rest
    else (a, v) :: Code.place rest addr w

/-- Canonical form: addresses strictly rising. -/
abbrev Code.WellFormed (c : Code) : Prop := c.Pairwise (fun p q => p.1 < q.1)

/-- The word the environment supplies at `pc`. -/
def fetch (s : State) : Option InstrWord := Code.word s.code s.hart.pc.toNat

/-! ### General registers and `pc` (10_state R41, R42) -/

/-- `x[i]`; `x0` reads 0. -/
def readReg (r : Reg) (s : State) : Word := if r = 0 then 0 else s.hart.x[r]

/-- `x[i] <- v`; a write to `x0` is discarded. -/
def writeReg (r : Reg) (v : Word) (s : State) : State :=
  if r = 0 then s else { s with hart := { s.hart with x := s.hart.x.set r v } }

/-- `pc <- pc + 4`, MXLEN bits wide (PRESUMED, assumption log 9). -/
def advancePc (s : State) : State := { s with hart := { s.hart with pc := s.params.fit (s.hart.pc + 4) } }

/-! ### Explicit writes and xRET (60_exceptions R109) -/

/-- A past boundary from the far side of such an instruction: what held there, with nothing stale to come of it. -/
def Boundary.undriven (b : Boundary) : Boundary := { b with driven := 0 }

/-- The evaluation logic's memory after such an instruction that left `now`: "The stale MAY case of rule R108 does not
reach across such an instruction", while R108's MUST, which makes no exception, still counts what held before it. -/
def Evaluation.after (e : Evaluation) (now : Boundary) : Evaluation := ⟨some now, e.recent.map Boundary.undriven⟩

/-- The trap conditions are to be evaluated "immediately following" the instruction, "with the values as they stand after"
it: they are noted as they stand, and decide at the next boundary, before which no other instruction runs but other agents may
still step (assumption log 25). -/
def evaluateNext (s : State) : State := { s with evaln := s.evaln.after (boundaryNow s) }

/-- `evaluateNext` where the change just made was an explicit write or an xRET's, and not where it was not. -/
def evaluateIf (explicit : Bool) (s : State) : State := if explicit then evaluateNext s else s

/-- `mip_write(v)`, an explicit write (10_state R32). -/
def mipWrite (v : Word) (s : State) : State :=
  evaluateNext { s with pend := s.pend.write s.params s.inputs.stce v }

/-- `mie_write(v)`: `mie <- v & MIE_WMASK`, an explicit write (10_state R17). -/
def mieWrite (v : Word) (s : State) : State := evaluateNext { s with mie := v &&& s.params.mieWritable }

/-- The next free value has been drawn. -/
def drawn (s : State) : State := { s with draws := s.draws + 1 }

/-! ### Taking an exception (60_exceptions R113) -/

/-- `mstatus` after a trap to M-mode from the given mode. -/
def Mstatus.push (m : Mstatus) (priv : Priv) (virt : Bool) : Mstatus :=
  { m with mpie := m.mie, mie := false, mpp := priv, mpv := virt }

/-- Trap entry to M-mode, the spec's sketch taken as the meaning (DEDUCED, assumption log 23): `mepc`, `mcause`, `mtval`,
the `mstatus` stack, the mode and the `pc`. Nothing of `mie` and of the storage behind `mip` changes (60_exceptions R114). -/
def trapToM (cause tval target : Word) (s : State) : State :=
  { s with
    hart :=
      { s.hart with
        mepc := s.hart.pc
        mcause := cause
        mtval := tval
        mstatus := s.hart.mstatus.push s.hart.priv s.hart.virt
        virt := false
        priv := .m
        pc := target } }

/-- Where interrupt `i` enters: "if mtvec.MODE == 1 then mtvec.BASE + 4*i else mtvec.BASE" (60_exceptions R113). -/
def interruptTarget (i : Nat) (s : State) : Word :=
  if s.hart.mtvecVectored then s.params.fit (s.hart.mtvecBase + BitVec.ofNat 64 (4 * i)) else s.hart.mtvecBase

/-- `TakeMInterrupt(i)`: trap entry with `mcause` = interrupt bit and `i`, and the output (60_exceptions R105, R113). -/
def takeMInterrupt (i : Nat) (s : State) : State :=
  { trapToM (s.params.interruptBit ||| BitVec.ofNat 64 i) 0 (interruptTarget i s) s with output := some i }

/-- `raise IllegalInstruction(instr)`: exception cause 2, "the instruction bits in mtval or zero" (60_exceptions R100,
40_csr_access R71). The entry is R113's, at `mtvec.BASE` (assumption log 11). -/
def raiseIllegal (w : InstrWord) (s : State) : State :=
  trapToM 2 (if s.params.mtvalHoldsInstr then w.setWidth 64 else 0) s.hart.mtvecBase s

/-! ### Returning from one (41_trap_return R90, R91, R92) -/

/-- MRET in M-mode: the mode, `mstatus` and `pc` are restored; the conditions are evaluated next. -/
def returnFromM (s : State) : State :=
  let m := s.hart.mstatus
  evaluateNext
    { s with
      hart :=
        { s.hart with
          mstatus :=
            { m with
              mie := m.mpie
              mpie := true
              mpp := .u
              mprv := if m.mpp ≠ .m then false else m.mprv
              mpv := false }
          virt := m.mpv
          priv := m.mpp
          pc := s.hart.mepc } }

/-- The mode `SPP` stands for: "S or U" (41_trap_return R91). -/
def Mstatus.sppMode (m : Mstatus) : Priv := if m.spp then .s else .u

/-- SRET where it is allowed: the mode, the supervisor stack of `mstatus` and `pc` are restored, and "from HS-mode" the
virtualization mode; the conditions are evaluated next. -/
def returnFromS (s : State) : State :=
  let m := s.hart.mstatus
  let fromHS := s.hart.priv = .s && !s.hart.virt
  evaluateNext
    { s with
      hart :=
        { s.hart with
          mstatus := { m with sie := m.spie, spie := true, spp := false, mprv := false }
          virt := if fromHS then s.hart.hstatusSPV else s.hart.virt
          hstatusSPV := if fromHS then false else s.hart.hstatusSPV
          priv := m.sppMode
          pc := s.hart.sepc } }

end Sys2Proof.Machine
end

