-- ==== Sys2Proof/Machine/Operands.lean ====
section
/-! DEFINITION. The operand forms of the CSR instructions (30_encoding R61) and what each makes of the old value
(40_csr_access R72 to R78, R80). -/

namespace Sys2Proof.Machine

/-- The operand of the register forms, `x[rs1]`. -/
def regOperand (rs1 : Reg) (s : State) : Word := readReg rs1 s

/-- The operand of the immediate forms, `zext_MXLEN(uimm)`: "There is no sign extension". -/
def immOperand (uimm : Uimm) : Word := uimm.setWidth 64

/-- What a CSR instruction writes, from the old value of the register; `none` where the write is suppressed. -/
abbrev WriteRule := Word → Option Word

/-- CSRRW, CSRRWI: the operand as it stands (R72, R75). -/
def writeOperand (t : Word) : WriteRule := fun _ => some t

/-- CSRRS, CSRRSI: `old | t`, suppressed by `rs1` = `x0` or `uimm` = 0 (R73, R76, R78). -/
def setBits (suppressed : Bool) (t : Word) : WriteRule := fun old => if suppressed then none else some (old ||| t)

/-- CSRRC, CSRRCI: `old & ~t`, suppressed likewise (R74, R77, R78). -/
def clearBits (suppressed : Bool) (t : Word) : WriteRule := fun old => if suppressed then none else some (old &&& ~~~t)

end Sys2Proof.Machine
end

