-- ==== Sys2Proof/Machine/Views.lean ====
section
/-! DEFINITION. The views and aliases of `mip` and `mie` bits in `sip`, `sie`, `mvip`, `hip`, `hvip` and `vsip`
(10_state R36 to R40), field by field, and the fields each register holds. Which fields are writable, and where `vsip`
holds them, is in part the model's reading (DEDUCED and PRESUMED, assumption log 15, 19). -/

namespace Sys2Proof.Machine

/-- The spec says what an access to the field does. It does not for `mvip.STIP` while STCE is set (U6) and for a `vsip`
field while its `hideleg` bit is clear (U12). -/
def viewGiven (f : ViewField) (s : State) : Bool :=
  match f with
  | .mvipSTIP => !s.inputs.stce
  | .vsipSSIP => s.inputs.hideleg.getLsbD 2
  | .vsipSTIP => s.inputs.hideleg.getLsbD 6
  | .vsipSEIP => s.inputs.hideleg.getLsbD 10
  | .vsipLCOFIP => s.inputs.hideleg.getLsbD 13
  | .sipSSIP | .sipSTIP | .sipSEIP | .sipLCOFIP | .sieSSIE | .sieSTIE | .sieSEIE | .sieLCOFIE | .mvipSSIP | .mvipSEIP
  | .hipVSSIP | .hipVSTIP | .hipVSEIP | .hipSGEIP | .hvipVSSIP | .hvipVSTIP | .hvipVSEIP => true

/-- A bit a `mideleg` bit makes visible, "otherwise ... read-only zero" (R36, R37). -/
def delegated (i : Nat) (b : Bool) (s : State) : Bool := s.inputs.mideleg.getLsbD i && b

/-- What the field reads, where the spec gives it. -/
def viewRead (f : ViewField) (s : State) : Bool :=
  match f with
  | .sipSSIP => delegated 1 s.pend.ssip s
  | .sipSTIP => delegated 5 (pendingSTIP s) s
  | .sipSEIP => delegated 9 (pendingSEIP s) s
  | .sipLCOFIP => delegated 13 s.pend.lcofip s
  | .sieSSIE => delegated 1 (s.mie.getLsbD 1) s
  | .sieSTIE => delegated 5 (s.mie.getLsbD 5) s
  | .sieSEIE => delegated 9 (s.mie.getLsbD 9) s
  | .sieLCOFIE => delegated 13 (s.mie.getLsbD 13) s
  | .mvipSSIP => s.pend.ssip
  | .mvipSTIP => s.pend.stip
  | .mvipSEIP => s.pend.seipB
  | .hipVSSIP => s.pend.vssip
  | .hipVSTIP => pendingVSTIP s
  | .hipVSEIP => pendingVSEIP s
  | .hipSGEIP => pendingSGEIP s
  | .hvipVSSIP => s.pend.vssip
  | .hvipVSTIP => s.inputs.hvipVSTIP
  | .hvipVSEIP => s.inputs.hvipVSEIP
  | .vsipSSIP => s.pend.vssip
  | .vsipSTIP => pendingVSTIP s
  | .vsipSEIP => pendingVSEIP s
  | .vsipLCOFIP => s.pend.lcofip

/-- `mie[i] <- b` through `sie`, ignored while `mideleg[i]` is clear (R37). -/
def writeSie (i : Nat) (b : Bool) (s : State) : State :=
  if s.inputs.mideleg.getLsbD i then { s with mie := withBit s.mie i b } else s

/-- The storage a write of `b` to the field changes, where the spec gives it. The read-only fields ignore it. -/
def viewStore (f : ViewField) (b : Bool) (s : State) : State :=
  match f with
  | .sipSSIP => if s.inputs.mideleg.getLsbD 1 then { s with pend := { s.pend with ssip := b } } else s
  | .sipLCOFIP => if s.inputs.mideleg.getLsbD 13 then { s with pend := { s.pend with lcofip := b } } else s
  | .sieSSIE => writeSie 1 b s
  | .sieSTIE => writeSie 5 b s
  | .sieSEIE => writeSie 9 b s
  | .sieLCOFIE => writeSie 13 b s
  | .mvipSSIP => { s with pend := { s.pend with ssip := b } }
  | .mvipSTIP => { s with pend := { s.pend with stip := b } }
  | .mvipSEIP => { s with pend := { s.pend with seipB := b } }
  | .hipVSSIP | .hvipVSSIP | .vsipSSIP => { s with pend := { s.pend with vssip := b } }
  | .hvipVSTIP => { s with inputs := { s.inputs with hvipVSTIP := b } }
  | .hvipVSEIP => { s with inputs := { s.inputs with hvipVSEIP := b } }
  | .vsipLCOFIP => { s with pend := { s.pend with lcofip := b } }
  | .sipSTIP | .sipSEIP | .hipVSTIP | .hipVSEIP | .hipSGEIP | .vsipSTIP | .vsipSEIP => s

/-- The fields a view register holds, with their bit positions; `mie` and `mip` are no views. -/
def viewFields : Csr → List (Nat × ViewField)
  | .mie => []
  | .mip => []
  | .sip => [(1, .sipSSIP), (5, .sipSTIP), (9, .sipSEIP), (13, .sipLCOFIP)]
  | .sie => [(1, .sieSSIE), (5, .sieSTIE), (9, .sieSEIE), (13, .sieLCOFIE)]
  | .mvip => [(1, .mvipSSIP), (5, .mvipSTIP), (9, .mvipSEIP)]
  | .hip => [(2, .hipVSSIP), (6, .hipVSTIP), (10, .hipVSEIP), (12, .hipSGEIP)]
  | .hvip => [(2, .hvipVSSIP), (6, .hvipVSTIP), (10, .hvipVSEIP)]
  | .vsip => [(1, .vsipSSIP), (5, .vsipSTIP), (9, .vsipSEIP), (13, .vsipLCOFIP)]

/-- The first field of a view register that the spec leaves out in this state. -/
def firstNotGiven (c : Csr) (s : State) : Option ViewField :=
  ((viewFields c).find? (fun pf => !viewGiven pf.2 s)).map Prod.snd

/-- The fields' bits, each in its place. -/
def viewBits (fs : List (Nat × ViewField)) (s : State) : Word :=
  match fs with
  | [] => 0
  | (i, f) :: rest => atBit i (viewRead f s) ||| viewBits rest s

/-- Each field's bit of `v` written to it. -/
def storeViewBits (fs : List (Nat × ViewField)) (v : Word) (s : State) : State :=
  match fs with
  | [] => s
  | (i, f) :: rest => storeViewBits rest v (viewStore f (v.getLsbD i) s)

/-- The bits of a view register that hold no field the spec gives and may read 1: what they read is a free value within
this mask (assumption log 12). `sip` and `sie` are "restricted views" of `mip` and `mie` (R36, R37): a bit that is not
delegated is read-only zero, a delegated one outside the four fields reads the bit viewed or 0. -/
def viewRestMask (c : Csr) (s : State) : Word :=
  match c with
  | .mie => 0
  | .mip => 0
  | .sip => s.inputs.mideleg &&& mipRead s &&& ~~~0x2222
  | .sie => s.inputs.mideleg &&& mieRead s &&& ~~~0x2222
  | .mvip => s.params.fit (~~~0x0222)
  | .hip => s.params.fit (~~~0x1444)
  | .hvip => s.params.fit (~~~0x0444)
  | .vsip => s.params.fit (~~~0x2222)

/-- What a read of a view register returns: its fields, and free values in the bits the spec does not give. -/
def viewRegRead (c : Csr) (s : State) : Word :=
  viewBits (viewFields c) s ||| (Config.viewRest s.draws &&& viewRestMask c s)

end Sys2Proof.Machine
end

