-- ==== Sys2Proof/Machine/CsrFile.lean ====
section
/-! DEFINITION. The CSR file: dispatch on the CSR number (40_csr_access R70), the access check (R71), and the one shared
shape of the six CSR instructions. -/

namespace Sys2Proof.Machine

/-- `csr_read(c)` (R70; the view registers by 10_state R36 to R40). -/
def csrRead (c : Csr) (s : State) : Word :=
  match c with
  | .mie => mieRead s
  | .mip => mipRead s
  | .sip | .sie | .mvip | .hip | .hvip | .vsip => viewRegRead c s

/-- A read has no side effect (20_memory R54); one of a view register spends a free value. -/
def noteRead (c : Csr) (s : State) : State :=
  match c with
  | .mie | .mip => s
  | .sip | .sie | .mvip | .hip | .hvip | .vsip => drawn s

/-- `csr_old(c)`, the value a read-modify-write combines (R70): for `mip`, bit 9 is `SEIP_B` alone. The bits of a view
register that the spec does not give are left out: a write ignores them. -/
def csrOld (c : Csr) (s : State) : Word :=
  match c with
  | .mie => mieRead s
  | .mip => mipRmw s
  | .sip | .sie | .mvip | .hip | .hvip | .vsip => viewBits (viewFields c) s

/-- `csr_write(c, v)`, "then evaluate the interrupt trap conditions before the next instruction" (R70). -/
def csrWrite (c : Csr) (v : Word) (s : State) : State :=
  match c with
  | .mie => mieWrite v s
  | .mip => mipWrite v s
  | .sip | .sie | .mvip | .hip | .hvip | .vsip => evaluateNext (storeViewBits (viewFields c) v s)

/-- The rank of the hart's mode against bits 9:8 of a CSR number (30_encoding R62, assumption log 10): U and VU 0, VS 1,
HS 2, M 3. -/
def privRank (h : Hart) : Nat :=
  match h.priv with
  | .u => 0
  | .s => if h.virt then 1 else 2
  | .m => 3

/-- VS-mode (60_exceptions R118): S with the virtualization mode on. -/
def inVS (s : State) : Bool := s.hart.virt && decide (s.hart.priv = .s)

/-- The register an access by the number of `c` reaches: "VS-mode sees `vsip`" (60_exceptions R118), by the number of
`sip` as well as by its own (PRESUMED, assumption log 10). -/
def csrTarget (c : Csr) (s : State) : Csr := if inVS s && decide (c = .sip) then .vsip else c

/-- The mode may make the access: its rank is the one bits 9:8 ask (30_encoding R62), or it is VS-mode, which "sees
`vsip`" (60_exceptions R118). -/
def modeMayAccess (c : Csr) (s : State) : Bool :=
  decide (c.lowestPrivilege ≤ privRank s.hart) || (inVS s && decide (c = .vsip))

/-- What the access check finds. -/
inductive Access where
  | granted
  | illegal
  | refused (r : Refusal)
  deriving DecidableEq, Repr

/-- The access check, which "comes first" (R71): `mie` and `mip` in M-mode only, from every other mode an
illegal-instruction exception. The view registers by bits 9:8 of their numbers (30_encoding R62, assumption log 10);
where the spec does not say what a field is, and for `sie` from VS-mode, the access is refused (assumption log 24). -/
def csrCheck (c : Csr) (s : State) : Access :=
  if modeMayAccess c s = false then .illegal
  else if inVS s && decide (c = .sie) then .refused (.viewFromVirtualMode c)
  else match firstNotGiven (csrTarget c s) s with
    | some f => .refused (.viewFieldNotGiven f)
    | none => .granted

/-- A granted CSR access: `x[rd] <- csr_read(c)` unless the read is suppressed, the write the rule gives unless it is
suppressed, `pc <- pc + 4` (R72 to R78). One atomic step (20_memory R54). -/
def csrComplete (c : Csr) (rd : Reg) (reads : Bool) (rule : WriteRule) (s : State) : State :=
  let afterRead := if reads then writeReg rd (csrRead c s) (noteRead c s) else s
  let afterWrite :=
    match rule (csrOld c s) with
    | some v => csrWrite c v afterRead
    | none => afterRead
  advancePc afterWrite

/-- The six CSR instructions: dispatch, check, access to the register the mode sees. `i` is the instruction itself, whose bits the exception
records. -/
def csrInstr (i : Instr) (csr : CsrNum) (rd : Reg) (reads : Bool) (rule : WriteRule) (s : State) :
    Host.Outcome State Fault Refusal :=
  match Csr.ofNumber csr with
  | none => .refused (.csrOutsideHardware csr)
  | some c =>
    match csrCheck c s with
    | .granted => .next (csrComplete (csrTarget c s) rd reads rule s)
    | .illegal => .next (raiseIllegal (encode i) s)
    | .refused r => .refused r

end Sys2Proof.Machine
end

