-- ==== Sys2Proof/Machine/CsrAccess.lean ====
section
/-! DEFINITION. The meanings of CSRRW, CSRRS, CSRRC, CSRRWI, CSRRSI, CSRRCI (40_csr_access R72 to R78). The operand is
read before `rd` is written. -/

namespace Sys2Proof.Machine

/-- CSRRW (R72): `rd` = `x0` suppresses the read. -/
def execCsrrw (rd : Reg) (csr : CsrNum) (rs1 : Reg) (s : State) : Host.Outcome State Fault Refusal :=
  csrInstr (.csrrw rd csr rs1) csr rd (decide (rd ≠ 0)) (writeOperand (regOperand rs1 s)) s

/-- CSRRS (R73): `rs1` = `x0` suppresses the write. -/
def execCsrrs (rd : Reg) (csr : CsrNum) (rs1 : Reg) (s : State) : Host.Outcome State Fault Refusal :=
  csrInstr (.csrrs rd csr rs1) csr rd true (setBits (decide (rs1 = 0)) (regOperand rs1 s)) s

/-- CSRRC (R74): `rs1` = `x0` suppresses the write. -/
def execCsrrc (rd : Reg) (csr : CsrNum) (rs1 : Reg) (s : State) : Host.Outcome State Fault Refusal :=
  csrInstr (.csrrc rd csr rs1) csr rd true (clearBits (decide (rs1 = 0)) (regOperand rs1 s)) s

/-- CSRRWI (R75): `rd` = `x0` suppresses the read; `uimm` = 0 still writes. -/
def execCsrrwi (rd : Reg) (csr : CsrNum) (uimm : Uimm) (s : State) : Host.Outcome State Fault Refusal :=
  csrInstr (.csrrwi rd csr uimm) csr rd (decide (rd ≠ 0)) (writeOperand (immOperand uimm)) s

/-- CSRRSI (R76): `uimm` = 0 suppresses the write. -/
def execCsrrsi (rd : Reg) (csr : CsrNum) (uimm : Uimm) (s : State) : Host.Outcome State Fault Refusal :=
  csrInstr (.csrrsi rd csr uimm) csr rd true (setBits (decide (uimm = 0)) (immOperand uimm)) s

/-- CSRRCI (R77): `uimm` = 0 suppresses the write. -/
def execCsrrci (rd : Reg) (csr : CsrNum) (uimm : Uimm) (s : State) : Host.Outcome State Fault Refusal :=
  csrInstr (.csrrci rd csr uimm) csr rd true (clearBits (decide (uimm = 0)) (immOperand uimm)) s

end Sys2Proof.Machine
end

