-- ==== Sys2Proof/Machine/TrapReturn.lean ====
section
/-! DEFINITION. The meanings of MRET and SRET (41_trap_return R90 to R92), by the letter where a virtual mode is
concerned (DEDUCED, assumption log 16). -/

namespace Sys2Proof.Machine

/-- MRET (R90): "if priv != M then raise IllegalInstruction(instr)". -/
def execMret (s : State) : Host.Outcome State Fault Refusal :=
  if s.hart.priv = .m then .next (returnFromM s) else .next (raiseIllegal (encode .mret) s)

/-- SRET is illegal "if priv is less privileged than S, or (priv == S and mstatus.TSR == 1)" (R91). -/
def sretIllegal (s : State) : Bool :=
  match s.hart.priv with
  | .u => true
  | .s => s.hart.mstatus.tsr
  | .m => false

/-- SRET (R91). -/
def execSret (s : State) : Host.Outcome State Fault Refusal :=
  if sretIllegal s then .next (raiseIllegal (encode .sret) s) else .next (returnFromS s)

end Sys2Proof.Machine
end

