-- ==== Sys2Proof/Machine/Environment.lean ====
section
/-! DEFINITION. The steps of the other agents (00_scope R4, R5; 10_state R33), changes of the inputs and hardware updates;
and what instructions outside this spec do, writes through alias names among it. -/

namespace Sys2Proof.Machine

/-- A change of `menvcfg.STCE`: "on menvcfg_STCE changing 1 -> 0: STIP_b <- draw" (10_state R33), whoever makes it. -/
def changeStce (b : Bool) (s : State) : State :=
  let s1 := { s with inputs := { s.inputs with stce := b } }
  if s.inputs.stce && !b then drawn { s1 with pend := { s1.pend with stip := Config.stipDraw s.draws } } else s1

/-- Reset: every field as `State.resetWith` has it, `mie` a new draw; the environment's words and turns stay (DESIGN CHOICE,
assumption log 17). -/
def resetNow (s : State) : State :=
  { State.resetWith s.params (Config.mieReset s.draws) Config.resetVector Config.resetCause with
    code := s.code, agenda := s.agenda, draws := s.draws + 1 }

/-- One step of another agent. Values are cut to MXLEN bits. It is no instruction: no instruction boundary passes, and none
of its changes is evaluated at once, which leaves the evaluation to R108 (assumption log 27). -/
def applyEvent (e : EnvEvent) (s : State) : State :=
  match e with
  | .lcofiRequest => { s with pend := { s.pend with lcofip := true } }
  | .meip b => { s with inputs := { s.inputs with meipWire := b } }
  | .seip b => { s with inputs := { s.inputs with seipWire := b } }
  | .vseip b => { s with inputs := { s.inputs with vseipWire := b } }
  | .mtimer b => { s with inputs := { s.inputs with mtimerIrq := b } }
  | .stimer b => { s with inputs := { s.inputs with stimerIrq := b } }
  | .vstimer b => { s with inputs := { s.inputs with vstimerIrq := b } }
  | .hgeip n => { s with inputs := { s.inputs with hgeip := n } }
  | .platform stored wires =>
    { s with
      pend := { s.pend with platform := stored &&& s.params.platformStored }
      inputs := { s.inputs with platformWires := wires &&& s.params.platformBits } }
  | .hvipVSTIP b => { s with inputs := { s.inputs with hvipVSTIP := b } }
  | .hvipVSEIP b => { s with inputs := { s.inputs with hvipVSEIP := b } }
  | .menvcfgSTCE b => changeStce b s
  | .mideleg w => { s with inputs := { s.inputs with mideleg := s.params.fit w } }
  | .hideleg w => { s with inputs := { s.inputs with hideleg := s.params.fit w } }
  | .mstatusMIE b => { s with hart := { s.hart with mstatus := { s.hart.mstatus with mie := b } } }
  | .mode p v => { s with hart := { s.hart with priv := p, virt := v } }
  | .code addr w => { s with code := Code.place s.code addr w }
  | .reset => resetNow s

/-! ### Instructions outside this spec -/

/-- One effect of an instruction outside this spec. Values are cut to MXLEN bits. -/
def applyEffect (e : HartEffect) (s : State) : State :=
  match e with
  | .viewWrite f b => viewStore f b s
  | .menvcfgSTCE b => changeStce b s
  | .mideleg w => { s with inputs := { s.inputs with mideleg := s.params.fit w } }
  | .hideleg w => { s with inputs := { s.inputs with hideleg := s.params.fit w } }
  | .mstatus m _ => { s with hart := { s.hart with mstatus := m } }
  | .hstatusSPV b => { s with hart := { s.hart with hstatusSPV := b } }
  | .mode p v _ => { s with hart := { s.hart with priv := p, virt := v } }
  | .mtvec base vectored =>
    { s with hart := { s.hart with mtvecBase := s.params.fit base, mtvecVectored := vectored } }
  | .mepc w => { s with hart := { s.hart with mepc := s.params.fit w } }
  | .sepc w => { s with hart := { s.hart with sepc := s.params.fit w } }
  | .mcause w => { s with hart := { s.hart with mcause := s.params.fit w } }
  | .mtval w => { s with hart := { s.hart with mtval := s.params.fit w } }
  | .reg r w => writeReg r (s.params.fit w) s
  | .pc w => { s with hart := { s.hart with pc := s.params.fit w } }

/-- The field of a view register that the spec does not give and the effect would write, if it does (U6, U12). -/
def effectNotGiven (e : HartEffect) (s : State) : Option ViewField :=
  match e with
  | .viewWrite f _ => if viewGiven f s then none else some f
  | .menvcfgSTCE _ | .mideleg _ | .hideleg _ | .mstatus _ _ | .hstatusSPV _ | .mode _ _ _ | .mtvec _ _ | .mepc _ | .sepc _
  | .mcause _ | .mtval _ | .reg _ _ | .pc _ => none

/-- The effects of an instruction outside this spec, one after the other. -/
def applyEffects (es : List HartEffect) (s : State) : Host.Outcome State Fault Refusal :=
  match es with
  | [] => .next s
  | e :: rest =>
    match effectNotGiven e s with
    | some f => .refused (.viewFieldNotGiven f)
    | none => applyEffects rest (applyEffect e s)

/-- An instruction outside this spec, as what it does (assumption log 29): its effects, whole, and then, where it made an
explicit write or was an xRET, the evaluation due next (60_exceptions R109, 41_trap_return R92). -/
def runForeign (es : List HartEffect) (s : State) : Host.Outcome State Fault Refusal :=
  match applyEffects es s with
  | .next t => .next (evaluateIf (es.any HartEffect.evaluated) t)
  | .fault r => .fault r
  | .refused r => .refused r

end Sys2Proof.Machine
end

