-- ==== Sys2Proof/Machine/Interrupts.lean ====
section
/-! DEFINITION. The evaluation logic (00_scope R4 e): the priority order, and what an instruction boundary decides
(60_exceptions R108 to R112). -/

namespace Sys2Proof.Machine

/-! ### The choice (R110, R111) -/

/-- The first interrupt of a set in the priority order. -/
def firstInOrder (p : Params) (set : Word) : Option Nat := p.order.find? (fun i => set.getLsbD i)

/-- `select_m_interrupt()`. -/
def selectMInterrupt (s : State) : Option Nat :=
  if mGlobal s then firstInOrder s.params (mCand s) else none

/-! ### Asynchronous evaluation (R108) -/

/-- The interrupts whose condition holds now and has held at every one of the given boundaries. -/
def heldThroughout (bs : List Boundary) (now : Word) : Word :=
  match bs with
  | [] => now
  | b :: rest => heldThroughout rest (now &&& b.held)

/-- The interrupts whose condition held at one of the given boundaries because of a bit an input drove. -/
def drivenBefore (bs : List Boundary) : Word :=
  match bs with
  | [] => 0
  | b :: rest => b.driven ||| drivenBefore rest

/-- Some `cond(i)` holds and has held "at each of the last EVAL_BOUND boundaries as well". Where fewer than `EVAL_BOUND`
boundaries lie behind, since reset, the spec does not say what that means; here the history then asks for nothing, and
the choice stays MAY (DESIGN CHOICE, safe, assumption log 26). -/
def heldForBound (s : State) : Bool :=
  decide (s.params.evalBound ≤ s.evaln.recent.length) &&
    decide (heldThroughout (s.evaln.recent.take s.params.evalBound) (condSet s) ≠ 0)

/-- MAY, "staleness on the falling side" (R108): the condition held not more than `EVAL_BOUND` boundaries ago because of
an input-driven bit of `mip` that has since fallen; the rest of the condition still stands (assumption log 5). -/
def staleSet (s : State) : Word :=
  if mGlobal s then
    drivenBefore (s.evaln.recent.take s.params.evalBound) &&& ~~~mipRead s &&& mieRead s &&& ~~~s.inputs.mideleg
  else 0

/-! ### Synchronous evaluation (R109, 41_trap_return R92) -/

/-- The interrupt that the evaluation right after an xRET or explicit write finds, at the boundary that follows it: the
first in the order of those whose condition held "with the values as they stand after the instruction" (R109), "with the
values of `priv` and `mstatus_MIE` that the xRET instruction has just produced" (41_trap_return R92). -/
def settledInterrupt (s : State) : Option Nat :=
  match s.evaln.due with
  | none => none
  | some b => firstInOrder s.params b.held

/-- MUST: R109's "with no waiting", for a condition that held right after the instruction, whatever another agent has
changed since; or R108's. A change that another agent makes in between is "ordered only by the bounded amount of time" of
R108 (20_memory R56): an input risen since forces nothing by R109 (assumption log 25). -/
def mustTake (s : State) : Bool := (settledInterrupt s).isSome || heldForBound s

/-! ### The decision -/

/-- What the boundary takes where the choice does not come in: the interrupt the present values select, or, where none of
their conditions holds, the one the evaluation right after the instruction found. -/
def forcedInterrupt (s : State) : Option Nat :=
  if mustTake s then (selectMInterrupt s).or (settledInterrupt s) else none

/-- What the boundary decides: the interrupt taken in place of the next instruction, if any. Where none must be taken, a
stale one may be even at a boundary where some `cond(j)` holds, and any one of several stale ones, in whatever place of
the priority order: R108 lets a stale one "still be taken", R110 orders only "those `i`" with `cond(i)`, and the spec does
not say which of the two rules yields (DESIGN CHOICE, safe, assumption log 28). After an xRET or explicit write the one
taken is the first in the order of the values the instruction left or of the present ones, as another agent's change since
was in time or not (R109, R110; 20_memory R56; DESIGN CHOICE, assumption log 25). -/
def decideInterrupt (c : EvalChoice) (s : State) : Option Nat :=
  match c with
  | .defer => forcedInterrupt s
  | .present => (selectMInterrupt s).or (forcedInterrupt s)
  | .stale i => if mustTake s = false ∧ (staleSet s).getLsbD i then some i else forcedInterrupt s
  | .settled => (settledInterrupt s).or (forcedInterrupt s)

/-! ### Passing a boundary -/

/-- The boundary has been evaluated: what stands is remembered, for `EVAL_BOUND` boundaries at most, and nothing is due any
more. -/
def passBoundary (s : State) : State :=
  { s with evaln := ⟨none, (boundaryNow s :: s.evaln.recent).take s.params.evalBound⟩ }

end Sys2Proof.Machine
end

