-- ==== Sys2Proof/Machine/Turns.lean ====
section
/-! DEFINITION. One turn: whose it is, the hart's boundary (an interrupt in place of the instruction, or the instruction, be
it one of the eight or another), or another agent's step. -/

namespace Sys2Proof.Machine

/-- The turn now due and the state it starts from: taken off the agenda, the last output gone. With none listed it is a
free value, a turn of the hart (with the choice the rules leave to the evaluation logic) or another agent's step: "Agents (b), (c)
and (d) act at times no rule of this spec fixes; a model lets any of them step between any two instructions of the hart"
(00_scope R4; DESIGN CHOICE, assumption log 3). -/
def dueTurn (s : State) : Turn × State :=
  match s.agenda with
  | [] => (Config.freeTurn s.draws, { s with draws := s.draws + 1, output := none })
  | t :: rest => (t, { s with agenda := rest, output := none })

/-- The instruction at `pc`, fetched and decoded. -/
def fetchDecode (s : State) : Host.Outcome Instr Fault Refusal :=
  match fetch s with
  | none => .fault (.noInstruction s.hart.pc.toNat)
  | some w =>
    match decode w with
    | .ok i => .next i
    | .error e => .refused (.undecodable e)

/-- The instruction at `pc`, run. -/
def runInstruction (s : State) : Host.Outcome State Fault Refusal :=
  match fetchDecode s with
  | .next i => exec i s
  | .fault r => .fault r
  | .refused r => .refused r

/-- A turn of the hart: the boundary first; an interrupt "is taken at an instruction boundary, in place of the next
instruction" (60_exceptions R116), be that one of the eight or another. So after an xRET or explicit write no instruction
executes before the evaluation (41_trap_return R92, 60_exceptions R109). The boundary decides when the turn comes, by the
values that stand then and, after such an instruction, by those it left (assumption log 25). -/
def atBoundary (c : EvalChoice) (run : State → Host.Outcome State Fault Refusal) (s : State) :
    Host.Outcome State Fault Refusal :=
  match decideInterrupt c s with
  | some i => .next (takeMInterrupt i (passBoundary s))
  | none => run (passBoundary s)

/-- A turn. -/
def takeTurn (t : Turn) (s : State) : Host.Outcome State Fault Refusal :=
  match t with
  | .hart c => atBoundary c runInstruction s
  | .foreign c es => atBoundary c (runForeign es) s
  | .env e => .next (applyEvent e s)

/-- The word placed at `pc`, and the hart's turn made the next one. -/
def placeNext (s : State) (w : InstrWord) : State :=
  { s with code := Code.place s.code s.hart.pc.toNat w, agenda := .hart .defer :: s.agenda }

end Sys2Proof.Machine
end

