-- ==== Sys2Proof/Machine/Step.lean ====
section
/-! DEFINITION. One step of the machine: the turn now due. -/

namespace Sys2Proof.Machine

/-- One step: one agent's turn (00_scope R4). -/
def step (s : State) : Host.Outcome State Fault Refusal :=
  takeTurn (dueTurn s).1 (dueTurn s).2

/-- `s` with the instruction word stored where `step` fetches next: at `pc`, with the hart's turn due. An interrupt that
must be taken at that boundary is still taken first, as 60_exceptions R108 and R109 demand; from reset none is. -/
def State.withFetchWord (s : State) (nbits w : Nat) : State :=
  placeNext s (BitVec.ofNat 32 (w % 2 ^ nbits))

end Sys2Proof.Machine
end

