-- ==== Sys2Proof/Safety.lean ====
section
/-! DEFINITION. What counts as a sound state (the invariant every step keeps) and the terms the claims use: what a CSR
access leaves alone, what an exception entry records, what a safe run is. -/

namespace Sys2Proof.Machine

/-- The registers of the hart are MXLEN bits wide and the cell of `x0` holds 0. -/
structure Hart.Sound (p : Params) (h : Hart) : Prop where
  x0 : h.x[(0 : Reg)] = 0
  x : ∀ r : Reg, p.Fits h.x[r]
  pc : p.Fits h.pc
  mepc : p.Fits h.mepc
  sepc : p.Fits h.sepc
  mcause : p.Fits h.mcause
  mtval : p.Fits h.mtval
  mtvecBase : p.Fits h.mtvecBase

/-- What the evaluation logic remembers: an input drove no interrupt whose condition did not hold, and no bit that none can
drive (MSIP, for one, 10_state R20); no bit lies above MXLEN. -/
structure Boundary.Sound (p : Params) (b : Boundary) : Prop where
  drivenHeld : b.driven &&& ~~~b.held = 0
  drivenDrivable : b.driven &&& ~~~p.inputDrivable = 0
  heldFits : p.Fits b.held

/-- The invariant of the machine. -/
structure State.Inv (s : State) : Prop where
  /-- "bits outside MIE_WMASK are always 0" (10_state R34, R15). -/
  mieConfined : s.mie &&& ~~~s.params.mieWritable = 0
  /-- Platform storage exists only where the platform's writable bits do (10_state R14). -/
  platformConfined : s.pend.platform &&& ~~~s.params.platformStored = 0
  hart : s.hart.Sound s.params
  midelegFits : s.params.Fits s.inputs.mideleg
  hidelegFits : s.params.Fits s.inputs.hideleg
  codeCanonical : Code.WellFormed s.code
  /-- No more than `EVAL_BOUND` boundaries are remembered (60_exceptions R108). -/
  historyBounded : s.evaln.recent.length ≤ s.params.evalBound
  historySound : ∀ b ∈ s.evaln.recent, b.Sound s.params
  /-- After an xRET or explicit write no instruction runs before the boundary that follows, so what held is still enabled
  there; MSIP, hardwired 0 (10_state R20), did not hold. -/
  dueSound : ∀ b, s.evaln.due = some b → b.Sound s.params ∧ b.held &&& ~~~s.mie = 0 ∧ b.held.getLsbD 3 = false
  /-- An xRET or explicit write whose evaluation is due has left nothing stale behind it (60_exceptions R109). -/
  dueCutsHistory : s.evaln.due ≠ none → ∀ b ∈ s.evaln.recent, b.driven = 0

/-- A step that neither faults nor is refused. -/
def Safe (s : State) : Prop := ∃ t, step s = .next t

/-- Everything a CSR access to `mie` or `mip` leaves alone, `mie` and the storage behind `mip` aside: the parameters,
the inputs, every hart register but the general registers and `pc`, every instruction word, the turns, the output. -/
structure CsrFrame (s t : State) : Prop where
  params : t.params = s.params
  inputs : t.inputs = s.inputs
  hart : { t.hart with x := s.hart.x, pc := s.hart.pc } = s.hart
  words : ∀ a, Code.word t.code a = Code.word s.code a
  agenda : t.agenda = s.agenda
  output : t.output = s.output

/-- The general registers after a CSR instruction: `x[rd]` holds `v` unless `rd` = `x0`, the others are unchanged. -/
def RegsAfter (rd : Reg) (v : Word) (s t : State) : Prop :=
  ∀ r : Reg, readReg r t = if r = rd ∧ rd ≠ 0 then v else readReg r s

/-- `pc <- pc + 4`. -/
def PcAdvanced (s t : State) : Prop := t.hart.pc = s.params.fit (s.hart.pc + 4)

/-- An access that writes is an explicit write: the conditions are evaluated next (60_exceptions R109); one whose write
is suppressed is not (40_csr_access R78). -/
def EvaluatedIf (wrote : Bool) (s t : State) : Prop :=
  t.evaln = if wrote then s.evaln.after (boundaryNow t) else s.evaln

/-- A trap entry to M-mode (60_exceptions R113) with the given `mcause`, `mtval` and entry address, and all it leaves
alone: `mie`, the storage behind `mip`, the inputs, the general registers, the instruction words. -/
structure TrapEntered (cause tval target : Word) (s t : State) : Prop where
  mepc : t.hart.mepc = s.hart.pc
  mcause : t.hart.mcause = cause
  mtval : t.hart.mtval = tval
  mpie : t.hart.mstatus.mpie = s.hart.mstatus.mie
  mieCleared : t.hart.mstatus.mie = false
  mpp : t.hart.mstatus.mpp = s.hart.priv
  mpv : t.hart.mstatus.mpv = s.hart.virt
  virt : t.hart.virt = false
  priv : t.hart.priv = .m
  pc : t.hart.pc = target
  otherStatus : t.hart.mstatus.mprv = s.hart.mstatus.mprv ∧ t.hart.mstatus.sie = s.hart.mstatus.sie ∧
    t.hart.mstatus.spie = s.hart.mstatus.spie ∧ t.hart.mstatus.spp = s.hart.mstatus.spp ∧
    t.hart.mstatus.tsr = s.hart.mstatus.tsr
  otherHart : t.hart.x = s.hart.x ∧ t.hart.sepc = s.hart.sepc ∧ t.hart.hstatusSPV = s.hart.hstatusSPV ∧
    t.hart.mtvecBase = s.hart.mtvecBase ∧ t.hart.mtvecVectored = s.hart.mtvecVectored
  mie : t.mie = s.mie
  pend : t.pend = s.pend
  inputs : t.inputs = s.inputs
  params : t.params = s.params
  words : ∀ a, Code.word t.code a = Code.word s.code a

/-- The illegal-instruction exception of an instruction word (40_csr_access R71, 60_exceptions R100). -/
def IllegalEntered (w : InstrWord) (s t : State) : Prop :=
  TrapEntered 2 (if s.params.mtvalHoldsInstr then w.setWidth 64 else 0) s.hart.mtvecBase s t ∧
    t.evaln = s.evaln ∧ t.agenda = s.agenda ∧ t.draws = s.draws ∧ t.output = s.output

end Sys2Proof.Machine
end

