-- ==== Sys2Proof/Certificates/Slice0/Obligations.lean ====
section
/-! DEFINITION. The statements for the provers, from the numbered rules of spec/, and the terms they are written in. -/

namespace Sys2Proof.Claims

open Sys2Proof.Machine

/-! ### Terms -/

/-- Bit `i` of a word. -/
abbrev bit (v : Word) (i : Nat) : Bool := v.getLsbD i

/-- What the storage behind `mip` holds after a write of `v` (10_state R32), bit by bit. -/
def pendAfter (v : Word) (s : State) : Pending where
  ssip := bit v 1
  vssip := bit v 2
  stip := if s.inputs.stce then s.pend.stip else bit v 5
  seipB := bit v 9
  lcofip := bit v 13
  platform := v &&& s.params.platformStored

/-- The width of the registers (00_scope R2). -/
def widthOf (p : Params) : Nat :=
  match p.mxlen with
  | .rv32 => 32
  | .rv64 => 64

/-- `pc <- pc + 4`, where that does not pass the end of the MXLEN-bit numbers: there the spec says nothing (10_state
R42), and what the model does stands in `PairPcAndIllegalEntry`. -/
def PcPlusFour (s t : State) : Prop := s.hart.pc.toNat + 4 < 2 ^ widthOf s.params → t.hart.pc = s.hart.pc + 4

/-- What the spec itself says of the illegal-instruction exception of the word `w` (40_csr_access R71, 60_exceptions
R100): cause 2, `mtval` the instruction bits or zero, and "nothing else of the instruction happens". Where the entry
goes is the model's: see `PairPcAndIllegalEntry`. -/
structure IllegalRaised (w : InstrWord) (s t : State) : Prop where
  mcause : t.hart.mcause = 2
  mtval : t.hart.mtval = w.setWidth 64 ∨ t.hart.mtval = 0
  x : t.hart.x = s.hart.x
  mie : t.mie = s.mie
  pend : t.pend = s.pend
  inputs : t.inputs = s.inputs
  evaluated : t.evaln = s.evaln

/-- A granted access to `mie`: `rd` gets the old value, `mie` the written one cut to `MIE_WMASK` (10_state R17), nothing
else changes but `pc`. `written = none` is a suppressed write. -/
structure MieAccess (rd : Reg) (written : Option Word) (s t : State) : Prop where
  frame : CsrFrame s t
  regs : RegsAfter rd s.mie s t
  pc : PcPlusFour s t
  mie : t.mie = match written with
    | some v => v &&& s.params.mieWritable
    | none => s.mie
  pend : t.pend = s.pend
  evaluated : EvaluatedIf written.isSome s t
  draws : t.draws = s.draws

/-- A granted access to `mip`: `rd` gets `mip_read()`, the storage bits the written ones (10_state R30, R32). -/
structure MipAccess (rd : Reg) (written : Option Word) (s t : State) : Prop where
  frame : CsrFrame s t
  regs : RegsAfter rd (mipRead s) s t
  pc : PcPlusFour s t
  mie : t.mie = s.mie
  pend : t.pend = match written with
    | some v => pendAfter v s
    | none => s.pend
  evaluated : EvaluatedIf written.isSome s t
  draws : t.draws = s.draws

/-- The old value of a read-modify-write of `mip`: what a read returns, with bit 9 replaced by `SEIP_B` (10_state R31). -/
def mipOld (s : State) : Word := withBit (mipRead s) 9 s.pend.seipB

/-- What one of the six CSR instructions does to the pair: in M-mode both accesses complete, with what they write; in
every other mode each raises the illegal-instruction exception (40_csr_access R71). -/
def PairMeaning (mk : CsrNum → Instr) (rd : Reg) (toMie toMip : Option Word) (s : State) : Prop :=
  (s.hart.priv = .m →
    (∃ t, exec (mk 0x304) s = .next t ∧ MieAccess rd toMie s t) ∧
      (∃ t, exec (mk 0x344) s = .next t ∧ MipAccess rd toMip s t)) ∧
    (s.hart.priv ≠ .m →
      (∃ t, exec (mk 0x304) s = .next t ∧ IllegalRaised (encode (mk 0x304)) s t) ∧
        (∃ t, exec (mk 0x344) s = .next t ∧ IllegalRaised (encode (mk 0x344)) s t))

/-- The six instruction forms on a CSR number with destination `rd`, whatever their other operand. -/
inductive CsrFormTo (csr : CsrNum) (rd : Reg) : Instr → Prop where
  | csrrw (rs1 : Reg) : CsrFormTo csr rd (.csrrw rd csr rs1)
  | csrrs (rs1 : Reg) : CsrFormTo csr rd (.csrrs rd csr rs1)
  | csrrc (rs1 : Reg) : CsrFormTo csr rd (.csrrc rd csr rs1)
  | csrrwi (uimm : Uimm) : CsrFormTo csr rd (.csrrwi rd csr uimm)
  | csrrsi (uimm : Uimm) : CsrFormTo csr rd (.csrrsi rd csr uimm)
  | csrrci (uimm : Uimm) : CsrFormTo csr rd (.csrrci rd csr uimm)

/-- The six instruction forms on a CSR number, whatever their operands. -/
def CsrForm (csr : CsrNum) (i : Instr) : Prop := ∃ rd, CsrFormTo csr rd i

/-- One row of the SEIP table (40_csr_access R79): bit 9 returned in `rd` is `B || E` (where `rd` is read into), B
after the instruction is `after`, E is as it was. -/
def SeipRow (i : Instr) (rd : Reg) (after : Bool) (s : State) : Prop :=
  ∃ t, exec i s = .next t ∧ (rd ≠ 0 → bit (readReg rd t) 9 = (s.pend.seipB || s.inputs.seipWire)) ∧
    t.pend.seipB = after ∧ t.inputs.seipWire = s.inputs.seipWire

/-- The hart's turn is due, to run the instruction at `pc`, with the given choice; `s0` is the state it starts from. -/
abbrev HartDue (c : EvalChoice) (s s0 : State) : Prop := dueTurn s = (.hart c, s0)

/-- The hart's turn is due, to run an instruction outside this spec that does the given things (assumption log 29). -/
abbrev ForeignDue (c : EvalChoice) (es : List HartEffect) (s s0 : State) : Prop := dueTurn s = (.foreign c es, s0)

/-- A turn of the hart is due, whatever instruction it is to run: an instruction boundary. -/
def BoundaryDue (c : EvalChoice) (s s0 : State) : Prop := HartDue c s s0 ∨ ∃ es, ForeignDue c es s s0

/-- Another agent's step is due, listed or drawn; `s0` is the state it starts from. -/
abbrev EnvDue (e : EnvEvent) (s s0 : State) : Prop := dueTurn s = (.env e, s0)

/-- An instruction outside this spec that writes `b` through a view field, where no interrupt is taken in its place: the storage, `mie` and the inputs
afterwards, all else as before, and the trap conditions evaluated next (60_exceptions R109). -/
def ViewWriteGives (f : ViewField) (b : Bool) (pend : Pending) (mie : Word) (inputs : Inputs) (s : State) : Prop :=
  ∀ c s0, ForeignDue c [.viewWrite f b] s s0 → decideInterrupt c s0 = none →
    ∃ t, step s = .next t ∧ t.pend = pend ∧ t.mie = mie ∧ t.inputs = inputs ∧ t.hart = s.hart ∧
      t.params = s.params ∧ t.code = s.code ∧ t.agenda = s0.agenda ∧ t.draws = s0.draws ∧ t.output = none ∧
      t.evaln = (passBoundary s0).evaln.after (boundaryNow t)

/-- A write through a field the spec calls read-only: ignored. -/
def ViewWriteIgnored (f : ViewField) (s : State) : Prop := ∀ b, ViewWriteGives f b s.pend s.mie s.inputs s

/-- The view registers. -/
def views : List Csr := [.sip, .sie, .mvip, .hip, .hvip, .vsip]

/-- VS-mode: S with the virtualization mode on. -/
def VSMode (s : State) : Prop := s.hart.virt = true ∧ s.hart.priv = .s

/-- The register an access by the number of `c` reaches: in VS-mode, which "sees `vsip`" (60_exceptions R118), the number
of `sip` is that of `vsip` (assumption log 10). -/
def seenAs (c : Csr) (s : State) : Csr := if s.hart.virt = true ∧ s.hart.priv = .s ∧ c = .sip then .vsip else c

/-- The lowest mode that may make the access (30_encoding R62; the ranks of the modes are assumption log 10): 3 for M, 2
for HS, 1 for VS, 0 for U and VU; and VS-mode sees `vsip` (60_exceptions R118). -/
def ModeReaches (c : Csr) (s : State) : Prop :=
  c.lowestPrivilege ≤ (match s.hart.priv with
    | .m => 3
    | .s => if s.hart.virt then 1 else 2
    | .u => 0) ∨ (VSMode s ∧ c = .vsip)

/-- The access to a view register is one the spec gives: the mode is high enough, it is not `sie` from VS-mode, and no
field of the register reached is in a case the spec leaves out (U6, U12). -/
def ViewGranted (c : Csr) (s : State) : Prop :=
  ModeReaches c s ∧ ¬(VSMode s ∧ c = .sie) ∧ ∀ kf ∈ viewFields (seenAs c s), viewGiven kf.2 s = true

/-- The storage behind `mip` after `v` is written to a view register (10_state R36 to R40). -/
def viewPendAfter (c : Csr) (v : Word) (s : State) : Pending :=
  match c with
  | .sip =>
    { s.pend with
      ssip := if bit s.inputs.mideleg 1 then bit v 1 else s.pend.ssip
      lcofip := if bit s.inputs.mideleg 13 then bit v 13 else s.pend.lcofip }
  | .mvip => { s.pend with ssip := bit v 1, stip := bit v 5, seipB := bit v 9 }
  | .hip | .hvip => { s.pend with vssip := bit v 2 }
  | .vsip => { s.pend with vssip := bit v 1, lcofip := bit v 13 }
  | .sie | .mie | .mip => s.pend

/-- Bit `i` of `mie` after `v` is written to a view register (10_state R37). -/
def viewMieBitAfter (c : Csr) (v : Word) (s : State) (i : Nat) : Bool :=
  if c = .sie ∧ (i = 1 ∨ i = 5 ∨ i = 9 ∨ i = 13) ∧ bit s.inputs.mideleg i = true then bit v i else bit s.mie i

/-- The `hvip` inputs after `v` is written to a view register (10_state R39). -/
def viewInputsAfter (c : Csr) (v : Word) (s : State) : Inputs :=
  if c = .hvip then { s.inputs with hvipVSTIP := bit v 6, hvipVSEIP := bit v 10 } else s.inputs

/-- A granted access to a view register by an instruction with destination `rd`: what is read (where the read is not
suppressed), what is written (`write old` for an old value whose given bits are the fields'), and all that is left
alone. The bits the spec does not give are free, and 0 where it says read-only zero; `pc + 4` is taken MXLEN bits wide
(assumption log 9). -/
def ViewAccess (c : Csr) (rd : Reg) (write : Word → Option Word) (s t : State) : Prop :=
  (∀ r : Reg, r ≠ rd ∨ r = 0 → readReg r t = readReg r s) ∧
    (rd ≠ 0 → ∀ kf ∈ viewFields c, bit (readReg rd t) kf.1 = viewRead kf.2 s) ∧
    (rd ≠ 0 → ∀ i, (∀ kf ∈ viewFields c, kf.1 ≠ i) → bit (viewRestMask c s) i = false → bit (readReg rd t) i = false) ∧
    PcAdvanced s t ∧ { t.hart with x := s.hart.x, pc := s.hart.pc } = s.hart ∧ t.params = s.params ∧
    (∀ a, Code.word t.code a = Code.word s.code a) ∧ t.agenda = s.agenda ∧ t.output = s.output ∧
    ∃ old : Word, (∀ kf ∈ viewFields c, bit old kf.1 = viewRead kf.2 s) ∧
      match write old with
      | some v =>
        t.pend = viewPendAfter c v s ∧ (∀ i, bit t.mie i = viewMieBitAfter c v s i) ∧ t.inputs = viewInputsAfter c v s ∧
          t.evaln = s.evaln.after (boundaryNow t)
      | none => t.pend = s.pend ∧ t.mie = s.mie ∧ t.inputs = s.inputs ∧ t.evaln = s.evaln

/-- The turn due, listed or drawn, is the hart's: a boundary before an instruction, one of the eight or another. -/
def hartsTurn (s : State) : Bool :=
  match (dueTurn s).1 with
  | .hart _ => true
  | .foreign _ _ => true
  | .env _ => false

/-- The inputs after a step of another agent that is no reset (00_scope R5): each has an event that sets it. -/
def inputsAfter (e : EnvEvent) (s : State) : Inputs :=
  match e with
  | .meip b => { s.inputs with meipWire := b }
  | .seip b => { s.inputs with seipWire := b }
  | .vseip b => { s.inputs with vseipWire := b }
  | .mtimer b => { s.inputs with mtimerIrq := b }
  | .stimer b => { s.inputs with stimerIrq := b }
  | .vstimer b => { s.inputs with vstimerIrq := b }
  | .hgeip n => { s.inputs with hgeip := n }
  | .platform _ wires => { s.inputs with platformWires := wires &&& s.params.platformBits }
  | .hvipVSTIP b => { s.inputs with hvipVSTIP := b }
  | .hvipVSEIP b => { s.inputs with hvipVSEIP := b }
  | .menvcfgSTCE b => { s.inputs with stce := b }
  | .mideleg w => { s.inputs with mideleg := s.params.fit w }
  | .hideleg w => { s.inputs with hideleg := s.params.fit w }
  | .lcofiRequest | .mstatusMIE _ | .mode _ _ | .code _ _ | .reset => s.inputs

/-- The entry of interrupt `i` from `s` (60_exceptions R105, R113), the output, and the boundary passed. It is the spec's
sketch of an entry (assumption log 23), the vector taken MXLEN bits wide (assumption log 9). -/
def InterruptEntered (i : Nat) (s t : State) : Prop :=
  TrapEntered (s.params.interruptBit ||| BitVec.ofNat 64 i) 0
      (if s.hart.mtvecVectored then s.params.fit (s.hart.mtvecBase + BitVec.ofNat 64 (4 * i)) else s.hart.mtvecBase) s t ∧
    t.output = some i ∧ t.evaln.due = none

/-- If the turn due is the hart's, its boundary decides by the values as they stand (60_exceptions R109): with a
condition that holds, the selected interrupt is taken there, whatever `EVAL_BOUND` and the choice; with none, no interrupt
is, whatever the choice. For a boundary that comes only after other agents' steps see `TrapsFirst` and
`DueEvaluationOutlastsOtherAgents`. -/
def DecidedAtOnce (s : State) : Prop :=
  ∀ c s0, BoundaryDue c s s0 →
    (∀ i, selectMInterrupt s = some i → ∃ t, step s = .next t ∧ InterruptEntered i s t) ∧
      (∀ t, (∀ i, trapCond i s = false) → step s = .next t → t.output = none)

/-- What stands in `s`, right after an xRET or explicit write, traps before any other instruction executes (60_exceptions
R109, 41_trap_return R92): whatever steps of other agents, a reset aside, come first, if some condition holds in `s` an
interrupt is taken at the first turn of the hart, in place of the instruction, with the `pc` that stands in `s`. -/
def TrapsFirst (s : State) : Prop :=
  ∀ (σ : Nat → State) (n : Nat), σ 0 = s →
    (∀ k < n, step (σ k) = .next (σ (k + 1)) ∧ ∃ e s0, EnvDue e (σ k) s0 ∧ e ≠ .reset) →
    (∃ c s0, BoundaryDue c (σ n) s0) → (∃ i, trapCond i s = true) →
    ∃ u j, step (σ n) = .next u ∧ InterruptEntered j (σ n) u ∧ u.hart.mepc = s.hart.pc

/-- An instruction that makes an explicit write to `mie` or `mip`: one of the six forms, its write not suppressed
(40_csr_access R78). -/
inductive ExplicitWrite : Instr → Prop where
  | csrrw (rd rs1 : Reg) (csr : CsrNum) (h : csr = 0x304 ∨ csr = 0x344) : ExplicitWrite (.csrrw rd csr rs1)
  | csrrs (rd rs1 : Reg) (csr : CsrNum) (h : csr = 0x304 ∨ csr = 0x344) (h1 : rs1 ≠ 0) :
      ExplicitWrite (.csrrs rd csr rs1)
  | csrrc (rd rs1 : Reg) (csr : CsrNum) (h : csr = 0x304 ∨ csr = 0x344) (h1 : rs1 ≠ 0) :
      ExplicitWrite (.csrrc rd csr rs1)
  | csrrwi (rd : Reg) (uimm : Uimm) (csr : CsrNum) (h : csr = 0x304 ∨ csr = 0x344) :
      ExplicitWrite (.csrrwi rd csr uimm)
  | csrrsi (rd : Reg) (uimm : Uimm) (csr : CsrNum) (h : csr = 0x304 ∨ csr = 0x344) (h1 : uimm ≠ 0) :
      ExplicitWrite (.csrrsi rd csr uimm)
  | csrrci (rd : Reg) (uimm : Uimm) (csr : CsrNum) (h : csr = 0x304 ∨ csr = 0x344) (h1 : uimm ≠ 0) :
      ExplicitWrite (.csrrci rd csr uimm)

end Sys2Proof.Claims

open Sys2Proof Sys2Proof.Machine Sys2Proof.Claims

/-! ### Encoding -/

/-- 30_encoding R60 to R64: no bit of an encoding is dropped. -/
def Obligations.DecodeOfEncode : Prop := ∀ i : Instr, decode (encode i) = .ok i

/-- 30_encoding R60 to R64: each word that decodes has one meaning, and the encoder gives the word back. -/
def Obligations.EncodeOfDecode : Prop := ∀ (w : InstrWord) (i : Instr), decode w = .ok i → encode i = w

/-- 30_encoding R63, R64: a word is the instruction of a row exactly when `w & mask == match`, for each of the eight
rows, and with the `csr` field of `mie` or `mip` exactly when it matches the full pattern. -/
def Obligations.DecodeFollowsOpcodeMap : Prop :=
  ∀ w : InstrWord,
    ((∃ rd csr rs1, decode w = .ok (.csrrw rd csr rs1)) ↔ w &&& 0x0000707F = 0x00001073) ∧
      ((∃ rd csr rs1, decode w = .ok (.csrrs rd csr rs1)) ↔ w &&& 0x0000707F = 0x00002073) ∧
      ((∃ rd csr rs1, decode w = .ok (.csrrc rd csr rs1)) ↔ w &&& 0x0000707F = 0x00003073) ∧
      ((∃ rd csr uimm, decode w = .ok (.csrrwi rd csr uimm)) ↔ w &&& 0x0000707F = 0x00005073) ∧
      ((∃ rd csr uimm, decode w = .ok (.csrrsi rd csr uimm)) ↔ w &&& 0x0000707F = 0x00006073) ∧
      ((∃ rd csr uimm, decode w = .ok (.csrrci rd csr uimm)) ↔ w &&& 0x0000707F = 0x00007073) ∧
      (decode w = .ok .mret ↔ w = 0x30200073) ∧ (decode w = .ok .sret ↔ w = 0x10200073) ∧
      ((∃ rd rs1, decode w = .ok (.csrrw rd 0x304 rs1)) ↔ w &&& 0xFFF0707F = 0x30401073) ∧
      ((∃ rd rs1, decode w = .ok (.csrrw rd 0x344 rs1)) ↔ w &&& 0xFFF0707F = 0x34401073)

/-- 95_test_vectors section 2.1: the words the spec writes out are the instructions it says. -/
def Obligations.SpecWordsDecode : Prop :=
  decode 0x344322F3 = .ok (.csrrs 5 0x344 6) ∧ decode 0x344312F3 = .ok (.csrrw 5 0x344 6) ∧
    decode 0x344332F3 = .ok (.csrrc 5 0x344 6) ∧ decode 0x344152F3 = .ok (.csrrwi 5 0x344 2) ∧
    decode 0x344562F3 = .ok (.csrrsi 5 0x344 10) ∧ decode 0x344172F3 = .ok (.csrrci 5 0x344 2) ∧
    decode 0x304FD2F3 = .ok (.csrrwi 5 0x304 31) ∧ decode 0x30200073 = .ok .mret ∧ decode 0x10200073 = .ok .sret ∧
    decode 0x34404073 = .error .funct3IsNoCsrForm

/-- 30_encoding R65 (a), (c): where the hart's turn runs an instruction, a word that matches no row of the opcode table
is refused, "it does not treat it as a no-op". -/
def Obligations.UnmatchedWordIsRefused : Prop :=
  ∀ (s s0 : State) (c : EvalChoice) (w : InstrWord), HartDue c s s0 → decideInterrupt c s0 = none →
    fetch s = some w → (∀ r ∈ opcodeTable, r.accepts w = false) → ∃ e, step s = .refused (.undecodable e)

/-- 30_encoding R65 (b): a CSR instruction whose `csr` field names neither `mie`, `mip` nor one of the alias registers is
outside the model, in every mode and for every operand. -/
def Obligations.ForeignCsrIsRefused : Prop :=
  ∀ (n : CsrNum) (i : Instr) (s : State), n ∉ [0x304, 0x344, 0x144, 0x104, 0x309, 0x644, 0x645, 0x244] →
    CsrForm n i → exec i s = .refused (.csrOutsideHardware n)

/-! ### The six CSR instructions on `mie` and `mip` -/

/-- 40_csr_access R72. -/
def Obligations.CsrrwReplacesPair : Prop :=
  ∀ (rd rs1 : Reg) (s : State),
    PairMeaning (fun c => .csrrw rd c rs1) rd (some (readReg rs1 s)) (some (readReg rs1 s)) s

/-- 40_csr_access R73; `rs1` = `x0` suppresses the write (R78). -/
def Obligations.CsrrsSetsBitsOfPair : Prop :=
  ∀ (rd rs1 : Reg) (s : State),
    PairMeaning (fun c => .csrrs rd c rs1) rd (if rs1 = 0 then none else some (s.mie ||| readReg rs1 s))
      (if rs1 = 0 then none else some (mipOld s ||| readReg rs1 s)) s

/-- 40_csr_access R74; `rs1` = `x0` suppresses the write (R78). -/
def Obligations.CsrrcClearsBitsOfPair : Prop :=
  ∀ (rd rs1 : Reg) (s : State),
    PairMeaning (fun c => .csrrc rd c rs1) rd (if rs1 = 0 then none else some (s.mie &&& ~~~readReg rs1 s))
      (if rs1 = 0 then none else some (mipOld s &&& ~~~readReg rs1 s)) s

/-- 40_csr_access R75: the operand is `zext_MXLEN(uimm)`; `uimm` = 0 still writes. -/
def Obligations.CsrrwiReplacesPair : Prop :=
  ∀ (rd : Reg) (uimm : Uimm) (s : State),
    PairMeaning (fun c => .csrrwi rd c uimm) rd (some (uimm.setWidth 64)) (some (uimm.setWidth 64)) s

/-- 40_csr_access R76; `uimm` = 0 suppresses the write (R78). -/
def Obligations.CsrrsiSetsBitsOfPair : Prop :=
  ∀ (rd : Reg) (uimm : Uimm) (s : State),
    PairMeaning (fun c => .csrrsi rd c uimm) rd (if uimm = 0 then none else some (s.mie ||| uimm.setWidth 64))
      (if uimm = 0 then none else some (mipOld s ||| uimm.setWidth 64)) s

/-- 40_csr_access R77; `uimm` = 0 suppresses the write (R78). -/
def Obligations.CsrrciClearsBitsOfPair : Prop :=
  ∀ (rd : Reg) (uimm : Uimm) (s : State),
    PairMeaning (fun c => .csrrci rd c uimm) rd (if uimm = 0 then none else some (s.mie &&& ~~~uimm.setWidth 64))
      (if uimm = 0 then none else some (mipOld s &&& ~~~uimm.setWidth 64)) s

/-- The model's own part of the six meanings on `mie` and `mip`: in M-mode `pc + 4` is taken MXLEN bits wide (assumption
log 9), and from a lower mode the exception enters M-mode as 60_exceptions R113 sketches it, at `mtvec.BASE` (assumption
log 11). -/
def Obligations.PairPcAndIllegalEntry : Prop :=
  ∀ (n : CsrNum) (i : Instr) (s : State), n = 0x304 ∨ n = 0x344 → CsrForm n i →
    (s.hart.priv = .m → ∃ t, exec i s = .next t ∧ PcAdvanced s t ∧ CsrFrame s t) ∧
      (s.hart.priv ≠ .m → ∃ t, exec i s = .next t ∧ IllegalEntered (encode i) s t)

/-- 40_csr_access R79: the SEIP table, row by row. -/
def Obligations.SeipTable : Prop :=
  ∀ (rd rs1 : Reg) (uimm : Uimm) (s : State), s.hart.priv = .m →
    SeipRow (.csrrw rd 0x344 rs1) rd (bit (readReg rs1 s) 9) s ∧ SeipRow (.csrrwi rd 0x344 uimm) rd false s ∧
      (rs1 ≠ 0 → SeipRow (.csrrs rd 0x344 rs1) rd (s.pend.seipB || bit (readReg rs1 s) 9) s) ∧
      SeipRow (.csrrs rd 0x344 0) rd s.pend.seipB s ∧
      (rs1 ≠ 0 → SeipRow (.csrrc rd 0x344 rs1) rd (s.pend.seipB && !bit (readReg rs1 s) 9) s) ∧
      SeipRow (.csrrc rd 0x344 0) rd s.pend.seipB s ∧ SeipRow (.csrrsi rd 0x344 uimm) rd s.pend.seipB s ∧
      SeipRow (.csrrci rd 0x344 uimm) rd s.pend.seipB s

/-- 40_csr_access R79, whole state: the controller's wire E reaches nothing but bit 9 of `rd`, and, interrupt 9 being one
whose condition E enters (60_exceptions R106), what the evaluation logic notes of that interrupt after an explicit write.
Two runs of one instruction that differ in E alone end in states that are equal but for E, the general registers and that
note; of the registers, every one but `rd` is equal, and `rd` in every bit but bit 9; the notes differ in bit 9 only. -/
def Obligations.WireReachesOnlyBitNineOfRd : Prop :=
  ∀ (i : Instr) (rd : Reg) (s t : State) (e : Bool), CsrFormTo 0x344 rd i → exec i s = .next t →
    ∃ t', exec i { s with inputs := { s.inputs with seipWire := e } } = .next t' ∧
      { t' with
        inputs := { t'.inputs with seipWire := t.inputs.seipWire }
        hart := { t'.hart with x := t.hart.x }
        evaln := { t'.evaln with due := t.evaln.due } } = t ∧
      (t.evaln.due = none → t'.evaln.due = none) ∧
      (∀ b, t.evaln.due = some b → ∃ b', t'.evaln.due = some b' ∧
        ∀ k, k ≠ 9 → bit b'.held k = bit b.held k ∧ bit b'.driven k = bit b.driven k) ∧
      t'.inputs.seipWire = e ∧ (∀ r : Reg, r ≠ rd → readReg r t' = readReg r t) ∧
      ∀ k, k ≠ 9 → bit (readReg rd t') k = bit (readReg rd t) k

/-- 70_reset R138: a read of `mip`, then a write of what was read, copies the controller's 1 into `SEIP_B`. -/
def Obligations.SplitReadWriteCopiesWire : Prop :=
  ∀ (rd : Reg) (s : State), s.hart.priv = .m → rd ≠ 0 →
    ∃ t u, exec (.csrrs rd 0x344 0) s = .next t ∧ exec (.csrrw 0 0x344 rd) t = .next u ∧
      u.pend.seipB = (s.pend.seipB || s.inputs.seipWire)

/-! ### `mip` and `mie` as registers -/

/-- 10_state R30: the value a read of `mip` returns, bit by bit, and that a read changes no state (the access that only
reads). -/
def Obligations.MipReadComposition : Prop :=
  (∀ s : State,
    bit (mipRead s) 1 = s.pend.ssip ∧ bit (mipRead s) 2 = s.pend.vssip ∧ bit (mipRead s) 3 = false ∧
      bit (mipRead s) 5 = (if s.inputs.stce then s.inputs.stimerIrq else s.pend.stip) ∧
      bit (mipRead s) 6 = (s.inputs.hvipVSTIP || (s.inputs.stce && s.inputs.vstimerIrq)) ∧
      bit (mipRead s) 7 = s.inputs.mtimerIrq ∧ bit (mipRead s) 9 = (s.pend.seipB || s.inputs.seipWire) ∧
      bit (mipRead s) 10 = (s.inputs.hvipVSEIP || s.inputs.vseipWire) ∧ bit (mipRead s) 11 = s.inputs.meipWire ∧
      bit (mipRead s) 12 = decide (s.inputs.hgeip ≠ 0) ∧ bit (mipRead s) 13 = s.pend.lcofip ∧
      (∀ i, i = 0 ∨ i = 4 ∨ i = 8 ∨ i = 14 ∨ i = 15 → bit (mipRead s) i = false) ∧
      ∀ i, 16 ≤ i → bit s.params.platformBits i = false → bit (mipRead s) i = false) ∧
    ∀ (rd : Reg) (s : State), s.hart.priv = .m →
      ∃ t, exec (.csrrs rd 0x344 0) s = .next t ∧ RegsAfter rd (mipRead s) s t ∧ t.pend = s.pend ∧ t.mie = s.mie ∧
        t.inputs = s.inputs ∧ t.evaln = s.evaln

/-- 10_state R31: the old value of a read-modify-write is the read value but for bit 9, and the difference is never seen
in `rd` nor at a read-only bit. -/
def Obligations.MipRmwLeavesTheWireOut : Prop :=
  ∀ s : State, bit (mipRmw s) 9 = s.pend.seipB ∧ (∀ i, i ≠ 9 → bit (mipRmw s) i = bit (mipRead s) i) ∧
    (∀ (rd rs1 : Reg) (uimm : Uimm), s.hart.priv = .m → rd ≠ 0 →
      ∀ i ∈ [Instr.csrrs rd 0x344 rs1, .csrrc rd 0x344 rs1, .csrrsi rd 0x344 uimm, .csrrci rd 0x344 uimm],
        ∃ t, exec i s = .next t ∧ readReg rd t = mipRead s) ∧
    ∀ v, v &&& s.params.mipWritable s.inputs.stce = mipRmw s &&& s.params.mipWritable s.inputs.stce →
      mipWrite v s = mipWrite (mipRmw s) s

/-- 10_state R32: the writable mask. Two values that agree on `MIP_WMASK` (with the platform's stored bits) make the
same state; the storage takes its bits; nothing but the storage changes; the conditions are evaluated at once. -/
def Obligations.MipWriteFollowsMask : Prop :=
  (∀ (v v' : Word) (s : State),
    v &&& s.params.mipWritable s.inputs.stce = v' &&& s.params.mipWritable s.inputs.stce → mipWrite v s = mipWrite v' s) ∧
    (∀ (v : Word) (s : State),
      mipWrite v s = { s with pend := pendAfter v s, evaln := s.evaln.after (boundaryNow (mipWrite v s)) }) ∧
    ∀ (p : Params) (stce : Bool) (i : Nat), i < 16 →
      bit (p.mipWritable stce) i = decide (i = 1 ∨ i = 2 ∨ i = 9 ∨ i = 13 ∨ (i = 5 ∧ stce = false))

/-- 10_state R29: after a write each writable bit of `mip` reads what was written (bit 9 or'ed with the wire), so that
writing 0 clears a pending interrupt, and every other bit reads as before. -/
def Obligations.MipReadsBackWhatWasWritten : Prop :=
  ∀ (v : Word) (s : State) (i : Nat), i < 64 →
    bit (mipRead (mipWrite v s)) i =
      if i = 9 then (bit v 9 || s.inputs.seipWire)
      else if bit (s.params.mipWritable s.inputs.stce) i then bit v i else bit (mipRead s) i

/-- 70_reset R137, for `mie`: an explicit write takes effect for the read that is the next instruction; no bit outside
`MIE_WMASK` is ever read back (10_state R16, R17). -/
def Obligations.MieWriteIsSeenByNextRead : Prop :=
  ∀ (rd rs1 : Reg) (s : State), s.hart.priv = .m → rd ≠ 0 →
    ∃ t u, exec (.csrrw 0 0x304 rs1) s = .next t ∧ exec (.csrrs rd 0x304 0) t = .next u ∧
      readReg rd u = readReg rs1 s &&& s.params.mieWritable ∧ u.mie = readReg rs1 s &&& s.params.mieWritable

/-- 10_state R15: `MIE_WMASK`; every interrupt that can become pending has a writable enable bit; a bit that is not
writable is read-only zero, one that is keeps what is written; no other agent changes `mie` (reset aside). -/
def Obligations.MieWritableBits : Prop :=
  (∀ (p : Params) (i : Nat), i < 64 →
    bit p.mieWritable i =
      if i < 16 then
        decide (i = 1 ∨ i = 2 ∨ i = 5 ∨ i = 6 ∨ i = 7 ∨ i = 9 ∨ i = 10 ∨ i = 11 ∨ i = 12 ∨ i = 13 ∨
          (i = 3 ∧ p.msieWritable = true))
      else bit p.platformBits i) ∧
    (∀ (s : State) (i : Nat), bit (mipRead s) i = true → bit s.params.mieWritable i = true) ∧
    (∀ (s : State) (v : Word) (i : Nat),
      bit (mieRead (mieWrite v s)) i = (bit s.params.mieWritable i && bit v i)) ∧
    ∀ (s : State) (e : EnvEvent), e ≠ .reset → (applyEvent e s).mie = s.mie

/-- 10_state R20: MSIP is hardwired 0, a write of it is ignored, and interrupt 3 can never be taken: its condition never
holds, it is never selected, and from a state that meets the invariant (in which no remembered boundary has it driven) no
step takes it, a stale one included. -/
def Obligations.MsipIsHardwiredZero : Prop :=
  (∀ s : State, bit (mipRead s) 3 = false) ∧
    (∀ (v : Word) (b : Bool) (s : State), mipWrite (withBit v 3 b) s = mipWrite v s) ∧
    (∀ s : State, trapCond 3 s = false ∧ selectMInterrupt s ≠ some 3) ∧
    ∀ s t : State, s.Inv → step s = .next t → t.output ≠ some 3

/-! ### Hardware updates and views -/

/-- 10_state R28, R33 and 00_scope R5: what a step of another agent does to the owned storage and the inputs: a
counter-overflow request sets the sticky bit, clearing STCE draws `STIP_b`, the platform sets its own bits, and nothing
else moves any of the storage; each input is changed by its own event and no other, and `priv` and `mstatus_MIE`, the inputs
that stand in the hart, are all that any changes there; and no such step calls the evaluation logic (assumption log 27). -/
def Obligations.HardwareUpdatesAndInputChanges : Prop :=
  ∀ (s s0 : State) (e : EnvEvent), EnvDue e s s0 → e ≠ .reset →
    ∃ t, step s = .next t ∧ t.mie = s.mie ∧ t.pend.ssip = s.pend.ssip ∧ t.pend.vssip = s.pend.vssip ∧
      t.pend.seipB = s.pend.seipB ∧ t.pend.lcofip = (s.pend.lcofip || decide (e = .lcofiRequest)) ∧
      t.pend.stip = (if s.inputs.stce = true ∧ e = .menvcfgSTCE false
        then Config.stipDraw s0.draws else s.pend.stip) ∧
      ((∀ stored wires, e ≠ .platform stored wires) → t.pend.platform = s.pend.platform) ∧
      t.inputs = inputsAfter e s ∧ t.evaln = s.evaln ∧ t.agenda = s0.agenda ∧
      t.params = s.params ∧ t.output = none ∧
      t.hart =
        (match e with
          | .mstatusMIE b => { s.hart with mstatus := { s.hart.mstatus with mie := b } }
          | .mode p v => { s.hart with priv := p, virt := v }
          | _ => s.hart)

/-- 10_state R36; every bit of `sip` is the bit of `mip` or 0, and 0 where `mideleg` is clear. Which of the two a
delegated bit outside the four fields reads is free (assumption log 12). -/
def Obligations.SipIsRestrictedView : Prop :=
  ∀ s : State,
    (viewRead .sipSSIP s = (bit s.inputs.mideleg 1 && bit (mipRead s) 1) ∧
      viewRead .sipSTIP s = (bit s.inputs.mideleg 5 && bit (mipRead s) 5) ∧
      viewRead .sipSEIP s = (bit s.inputs.mideleg 9 && bit (mipRead s) 9) ∧
      viewRead .sipLCOFIP s = (bit s.inputs.mideleg 13 && bit (mipRead s) 13)) ∧
      (∀ b, ViewWriteGives .sipSSIP b
        { s.pend with ssip := if bit s.inputs.mideleg 1 then b else s.pend.ssip } s.mie s.inputs s) ∧
      (∀ b, ViewWriteGives .sipLCOFIP b
        { s.pend with lcofip := if bit s.inputs.mideleg 13 then b else s.pend.lcofip } s.mie s.inputs s) ∧
      ViewWriteIgnored .sipSTIP s ∧ ViewWriteIgnored .sipSEIP s ∧
      ∀ k, bit (viewRegRead .sip s) k = true → bit s.inputs.mideleg k = true ∧ bit (mipRead s) k = true

/-- 10_state R37; every bit of `sie` is the bit of `mie` or 0, and 0 where `mideleg` is clear. Which of the two a
delegated bit outside the four fields reads is free (assumption log 12). -/
def Obligations.SieIsRestrictedView : Prop :=
  (∀ (s : State) (f : ViewField) (i : Nat),
    (f, i) ∈ [(ViewField.sieSSIE, 1), (.sieSTIE, 5), (.sieSEIE, 9), (.sieLCOFIE, 13)] →
    viewRead f s = (bit s.inputs.mideleg i && bit (mieRead s) i) ∧
      ∀ b, ViewWriteGives f b s.pend (if bit s.inputs.mideleg i then withBit s.mie i b else s.mie) s.inputs s) ∧
    ∀ (s : State) (k : Nat), bit (viewRegRead .sie s) k = true → bit s.inputs.mideleg k = true ∧ bit (mieRead s) k = true

/-- 10_state R38; `mvip.STIP` only "when menvcfg.STCE is clear", and refused while it is set (U6). -/
def Obligations.MvipAliasesStorage : Prop :=
  ∀ s : State, viewRead .mvipSSIP s = s.pend.ssip ∧ viewRead .mvipSEIP s = s.pend.seipB ∧
    (∀ b, ViewWriteGives .mvipSSIP b { s.pend with ssip := b } s.mie s.inputs s) ∧
    (∀ b, ViewWriteGives .mvipSEIP b { s.pend with seipB := b } s.mie s.inputs s) ∧
    (s.inputs.stce = false → viewRead .mvipSTIP s = s.pend.stip ∧
      ∀ b, ViewWriteGives .mvipSTIP b { s.pend with stip := b } s.mie s.inputs s) ∧
    (s.inputs.stce = true → ∀ b c s0, ForeignDue c [.viewWrite .mvipSTIP b] s s0 → decideInterrupt c s0 = none →
      step s = .refused (.viewFieldNotGiven .mvipSTIP))

/-- 10_state R39. That the `hip` fields ignore writes is the model's reading (assumption log 15). -/
def Obligations.HipAndHvipAliases : Prop :=
  ∀ s : State,
    viewRead .hipVSSIP s = s.pend.vssip ∧ viewRead .hvipVSSIP s = s.pend.vssip ∧
      viewRead .hipVSTIP s = bit (mipRead s) 6 ∧ viewRead .hipVSEIP s = bit (mipRead s) 10 ∧
      viewRead .hipSGEIP s = bit (mipRead s) 12 ∧ viewRead .hvipVSTIP s = s.inputs.hvipVSTIP ∧
      viewRead .hvipVSEIP s = s.inputs.hvipVSEIP ∧
      (s.inputs.stce = false → viewRead .hvipVSTIP s = bit (mipRead s) 6) ∧
      (∀ b, ViewWriteGives .hipVSSIP b { s.pend with vssip := b } s.mie s.inputs s) ∧
      (∀ b, ViewWriteGives .hvipVSSIP b { s.pend with vssip := b } s.mie s.inputs s) ∧
      (∀ b, ViewWriteGives .hvipVSTIP b s.pend s.mie { s.inputs with hvipVSTIP := b } s) ∧
      (∀ b, ViewWriteGives .hvipVSEIP b s.pend s.mie { s.inputs with hvipVSEIP := b } s) ∧
      ViewWriteIgnored .hipVSTIP s ∧ ViewWriteIgnored .hipVSEIP s ∧ ViewWriteIgnored .hipSGEIP s ∧
      ∀ v, (mipWrite v s).inputs = s.inputs

/-- 10_state R40; a field whose `hideleg` bit is clear is refused (U12). Which fields are writable is the model's reading
(assumption log 15). -/
def Obligations.VsipAliases : Prop :=
  ∀ s : State,
    (bit s.inputs.hideleg 2 = true → viewRead .vsipSSIP s = s.pend.vssip ∧
      ∀ b, ViewWriteGives .vsipSSIP b { s.pend with vssip := b } s.mie s.inputs s) ∧
      (bit s.inputs.hideleg 6 = true → viewRead .vsipSTIP s = bit (mipRead s) 6 ∧ ViewWriteIgnored .vsipSTIP s) ∧
      (bit s.inputs.hideleg 10 = true → viewRead .vsipSEIP s = bit (mipRead s) 10 ∧ ViewWriteIgnored .vsipSEIP s) ∧
      (bit s.inputs.hideleg 13 = true → viewRead .vsipLCOFIP s = s.pend.lcofip ∧
        ∀ b, ViewWriteGives .vsipLCOFIP b { s.pend with lcofip := b } s.mie s.inputs s) ∧
      ∀ (f : ViewField) (i : Nat) (b : Bool) (c : EvalChoice) (s0 : State),
        (f, i) ∈ [(ViewField.vsipSSIP, 2), (.vsipSTIP, 6), (.vsipSEIP, 10), (.vsipLCOFIP, 13)] →
        bit s.inputs.hideleg i = false → ForeignDue c [.viewWrite f b] s s0 → decideInterrupt c s0 = none →
        step s = .refused (.viewFieldNotGiven f)

/-- 10_state R36 to R40 through the CSR instructions, which 30_encoding R65 (b) lets a model route: each of the six forms
completes on each alias register wherever the spec gives the access, the set, clear and suppress meaning being that of
40_csr_access section 3; in VS-mode, which "sees `vsip`" (60_exceptions R118), the number of `sip` reaches `vsip`. The
register numbers, the privilege they ask and that number are the model's (assumption log 10), as are the free bits
(assumption log 12), where `vsip` holds its fields (assumption log 15) and `pc + 4` cut to MXLEN bits (assumption log 9). -/
def Obligations.CsrFormsOnViewRegisters : Prop :=
  ∀ (c : Csr) (rd rs1 : Reg) (uimm : Uimm) (s : State), c ∈ views → ViewGranted c s →
    (∃ t, exec (.csrrw rd c.number rs1) s = .next t ∧ ViewAccess (seenAs c s) rd (fun _ => some (readReg rs1 s)) s t) ∧
      (∃ t, exec (.csrrs rd c.number rs1) s = .next t ∧
        ViewAccess (seenAs c s) rd (fun old => if rs1 = 0 then none else some (old ||| readReg rs1 s)) s t) ∧
      (∃ t, exec (.csrrc rd c.number rs1) s = .next t ∧
        ViewAccess (seenAs c s) rd (fun old => if rs1 = 0 then none else some (old &&& ~~~readReg rs1 s)) s t) ∧
      (∃ t, exec (.csrrwi rd c.number uimm) s = .next t ∧ ViewAccess (seenAs c s) rd (fun _ => some (uimm.setWidth 64)) s t) ∧
      (∃ t, exec (.csrrsi rd c.number uimm) s = .next t ∧
        ViewAccess (seenAs c s) rd (fun old => if uimm = 0 then none else some (old ||| uimm.setWidth 64)) s t) ∧
      ∃ t, exec (.csrrci rd c.number uimm) s = .next t ∧
        ViewAccess (seenAs c s) rd (fun old => if uimm = 0 then none else some (old &&& ~~~uimm.setWidth 64)) s t

/-- Where an access to an alias register does not complete: a mode too low takes the illegal-instruction exception
(30_encoding R62, assumption log 10), which enters M-mode at `mtvec.BASE` (assumption log 11); `sie` from VS-mode, and a
register one of whose fields is in a case the spec leaves out (U6, U12), is refused by name as a whole (assumption
log 24). -/
def Obligations.ViewRegisterStops : Prop :=
  ∀ (c : Csr) (i : Instr) (s : State), c ∈ views → CsrForm c.number i →
    (¬ModeReaches c s → ∃ t, exec i s = .next t ∧ IllegalEntered (encode i) s t) ∧
      (VSMode s → c = .sie → exec i s = .refused (.viewFromVirtualMode .sie)) ∧
      (ModeReaches c s → ¬(VSMode s ∧ c = .sie) → (∃ kf ∈ viewFields (seenAs c s), viewGiven kf.2 s = false) →
        ∃ f, exec i s = .refused (.viewFieldNotGiven f) ∧ viewGiven f s = false)

/-! ### The trap condition, its evaluation, priority -/

/-- 60_exceptions R106: `cond(i)` is (a), (b) and (c). -/
def Obligations.TrapCondition : Prop :=
  ∀ (i : Nat) (s : State), trapCond i s = true ↔
    ((s.hart.priv = .m ∧ s.hart.mstatus.mie = true) ∨ s.hart.priv ≠ .m) ∧
      (bit (mipRead s) i = true ∧ bit (mieRead s) i = true) ∧ bit s.inputs.mideleg i = false

/-- 60_exceptions R108, `EVAL_BOUND` = 0: "an interrupt is taken at a boundary exactly when cond(i) holds there for some
i", and it is the one the priority order selects (R110), with the sketched entry (assumption log 23, 9). At the boundary
after an xRET or explicit write what held right after the instruction counts as well (R109), which makes a difference only
where another agent has stepped in between (assumption log 25). -/
def Obligations.ZeroBoundTakesExactlyWhenCond : Prop :=
  ∀ (s s0 : State) (c : EvalChoice), BoundaryDue c s s0 → s.params.evalBound = 0 →
    ((∃ i, trapCond i s = true) → ∃ t i, step s = .next t ∧ InterruptEntered i s t ∧
      (selectMInterrupt s = some i ∨ ∃ b, s.evaln.due = some b ∧ bit b.held i = true)) ∧
      ∀ t, (∀ i, trapCond i s = false) → (∀ b, s.evaln.due = some b → b.held = 0) → step s = .next t → t.output = none

/-- 60_exceptions R108, MUST: in a run in which `cond(i)` holds at every boundary, and which passes more than
`EVAL_BOUND` boundaries, an interrupt is taken at one of them, whatever steps of other agents (a reset aside) lie between
the boundaries. The entry is R113's sketch (assumption log 23, 9). -/
def Obligations.InterruptTakenWithinBound : Prop :=
  ∀ (σ : Nat → State) (n i : Nat),
    (∀ k < n, step (σ k) = .next (σ (k + 1)) ∧ (hartsTurn (σ k) = true → trapCond i (σ k) = true) ∧
      ∀ s0, ¬EnvDue .reset (σ k) s0) →
    (σ 0).params.evalBound < (List.range n).countP (fun k => hartsTurn (σ k)) →
    ∃ k < n, ∃ j, (σ (k + 1)).output = some j ∧ InterruptEntered j (σ k) (σ (k + 1))

/-- 60_exceptions R108, R109, the MUST and the two MAY cases: where an interrupt must be taken, and that the hart's turn
takes the selected one there, or, after an xRET or explicit write, one whose condition held then, whatever the choice; and,
where none must, that the run that defers, the run that takes the present interrupt and the run that takes a stale one are
all admitted. That `EVAL_BOUND` boundaries must be remembered before the history forces
an interrupt, so that a history cut short by reset forces none, is the model's choice, R108 being silent on it (assumption
log 26). That the rest of a stale interrupt's condition still holds is the model's reading (assumption log 5); that it may
be taken although another condition holds, and whichever of several it is (log 28), what an evaluation that is due after
an xRET or explicit write makes of other agents' steps before its boundary (log 25), and, with platform bits, which of them
count as driven by an input (log 30), are its choices; the entry is R113's sketch (assumption log 23, 9). -/
def Obligations.MustAndMayCases : Prop :=
  ∀ s : State,
    (mustTake s = true ↔
      (∃ b, s.evaln.due = some b ∧ ∃ i ∈ s.params.order, bit b.held i = true) ∨
        (s.params.evalBound ≤ s.evaln.recent.length ∧
          ∃ i, trapCond i s = true ∧ ∀ b ∈ s.evaln.recent.take s.params.evalBound, bit b.held i = true)) ∧
      (mustTake s = true → ∀ c s0, BoundaryDue c s s0 →
        ∃ t j, step s = .next t ∧ InterruptEntered j s t ∧
          (selectMInterrupt s = some j ∨ ∃ b, s.evaln.due = some b ∧ bit b.held j = true)) ∧
      (mustTake s = false →
        (∀ s0 t, BoundaryDue .defer s s0 → step s = .next t → t.output = none) ∧
          (∀ s0 i, BoundaryDue .present s s0 → trapCond i s = true →
            ∃ t j, step s = .next t ∧ selectMInterrupt s = some j ∧ InterruptEntered j s t) ∧
          ∀ s0 i, BoundaryDue (.stale i) s s0 → mGlobal s = true → bit s.mie i = true → bit s.inputs.mideleg i = false →
            bit (mipRead s) i = false →
            (∃ b ∈ s.evaln.recent.take s.params.evalBound, bit b.driven i = true) →
            ∃ t, step s = .next t ∧ InterruptEntered i s t)

/-- 60_exceptions R108, R109, R106, R117, whole machine: an interrupt is taken only at a boundary of the hart, with M-mode
interrupts on, the interrupt enabled and not delegated, and pending now or, within the bound, driven before (the stale
case as assumption log 5 reads it, which platform bits an input drives being log 30); or where its condition held right
after the xRET or explicit write whose boundary it is (R109, 41_trap_return R92, assumption log 25); and from a state that
meets the invariant never with its enable bit clear. The entry is R113's sketch (assumption log 23, 9). -/
def Obligations.OnlyDueInterruptsAreTaken : Prop :=
  ∀ (s t : State) (i : Nat), step s = .next t → t.output = some i →
    (∃ c s0, BoundaryDue c s s0) ∧ InterruptEntered i s t ∧
      ((mGlobal s = true ∧ bit s.mie i = true ∧ bit s.inputs.mideleg i = false ∧
          (bit (mipRead s) i = true ∨ ∃ b ∈ s.evaln.recent.take s.params.evalBound, bit b.driven i = true)) ∨
        ∃ b, s.evaln.due = some b ∧ bit b.held i = true) ∧
      (s.Inv → bit s.mie i = true)

/-- 60_exceptions R110, R111 without platform interrupts: the order MEI MSI MTI SEI SSI STI SGEI VSEI VSSI VSTI LCOFI. The
places of SGEI, VSEI, VSSI, VSTI are the spec's decision D8. -/
def Obligations.FixedPriorityOrder : Prop :=
  ∀ s : State, s.params.platformBits = 0 →
    selectMInterrupt s =
      if mGlobal s = false then none
      else if bit (mCand s) 11 then some 11 else if bit (mCand s) 3 then some 3 else if bit (mCand s) 7 then some 7
      else if bit (mCand s) 9 then some 9 else if bit (mCand s) 1 then some 1 else if bit (mCand s) 5 then some 5
      else if bit (mCand s) 12 then some 12 else if bit (mCand s) 10 then some 10 else if bit (mCand s) 2 then some 2
      else if bit (mCand s) 6 then some 6 else if bit (mCand s) 13 then some 13 else none

/-- 60_exceptions R110: exactly one interrupt is selected, one whose condition holds, whenever any condition holds; no
interrupt whose condition holds stands before it in the order. Where platform interrupts stand among themselves is a
parameter (assumption log 13). -/
def Obligations.SelectionIsFirstInOrder : Prop :=
  ∀ s : State, ((∃ i, trapCond i s = true) ↔ ∃ i, selectMInterrupt s = some i) ∧
    ∀ i, selectMInterrupt s = some i → trapCond i s = true ∧
      ∃ before after, s.params.order = before ++ i :: after ∧ ∀ j ∈ before, trapCond j s = false

/-- 60_exceptions R113, R105: the entry of the interrupt a boundary decides, by the spec's sketch (assumption log 23); the
vector is taken MXLEN bits wide (assumption log 9). -/
def Obligations.InterruptEntry : Prop :=
  ∀ (s s0 : State) (c : EvalChoice) (i : Nat), BoundaryDue c s s0 → decideInterrupt c s0 = some i →
    ∃ t, step s = .next t ∧ InterruptEntered i s t

/-- 60_exceptions R114: taking an interrupt clears nothing in `mip` or `mie`. -/
def Obligations.TakingClearsNothing : Prop :=
  ∀ (s t : State) (i : Nat), step s = .next t → t.output = some i →
    t.mie = s.mie ∧ t.pend = s.pend ∧ t.inputs = s.inputs ∧ mipRead t = mipRead s

/-- 60_exceptions R113, R115: after an entry no M-mode interrupt is taken at the boundary that follows, whatever the
choice there, while what the step left stands. That no stale one is either is the model's reading (assumption log 5,
DEDUCED and unsafe); that the entry clears `mstatus.MIE` is R113's sketch (assumption log 23). -/
def Obligations.NoNestingAfterEntry : Prop :=
  ∀ (s t u : State) (i : Nat), step s = .next t → t.output = some i → (∃ c t0, BoundaryDue c t t0) → step t = .next u →
    u.output = none

/-- 40_csr_access R81, 60_exceptions R109: after any of the six instructions has written `mie` or `mip`, the conditions
are evaluated with the new values at the very next boundary, and a condition that holds traps before any other instruction,
other agents' steps or not; the `pc` an interrupt records there is that of the instruction after the CSR instruction. The
entry is R113's sketch (assumption log 23, 9). -/
def Obligations.ExplicitWriteIsEvaluatedAtOnce : Prop :=
  ∀ (i : Instr) (s t : State), ExplicitWrite i → s.hart.priv = .m → exec i s = .next t →
    DecidedAtOnce t ∧ TrapsFirst t ∧ PcPlusFour s t

/-- 60_exceptions R109 for writes made elsewhere: an instruction outside this spec that writes `mstatus`, `mideleg`,
`menvcfg` or an alias, or is another xRET; the entry is R113's sketch (assumption log 23, 9). -/
def Obligations.OtherExplicitWritesAreEvaluatedAtOnce : Prop :=
  ∀ (es : List HartEffect) (s t : State),
    ((∃ m, .mstatus m true ∈ es) ∨ (∃ w, .mideleg w ∈ es) ∨ (∃ b, .menvcfgSTCE b ∈ es) ∨
      (∃ p v, .mode p v true ∈ es) ∨ ∃ f b, .viewWrite f b ∈ es) →
    runForeign es s = .next t → DecidedAtOnce t ∧ TrapsFirst t

/-- 20_memory R56, 60_exceptions R109, where another agent steps between an xRET or explicit write and the boundary that
follows: what the instruction left stays noted across the step; a condition that held then forces an interrupt there; one
risen since forces none by R109, its change being "ordered only by the bounded amount of time" of R108, unless it has held
at each of the last `EVAL_BOUND` boundaries (that many lying behind, assumption log 26); and the run that takes the first in
the order of those that held then is admitted, as is the one that takes the first of those that hold now. How the rules meet
here is the model's reading (assumption log 25); the entry is R113's sketch (assumption log 23, 9). -/
def Obligations.DueEvaluationOutlastsOtherAgents : Prop :=
  (∀ (s s0 t : State) (e : EnvEvent), EnvDue e s s0 → e ≠ .reset → step s = .next t → t.evaln = s.evaln) ∧
    ∀ (s s0 : State) (c : EvalChoice) (b : Boundary), BoundaryDue c s s0 → s.evaln.due = some b →
      ((∃ i ∈ s.params.order, bit b.held i = true) → ∃ t j, step s = .next t ∧ InterruptEntered j s t) ∧
        (c = .defer → b.held = 0 →
          (∀ i, trapCond i s = true → s.evaln.recent.length < s.params.evalBound ∨
            ∃ r ∈ s.evaln.recent.take s.params.evalBound, bit r.held i = false) →
          ∀ t, step s = .next t → t.output = none) ∧
        (∀ i before after, c = .settled → s.params.order = before ++ i :: after →
          (∀ j ∈ before, bit b.held j = false) → bit b.held i = true →
          ∃ t, step s = .next t ∧ InterruptEntered i s t) ∧
        ∀ i, c = .present → selectMInterrupt s = some i → ∃ t, step s = .next t ∧ InterruptEntered i s t

/-! ### Trap return -/

/-- 41_trap_return R90. That the least-privileged mode is U is the model's (assumption log 14). -/
def Obligations.MretReturns : Prop :=
  ∀ s : State,
    (s.hart.priv = .m → ∃ t, exec .mret s = .next t ∧ t.hart.priv = s.hart.mstatus.mpp ∧
      t.hart.mstatus.mie = s.hart.mstatus.mpie ∧ t.hart.mstatus.mpie = true ∧ t.hart.mstatus.mpp = .u ∧
      t.hart.mstatus.mprv = (if s.hart.mstatus.mpp ≠ .m then false else s.hart.mstatus.mprv) ∧
      t.hart.virt = s.hart.mstatus.mpv ∧ t.hart.mstatus.mpv = false ∧ t.hart.pc = s.hart.mepc ∧
      t.hart.mstatus.sie = s.hart.mstatus.sie ∧ t.hart.mstatus.spie = s.hart.mstatus.spie ∧
      t.hart.mstatus.spp = s.hart.mstatus.spp ∧ t.hart.mstatus.tsr = s.hart.mstatus.tsr ∧ t.hart.x = s.hart.x ∧
      t.hart.mepc = s.hart.mepc ∧ t.hart.sepc = s.hart.sepc ∧ t.hart.mcause = s.hart.mcause ∧
      t.hart.mtval = s.hart.mtval ∧ t.hart.hstatusSPV = s.hart.hstatusSPV ∧ t.hart.mtvecBase = s.hart.mtvecBase ∧
      t.hart.mtvecVectored = s.hart.mtvecVectored ∧ t.mie = s.mie ∧ t.pend = s.pend ∧ t.inputs = s.inputs ∧
      t.params = s.params ∧ (∀ a, Code.word t.code a = Code.word s.code a) ∧ t.agenda = s.agenda ∧ t.output = s.output) ∧
      (s.hart.priv ≠ .m → ∃ t, exec .mret s = .next t ∧ IllegalEntered 0x30200073 s t)

/-- 41_trap_return R91; in a virtual mode by the letter of it (assumption log 16). -/
def Obligations.SretReturns : Prop :=
  ∀ s : State,
    (s.hart.priv = .m ∨ (s.hart.priv = .s ∧ s.hart.mstatus.tsr = false) →
      ∃ t, exec .sret s = .next t ∧ t.hart.priv = (if s.hart.mstatus.spp then .s else .u) ∧
        t.hart.mstatus.sie = s.hart.mstatus.spie ∧ t.hart.mstatus.spie = true ∧ t.hart.mstatus.spp = false ∧
        t.hart.mstatus.mprv = false ∧ t.hart.pc = s.hart.sepc ∧
        t.hart.virt = (if s.hart.priv = .s ∧ s.hart.virt = false then s.hart.hstatusSPV else s.hart.virt) ∧
        t.hart.hstatusSPV = (if s.hart.priv = .s ∧ s.hart.virt = false then false else s.hart.hstatusSPV) ∧
        t.hart.mstatus.mie = s.hart.mstatus.mie ∧ t.hart.mstatus.mpie = s.hart.mstatus.mpie ∧
        t.hart.mstatus.mpp = s.hart.mstatus.mpp ∧ t.hart.mstatus.mpv = s.hart.mstatus.mpv ∧
        t.hart.mstatus.tsr = s.hart.mstatus.tsr ∧ t.hart.x = s.hart.x ∧ t.hart.mepc = s.hart.mepc ∧
        t.hart.sepc = s.hart.sepc ∧ t.hart.mcause = s.hart.mcause ∧ t.hart.mtval = s.hart.mtval ∧
        t.hart.mtvecBase = s.hart.mtvecBase ∧ t.hart.mtvecVectored = s.hart.mtvecVectored ∧ t.mie = s.mie ∧
        t.pend = s.pend ∧ t.inputs = s.inputs ∧ t.params = s.params ∧
        (∀ a, Code.word t.code a = Code.word s.code a) ∧ t.agenda = s.agenda ∧ t.output = s.output) ∧
      (s.hart.priv = .u ∨ (s.hart.priv = .s ∧ s.hart.mstatus.tsr = true) →
        ∃ t, exec .sret s = .next t ∧ IllegalEntered 0x10200073 s t)

/-- 41_trap_return R92: after an xRET that has executed, and before any instruction at the return address, the conditions
are evaluated with the mode and `mstatus.MIE` it has produced: with no other agent's step in between the next boundary
decides by them; and where such steps lie in between, those of other agents that change the mode or `mstatus.MIE` among
them, a condition that held right after the xRET traps first all the same. The entry, R113's sketch (assumption log 23, 9),
saves the return address. -/
def Obligations.TrapReturnIsEvaluatedAtOnce : Prop :=
  ∀ s t : State,
    (exec .mret s = .next t → s.hart.priv = .m → DecidedAtOnce t ∧ TrapsFirst t ∧ t.hart.pc = s.hart.mepc) ∧
      (exec .sret s = .next t → s.hart.priv = .m ∨ (s.hart.priv = .s ∧ s.hart.mstatus.tsr = false) →
        DecidedAtOnce t ∧ TrapsFirst t ∧ t.hart.pc = s.hart.sepc)

/-! ### Reset -/

/-- 70_reset R130. -/
def Obligations.ResetClearsStorage : Prop :=
  ∀ (p : Params) (mie0 vector cause0 : Word),
    let s := State.resetWith p mie0 vector cause0
    s.pend.ssip = false ∧ s.pend.vssip = false ∧ s.pend.stip = false ∧ s.pend.seipB = false ∧ s.pend.lcofip = false ∧
      bit (mipRead s) 3 = false

/-- 70_reset R131: `mie` after reset may be any value within `MIE_WMASK`, and is none outside it; the machine's own reset
holds one such value, which nothing fixes (assumption log 6). -/
def Obligations.ResetLeavesMieOpen : Prop :=
  (∀ (p : Params) (mie0 vector cause0 : Word),
    (State.resetWith p mie0 vector cause0).mie &&& ~~~p.mieWritable = 0) ∧
    (∀ (p : Params) (v vector cause0 : Word), v &&& ~~~p.mieWritable = 0 →
      ∃ mie0, (State.resetWith p mie0 vector cause0).mie = v) ∧
    State.reset.mie = Config.mieReset 0 &&& State.reset.params.mieWritable

/-- 70_reset R132, R133: the inputs that drive `mip` are 0 at the instant of reset, so `mip_read()` = 0. That both timer
signals are 0 with STCE clear too is the model's (assumption log 7). -/
def Obligations.ResetReadsMipZero : Prop :=
  ∀ (p : Params) (mie0 vector cause0 : Word),
    let s := State.resetWith p mie0 vector cause0
    mipRead s = 0 ∧ s.inputs.mtimerIrq = false ∧ s.inputs.meipWire = false ∧ s.inputs.seipWire = false ∧
      s.inputs.vseipWire = false ∧ s.inputs.hgeip = 0 ∧ s.inputs.hvipVSTIP = false ∧ s.inputs.hvipVSEIP = false ∧
      s.inputs.stimerIrq = false ∧ s.inputs.vstimerIrq = false

/-- 70_reset R134, R130, as a step: reset from any state gives M-mode with `mstatus.MIE` = 0, the storage bits 0 and `mie`
within its mask, and the boundary that follows takes no interrupt whatever `mie` holds. The reset vector and the other
registers' values are the model's (assumption log 7), as is what stays (assumption log 17). -/
def Obligations.ResetStepMasksInterrupts : Prop :=
  ∀ s s0 : State, EnvDue .reset s s0 →
    ∃ t, step s = .next t ∧ t.hart.priv = .m ∧ t.hart.mstatus.mie = false ∧
      t.pend = ⟨false, false, false, false, false, 0⟩ ∧ mipRead t = 0 ∧ t.mie &&& ~~~t.params.mieWritable = 0 ∧
      t.params = s.params ∧ (∀ a, Code.word t.code a = Code.word s.code a) ∧ t.agenda = s0.agenda ∧
      ∀ c t0, BoundaryDue c t t0 → decideInterrupt c t0 = none

/-! ### The machine -/

/-- The invariant holds at reset, for every parameter and draw. -/
def Obligations.ResetMeetsInvariant : Prop :=
  (∀ (p : Params) (mie0 vector cause0 : Word), (State.resetWith p mie0 vector cause0).Inv) ∧ State.reset.Inv

/-- Every step keeps the invariant (10_state R34 "bits outside MIE_WMASK are always 0", R14; 00_scope section 7 on widths;
60_exceptions R108, R109 on the history; the canonical form of the instruction words). -/
def Obligations.StepKeepsInvariant : Prop := ∀ s t : State, s.Inv → step s = .next t → t.Inv

/-- The parameters are fixed: no step changes them (00_scope section 5; assumption log 1). -/
def Obligations.StepKeepsParameters : Prop := ∀ s t : State, step s = .next t → t.params = s.params

/-- A step that is the hart's and takes no interrupt is the decoded instruction at `pc`, run at the state whose boundary
has passed; a step that is another instruction's is its effects, at that same state (assumption log 29); a step that is
another agent's is its event. How turns are scheduled is the model's (assumption log 3): a
listed turn is the due one, and with none listed the due one is a free value. -/
def Obligations.StepRunsDecodedInstruction : Prop :=
  ∀ s : State,
    (∀ c s0 w i, HartDue c s s0 → decideInterrupt c s0 = none → fetch s = some w → decode w = .ok i →
      step s = exec i (passBoundary s0) ∧ (passBoundary s0).hart = s.hart ∧ (passBoundary s0).mie = s.mie ∧
        (passBoundary s0).pend = s.pend ∧ (passBoundary s0).inputs = s.inputs ∧ (passBoundary s0).code = s.code ∧
        (passBoundary s0).evaln.due = none) ∧
      (∀ c rest, s.agenda = .hart c :: rest → HartDue c s { s with agenda := rest, output := none }) ∧
      (∀ e rest, s.agenda = .env e :: rest → EnvDue e s { s with agenda := rest, output := none }) ∧
      (s.agenda = [] → dueTurn s = (Config.freeTurn s.draws, { s with draws := s.draws + 1, output := none })) ∧
      (∀ e s0, EnvDue e s s0 → step s = .next (applyEvent e s0)) ∧
      (∀ c es rest, s.agenda = .foreign c es :: rest → ForeignDue c es s { s with agenda := rest, output := none }) ∧
      ∀ c es s0, ForeignDue c es s s0 → decideInterrupt c s0 = none → step s = runForeign es (passBoundary s0)

/-- The machine faults exactly where the hart is to run an instruction and the environment supplies no word at `pc`
(assumption log 2). -/
def Obligations.FaultsOnlyWithoutAWord : Prop :=
  ∀ s : State, (∃ r, step s = .fault r) ↔
    ∃ c s0, HartDue c s s0 ∧ decideInterrupt c s0 = none ∧ fetch s = none

/-- A word placed for the next fetch is fetched and run by the very next step, unless an interrupt must be taken there
(assumption log 2). -/
def Obligations.PlacedWordRunsNext : Prop :=
  ∀ (s : State) (w : InstrWord) (i : Instr), decode w = .ok i → mustTake s = false →
    ∃ u, step (s.withFetchWord 32 w.toNat) = exec i u ∧ u.hart = s.hart ∧ u.mie = s.mie ∧ u.pend = s.pend ∧
      u.inputs = s.inputs ∧ u.params = s.params ∧ u.agenda = s.agenda ∧
      (∀ a, a ≠ s.hart.pc.toNat → Code.word u.code a = Code.word s.code a)

/-- The instruction words (assumption log 2): a placed word is the one supplied, every other address is as it was, and placing keeps the
canonical form. -/
def Obligations.PlacedWordsAreSupplied : Prop :=
  ∀ (c : Code) (a : Nat) (w : InstrWord),
    (∀ b, Code.word (Code.place c a w) b = if b = a then some w else Code.word c b) ∧
      (Code.WellFormed c → Code.WellFormed (Code.place c a w))

/-- 40_csr_access R71, 10_state R36 to R40, whole machine: no instruction of a U-mode program changes `mie`, the storage
behind `mip`, or any input. For the alias registers it rests on assumption log 10. -/
def Obligations.UserModeCannotTouchThePair : Prop :=
  ∀ (i : Instr) (s t : State), s.hart.priv = .u → exec i s = .next t →
    t.mie = s.mie ∧ t.pend = s.pend ∧ t.inputs = s.inputs

/-- 40_csr_access R71, 10_state R36 to R40, whole machine: what an instruction run below M-mode can reach of the pair
and its inputs. It changes neither `STIP_b`, `SEIP_B` nor the platform's bits; `SSIP_b`, `LCOFIP_s` and a bit of `mie`
only where they are delegated; `VSSIP_b`, which R39 gives no delegation test, only by an instruction on `hip`, `hvip` or a
`vsip` that shows it; an input only from HS-mode by an instruction on `hvip`, and then one of the two `hvip` bits. For the
alias registers it rests on assumption log 10. -/
def Obligations.LowerModesReachOfThePair : Prop :=
  ∀ (i : Instr) (s t : State), s.hart.priv ≠ .m → exec i s = .next t →
    t.pend.stip = s.pend.stip ∧ t.pend.seipB = s.pend.seipB ∧ t.pend.platform = s.pend.platform ∧
      (bit s.inputs.mideleg 1 = false → t.pend.ssip = s.pend.ssip) ∧
      (bit s.inputs.mideleg 13 = false → bit s.inputs.hideleg 13 = false → t.pend.lcofip = s.pend.lcofip) ∧
      (∀ k, bit s.inputs.mideleg k = false → bit t.mie k = bit s.mie k) ∧
      (t.pend.vssip ≠ s.pend.vssip → s.hart.priv = .s ∧
        ((s.hart.virt = false ∧ (CsrForm 0x644 i ∨ CsrForm 0x645 i)) ∨
          (bit s.inputs.hideleg 2 = true ∧ CsrForm 0x244 i) ∨
          (s.hart.virt = true ∧ bit s.inputs.hideleg 2 = true ∧ CsrForm 0x144 i))) ∧
      (t.inputs ≠ s.inputs → s.hart.priv = .s ∧ s.hart.virt = false ∧ CsrForm 0x645 i ∧
        { t.inputs with hvipVSTIP := s.inputs.hvipVSTIP, hvipVSEIP := s.inputs.hvipVSEIP } = s.inputs)
end

