-- ==== Sys2Proof/Laws/State.lean ====
section
/-! SUPPORT. What each named update leaves alone and what it sets, one lemma per field, true by computation. -/

namespace Sys2Proof.Machine

/-! ### `advancePc` -/

@[simp] theorem advancePc_params (s : State) : (advancePc s).params = s.params := rfl

@[simp] theorem advancePc_mie (s : State) : (advancePc s).mie = s.mie := rfl

@[simp] theorem advancePc_pend (s : State) : (advancePc s).pend = s.pend := rfl

@[simp] theorem advancePc_inputs (s : State) : (advancePc s).inputs = s.inputs := rfl

@[simp] theorem advancePc_hart (s : State) : (advancePc s).hart = { s.hart with pc := s.params.fit (s.hart.pc + 4) } := rfl

@[simp] theorem advancePc_evaln (s : State) : (advancePc s).evaln = s.evaln := rfl

@[simp] theorem advancePc_code (s : State) : (advancePc s).code = s.code := rfl

@[simp] theorem advancePc_agenda (s : State) : (advancePc s).agenda = s.agenda := rfl

@[simp] theorem advancePc_draws (s : State) : (advancePc s).draws = s.draws := rfl

@[simp] theorem advancePc_output (s : State) : (advancePc s).output = s.output := rfl

/-! ### `evaluateNext` -/

@[simp] theorem evaluateNext_params (s : State) : (evaluateNext s).params = s.params := rfl

@[simp] theorem evaluateNext_mie (s : State) : (evaluateNext s).mie = s.mie := rfl

@[simp] theorem evaluateNext_pend (s : State) : (evaluateNext s).pend = s.pend := rfl

@[simp] theorem evaluateNext_inputs (s : State) : (evaluateNext s).inputs = s.inputs := rfl

@[simp] theorem evaluateNext_hart (s : State) : (evaluateNext s).hart = s.hart := rfl

@[simp] theorem evaluateNext_evaln (s : State) : (evaluateNext s).evaln = s.evaln.after (boundaryNow s) := rfl

@[simp] theorem evaluateNext_code (s : State) : (evaluateNext s).code = s.code := rfl

@[simp] theorem evaluateNext_agenda (s : State) : (evaluateNext s).agenda = s.agenda := rfl

@[simp] theorem evaluateNext_draws (s : State) : (evaluateNext s).draws = s.draws := rfl

@[simp] theorem evaluateNext_output (s : State) : (evaluateNext s).output = s.output := rfl

/-! ### `evaluateIf` -/

@[simp] theorem evaluateIf_params (b : Bool) (s : State) : (evaluateIf b s).params = s.params := by cases b <;> rfl

@[simp] theorem evaluateIf_mie (b : Bool) (s : State) : (evaluateIf b s).mie = s.mie := by cases b <;> rfl

@[simp] theorem evaluateIf_pend (b : Bool) (s : State) : (evaluateIf b s).pend = s.pend := by cases b <;> rfl

@[simp] theorem evaluateIf_inputs (b : Bool) (s : State) : (evaluateIf b s).inputs = s.inputs := by cases b <;> rfl

@[simp] theorem evaluateIf_hart (b : Bool) (s : State) : (evaluateIf b s).hart = s.hart := by cases b <;> rfl

@[simp] theorem evaluateIf_code (b : Bool) (s : State) : (evaluateIf b s).code = s.code := by cases b <;> rfl

@[simp] theorem evaluateIf_agenda (b : Bool) (s : State) : (evaluateIf b s).agenda = s.agenda := by cases b <;> rfl

@[simp] theorem evaluateIf_draws (b : Bool) (s : State) : (evaluateIf b s).draws = s.draws := by cases b <;> rfl

@[simp] theorem evaluateIf_output (b : Bool) (s : State) : (evaluateIf b s).output = s.output := by cases b <;> rfl

@[simp] theorem evaluateIf_evaln (b : Bool) (s : State) :
    (evaluateIf b s).evaln = if b then s.evaln.after (boundaryNow s) else s.evaln := by cases b <;> rfl

/-! ### `drawn` -/

@[simp] theorem drawn_params (s : State) : (drawn s).params = s.params := rfl

@[simp] theorem drawn_mie (s : State) : (drawn s).mie = s.mie := rfl

@[simp] theorem drawn_pend (s : State) : (drawn s).pend = s.pend := rfl

@[simp] theorem drawn_inputs (s : State) : (drawn s).inputs = s.inputs := rfl

@[simp] theorem drawn_hart (s : State) : (drawn s).hart = s.hart := rfl

@[simp] theorem drawn_evaln (s : State) : (drawn s).evaln = s.evaln := rfl

@[simp] theorem drawn_code (s : State) : (drawn s).code = s.code := rfl

@[simp] theorem drawn_agenda (s : State) : (drawn s).agenda = s.agenda := rfl

@[simp] theorem drawn_draws (s : State) : (drawn s).draws = s.draws + 1 := rfl

@[simp] theorem drawn_output (s : State) : (drawn s).output = s.output := rfl

/-! ### `trapToM` -/

@[simp] theorem trapToM_params (cause tval target : Word) (s : State) : (trapToM cause tval target s).params = s.params := rfl

@[simp] theorem trapToM_mie (cause tval target : Word) (s : State) : (trapToM cause tval target s).mie = s.mie := rfl

@[simp] theorem trapToM_pend (cause tval target : Word) (s : State) : (trapToM cause tval target s).pend = s.pend := rfl

@[simp] theorem trapToM_inputs (cause tval target : Word) (s : State) : (trapToM cause tval target s).inputs = s.inputs := rfl

@[simp] theorem trapToM_evaln (cause tval target : Word) (s : State) : (trapToM cause tval target s).evaln = s.evaln := rfl

@[simp] theorem trapToM_code (cause tval target : Word) (s : State) : (trapToM cause tval target s).code = s.code := rfl

@[simp] theorem trapToM_agenda (cause tval target : Word) (s : State) : (trapToM cause tval target s).agenda = s.agenda := rfl

@[simp] theorem trapToM_draws (cause tval target : Word) (s : State) : (trapToM cause tval target s).draws = s.draws := rfl

@[simp] theorem trapToM_output (cause tval target : Word) (s : State) : (trapToM cause tval target s).output = s.output := rfl

/-! ### `takeMInterrupt` -/

@[simp] theorem takeMInterrupt_params (i : Nat) (s : State) : (takeMInterrupt i s).params = s.params := rfl

@[simp] theorem takeMInterrupt_mie (i : Nat) (s : State) : (takeMInterrupt i s).mie = s.mie := rfl

@[simp] theorem takeMInterrupt_pend (i : Nat) (s : State) : (takeMInterrupt i s).pend = s.pend := rfl

@[simp] theorem takeMInterrupt_inputs (i : Nat) (s : State) : (takeMInterrupt i s).inputs = s.inputs := rfl

@[simp] theorem takeMInterrupt_evaln (i : Nat) (s : State) : (takeMInterrupt i s).evaln = s.evaln := rfl

@[simp] theorem takeMInterrupt_code (i : Nat) (s : State) : (takeMInterrupt i s).code = s.code := rfl

@[simp] theorem takeMInterrupt_agenda (i : Nat) (s : State) : (takeMInterrupt i s).agenda = s.agenda := rfl

@[simp] theorem takeMInterrupt_draws (i : Nat) (s : State) : (takeMInterrupt i s).draws = s.draws := rfl

@[simp] theorem takeMInterrupt_output (i : Nat) (s : State) : (takeMInterrupt i s).output = some i := rfl

/-! ### `raiseIllegal` -/

@[simp] theorem raiseIllegal_params (w : InstrWord) (s : State) : (raiseIllegal w s).params = s.params := rfl

@[simp] theorem raiseIllegal_mie (w : InstrWord) (s : State) : (raiseIllegal w s).mie = s.mie := rfl

@[simp] theorem raiseIllegal_pend (w : InstrWord) (s : State) : (raiseIllegal w s).pend = s.pend := rfl

@[simp] theorem raiseIllegal_inputs (w : InstrWord) (s : State) : (raiseIllegal w s).inputs = s.inputs := rfl

@[simp] theorem raiseIllegal_evaln (w : InstrWord) (s : State) : (raiseIllegal w s).evaln = s.evaln := rfl

@[simp] theorem raiseIllegal_code (w : InstrWord) (s : State) : (raiseIllegal w s).code = s.code := rfl

@[simp] theorem raiseIllegal_agenda (w : InstrWord) (s : State) : (raiseIllegal w s).agenda = s.agenda := rfl

@[simp] theorem raiseIllegal_draws (w : InstrWord) (s : State) : (raiseIllegal w s).draws = s.draws := rfl

@[simp] theorem raiseIllegal_output (w : InstrWord) (s : State) : (raiseIllegal w s).output = s.output := rfl

/-! ### `returnFromM` -/

@[simp] theorem returnFromM_params (s : State) : (returnFromM s).params = s.params := rfl

@[simp] theorem returnFromM_mie (s : State) : (returnFromM s).mie = s.mie := rfl

@[simp] theorem returnFromM_pend (s : State) : (returnFromM s).pend = s.pend := rfl

@[simp] theorem returnFromM_inputs (s : State) : (returnFromM s).inputs = s.inputs := rfl

@[simp] theorem returnFromM_evaln (s : State) : (returnFromM s).evaln = s.evaln.after (boundaryNow (returnFromM s)) := rfl

@[simp] theorem returnFromM_code (s : State) : (returnFromM s).code = s.code := rfl

@[simp] theorem returnFromM_agenda (s : State) : (returnFromM s).agenda = s.agenda := rfl

@[simp] theorem returnFromM_draws (s : State) : (returnFromM s).draws = s.draws := rfl

@[simp] theorem returnFromM_output (s : State) : (returnFromM s).output = s.output := rfl

/-! ### `returnFromS` -/

@[simp] theorem returnFromS_params (s : State) : (returnFromS s).params = s.params := rfl

@[simp] theorem returnFromS_mie (s : State) : (returnFromS s).mie = s.mie := rfl

@[simp] theorem returnFromS_pend (s : State) : (returnFromS s).pend = s.pend := rfl

@[simp] theorem returnFromS_inputs (s : State) : (returnFromS s).inputs = s.inputs := rfl

@[simp] theorem returnFromS_evaln (s : State) : (returnFromS s).evaln = s.evaln.after (boundaryNow (returnFromS s)) := rfl

@[simp] theorem returnFromS_code (s : State) : (returnFromS s).code = s.code := rfl

@[simp] theorem returnFromS_agenda (s : State) : (returnFromS s).agenda = s.agenda := rfl

@[simp] theorem returnFromS_draws (s : State) : (returnFromS s).draws = s.draws := rfl

@[simp] theorem returnFromS_output (s : State) : (returnFromS s).output = s.output := rfl

/-! ### `mieWrite` -/

@[simp] theorem mieWrite_params (v : Word) (s : State) : (mieWrite v s).params = s.params := rfl

@[simp] theorem mieWrite_mie (v : Word) (s : State) : (mieWrite v s).mie = v &&& s.params.mieWritable := rfl

@[simp] theorem mieWrite_pend (v : Word) (s : State) : (mieWrite v s).pend = s.pend := rfl

@[simp] theorem mieWrite_inputs (v : Word) (s : State) : (mieWrite v s).inputs = s.inputs := rfl

@[simp] theorem mieWrite_hart (v : Word) (s : State) : (mieWrite v s).hart = s.hart := rfl

@[simp] theorem mieWrite_evaln (v : Word) (s : State) : (mieWrite v s).evaln = s.evaln.after (boundaryNow (mieWrite v s)) := rfl

@[simp] theorem mieWrite_code (v : Word) (s : State) : (mieWrite v s).code = s.code := rfl

@[simp] theorem mieWrite_agenda (v : Word) (s : State) : (mieWrite v s).agenda = s.agenda := rfl

@[simp] theorem mieWrite_draws (v : Word) (s : State) : (mieWrite v s).draws = s.draws := rfl

@[simp] theorem mieWrite_output (v : Word) (s : State) : (mieWrite v s).output = s.output := rfl

/-! ### `mipWrite` -/

@[simp] theorem mipWrite_params (v : Word) (s : State) : (mipWrite v s).params = s.params := rfl

@[simp] theorem mipWrite_mie (v : Word) (s : State) : (mipWrite v s).mie = s.mie := rfl

@[simp] theorem mipWrite_pend (v : Word) (s : State) : (mipWrite v s).pend = s.pend.write s.params s.inputs.stce v := rfl

@[simp] theorem mipWrite_inputs (v : Word) (s : State) : (mipWrite v s).inputs = s.inputs := rfl

@[simp] theorem mipWrite_hart (v : Word) (s : State) : (mipWrite v s).hart = s.hart := rfl

@[simp] theorem mipWrite_evaln (v : Word) (s : State) : (mipWrite v s).evaln = s.evaln.after (boundaryNow (mipWrite v s)) := rfl

@[simp] theorem mipWrite_code (v : Word) (s : State) : (mipWrite v s).code = s.code := rfl

@[simp] theorem mipWrite_agenda (v : Word) (s : State) : (mipWrite v s).agenda = s.agenda := rfl

@[simp] theorem mipWrite_draws (v : Word) (s : State) : (mipWrite v s).draws = s.draws := rfl

@[simp] theorem mipWrite_output (v : Word) (s : State) : (mipWrite v s).output = s.output := rfl

/-! ### `passBoundary` -/

@[simp] theorem passBoundary_params (s : State) : (passBoundary s).params = s.params := rfl

@[simp] theorem passBoundary_mie (s : State) : (passBoundary s).mie = s.mie := rfl

@[simp] theorem passBoundary_pend (s : State) : (passBoundary s).pend = s.pend := rfl

@[simp] theorem passBoundary_inputs (s : State) : (passBoundary s).inputs = s.inputs := rfl

@[simp] theorem passBoundary_hart (s : State) : (passBoundary s).hart = s.hart := rfl

@[simp] theorem passBoundary_evaln (s : State) : (passBoundary s).evaln = ⟨none, (boundaryNow s :: s.evaln.recent).take s.params.evalBound⟩ := rfl

@[simp] theorem passBoundary_code (s : State) : (passBoundary s).code = s.code := rfl

@[simp] theorem passBoundary_agenda (s : State) : (passBoundary s).agenda = s.agenda := rfl

@[simp] theorem passBoundary_draws (s : State) : (passBoundary s).draws = s.draws := rfl

@[simp] theorem passBoundary_output (s : State) : (passBoundary s).output = s.output := rfl

/-! ### `placeNext` -/

@[simp] theorem placeNext_params (w : InstrWord) (s : State) : (placeNext s w).params = s.params := rfl

@[simp] theorem placeNext_mie (w : InstrWord) (s : State) : (placeNext s w).mie = s.mie := rfl

@[simp] theorem placeNext_pend (w : InstrWord) (s : State) : (placeNext s w).pend = s.pend := rfl

@[simp] theorem placeNext_inputs (w : InstrWord) (s : State) : (placeNext s w).inputs = s.inputs := rfl

@[simp] theorem placeNext_hart (w : InstrWord) (s : State) : (placeNext s w).hart = s.hart := rfl

@[simp] theorem placeNext_evaln (w : InstrWord) (s : State) : (placeNext s w).evaln = s.evaln := rfl

@[simp] theorem placeNext_code (w : InstrWord) (s : State) : (placeNext s w).code = Code.place s.code s.hart.pc.toNat w := rfl

@[simp] theorem placeNext_agenda (w : InstrWord) (s : State) : (placeNext s w).agenda = .hart .defer :: s.agenda := rfl

@[simp] theorem placeNext_draws (w : InstrWord) (s : State) : (placeNext s w).draws = s.draws := rfl

@[simp] theorem placeNext_output (w : InstrWord) (s : State) : (placeNext s w).output = s.output := rfl

/-! ### `writeReg`: only a general register -/

@[simp] theorem writeReg_params (r : Reg) (v : Word) (s : State) : (writeReg r v s).params = s.params := by
  unfold writeReg; split <;> rfl

@[simp] theorem writeReg_mie (r : Reg) (v : Word) (s : State) : (writeReg r v s).mie = s.mie := by
  unfold writeReg; split <;> rfl

@[simp] theorem writeReg_pend (r : Reg) (v : Word) (s : State) : (writeReg r v s).pend = s.pend := by
  unfold writeReg; split <;> rfl

@[simp] theorem writeReg_inputs (r : Reg) (v : Word) (s : State) : (writeReg r v s).inputs = s.inputs := by
  unfold writeReg; split <;> rfl

@[simp] theorem writeReg_evaln (r : Reg) (v : Word) (s : State) : (writeReg r v s).evaln = s.evaln := by
  unfold writeReg; split <;> rfl

@[simp] theorem writeReg_code (r : Reg) (v : Word) (s : State) : (writeReg r v s).code = s.code := by
  unfold writeReg; split <;> rfl

@[simp] theorem writeReg_agenda (r : Reg) (v : Word) (s : State) : (writeReg r v s).agenda = s.agenda := by
  unfold writeReg; split <;> rfl

@[simp] theorem writeReg_draws (r : Reg) (v : Word) (s : State) : (writeReg r v s).draws = s.draws := by
  unfold writeReg; split <;> rfl

@[simp] theorem writeReg_output (r : Reg) (v : Word) (s : State) : (writeReg r v s).output = s.output := by
  unfold writeReg; split <;> rfl

@[simp] theorem writeReg_hart_pc (r : Reg) (v : Word) (s : State) : (writeReg r v s).hart.pc = s.hart.pc := by
  unfold writeReg; split <;> rfl

@[simp] theorem writeReg_hart_priv (r : Reg) (v : Word) (s : State) : (writeReg r v s).hart.priv = s.hart.priv := by
  unfold writeReg; split <;> rfl

@[simp] theorem writeReg_hart_virt (r : Reg) (v : Word) (s : State) : (writeReg r v s).hart.virt = s.hart.virt := by
  unfold writeReg; split <;> rfl

@[simp] theorem writeReg_hart_mstatus (r : Reg) (v : Word) (s : State) : (writeReg r v s).hart.mstatus = s.hart.mstatus := by
  unfold writeReg; split <;> rfl

@[simp] theorem writeReg_hart_hstatusSPV (r : Reg) (v : Word) (s : State) : (writeReg r v s).hart.hstatusSPV = s.hart.hstatusSPV := by
  unfold writeReg; split <;> rfl

@[simp] theorem writeReg_hart_mepc (r : Reg) (v : Word) (s : State) : (writeReg r v s).hart.mepc = s.hart.mepc := by
  unfold writeReg; split <;> rfl

@[simp] theorem writeReg_hart_sepc (r : Reg) (v : Word) (s : State) : (writeReg r v s).hart.sepc = s.hart.sepc := by
  unfold writeReg; split <;> rfl

@[simp] theorem writeReg_hart_mcause (r : Reg) (v : Word) (s : State) : (writeReg r v s).hart.mcause = s.hart.mcause := by
  unfold writeReg; split <;> rfl

@[simp] theorem writeReg_hart_mtval (r : Reg) (v : Word) (s : State) : (writeReg r v s).hart.mtval = s.hart.mtval := by
  unfold writeReg; split <;> rfl

@[simp] theorem writeReg_hart_mtvecBase (r : Reg) (v : Word) (s : State) : (writeReg r v s).hart.mtvecBase = s.hart.mtvecBase := by
  unfold writeReg; split <;> rfl

@[simp] theorem writeReg_hart_mtvecVectored (r : Reg) (v : Word) (s : State) : (writeReg r v s).hart.mtvecVectored = s.hart.mtvecVectored := by
  unfold writeReg; split <;> rfl

/-! ### What the evaluation logic sees: neither `pc` and the general registers nor the model's own fields -/

@[simp] theorem boundaryNow_evaluateNext (s : State) : boundaryNow (evaluateNext s) = boundaryNow s := rfl

@[simp] theorem boundaryNow_evaluateIf (b : Bool) (s : State) : boundaryNow (evaluateIf b s) = boundaryNow s := by
  cases b <;> rfl

@[simp] theorem boundaryNow_advancePc (s : State) : boundaryNow (advancePc s) = boundaryNow s := rfl

@[simp] theorem boundaryNow_drawn (s : State) : boundaryNow (drawn s) = boundaryNow s := rfl

@[simp] theorem boundaryNow_passBoundary (s : State) : boundaryNow (passBoundary s) = boundaryNow s := rfl

@[simp] theorem boundaryNow_writeReg (r : Reg) (v : Word) (s : State) : boundaryNow (writeReg r v s) = boundaryNow s := by
  unfold writeReg; split <;> rfl

@[simp] theorem after_due (e : Evaluation) (b : Boundary) : (e.after b).due = some b := rfl

/-- What held at a past boundary is kept across an xRET or explicit write, and nothing stale is. -/
theorem mem_after_recent {e : Evaluation} {now b : Boundary} (h : b ∈ (e.after now).recent) :
    b.driven = 0 ∧ ∃ b' ∈ e.recent, b.held = b'.held := by
  obtain ⟨b', hb, rfl⟩ := List.mem_map.mp h
  exact ⟨rfl, b', hb, rfl⟩

/-! ### Reads through an update -/

@[simp] theorem readReg_zero (s : State) : readReg 0 s = 0 := rfl

/-- A general register after a write: the write is seen unless it went to `x0`. -/
theorem readReg_writeReg (r q : Reg) (v : Word) (s : State) :
    readReg q (writeReg r v s) = if q = r ∧ r ≠ 0 then v else readReg q s := by
  by_cases hr : r = 0
  · simp [writeReg, hr]
  · by_cases hq : q = 0
    · have : q ≠ r := fun h => hr (h.symm.trans hq)
      simp [hq, Ne.symm hr]
    · simp only [readReg, writeReg, hr, hq, if_false, ne_eq, not_false_eq_true, and_true, Fin.getElem_fin]
      rw [Vector.getElem_set]
      simp only [Fin.val_inj, eq_comm]

/-- Reading a register looks at the general registers only. -/
theorem readReg_congr {s t : State} (h : t.hart.x = s.hart.x) (r : Reg) : readReg r t = readReg r s := by
  unfold readReg; rw [h]

@[simp] theorem readReg_advancePc (r : Reg) (s : State) : readReg r (advancePc s) = readReg r s := rfl

@[simp] theorem readReg_mieWrite (r : Reg) (v : Word) (s : State) : readReg r (mieWrite v s) = readReg r s := rfl

@[simp] theorem readReg_mipWrite (r : Reg) (v : Word) (s : State) : readReg r (mipWrite v s) = readReg r s := rfl

@[simp] theorem readReg_drawn (r : Reg) (s : State) : readReg r (drawn s) = readReg r s := rfl

@[simp] theorem readReg_passBoundary (r : Reg) (s : State) : readReg r (passBoundary s) = readReg r s := rfl

/-- The writes of `mie` and `mip` do not touch the hart, so they commute with `advancePc`'s reading of `pc`. -/
@[simp] theorem writeReg_hart_frame (r : Reg) (v : Word) (s : State) :
    { (writeReg r v s).hart with x := s.hart.x } = s.hart := by
  unfold writeReg; split <;> rfl

end Sys2Proof.Machine
end

