-- ==== Sys2Proof/Laws/Bits.lean ====
section
/-! SUPPORT. Bit lemmas: single bits, the width mask, the writable masks, and `mip` bit by bit. -/

namespace Sys2Proof

/-! ### Single bits -/

theorem atBit_getLsbD (i j : Nat) (b : Bool) : (atBit i b).getLsbD j = (decide (i = j) && decide (j < 64) && b) := by
  unfold atBit
  cases b
  · simp
  · simp only [if_true, Bool.and_true, BitVec.getLsbD_twoPow]
    by_cases h : i = j
    · subst h; simp
    · simp [h]

@[simp] theorem atBit_false (i : Nat) : atBit i false = 0 := rfl

theorem withBit_getLsbD (v : Word) (i j : Nat) (b : Bool) :
    (withBit v i b).getLsbD j = if i = j ∧ j < 64 then b else v.getLsbD j := by
  simp only [withBit, BitVec.getLsbD_or, BitVec.getLsbD_and, BitVec.getLsbD_not, BitVec.getLsbD_twoPow, atBit_getLsbD]
  by_cases hj : j < 64
  · by_cases h : i = j
    · simp [h, hj]
    · simp [h, hj]
  · simp [hj, BitVec.getLsbD_of_ge v j (by omega)]

/-- Two words are equal when their 64 bits are. -/
theorem word_ext {v w : Word} (h : ∀ i, i < 64 → v.getLsbD i = w.getLsbD i) : v = w :=
  BitVec.eq_of_getLsbD_eq (fun i hi => h i hi)

/-- A word is not 0 exactly when some bit of it is set. -/
theorem word_ne_zero_iff (v : Word) : v ≠ 0 ↔ ∃ i, i < 64 ∧ v.getLsbD i = true := by
  constructor
  · intro h
    by_contra hn
    push Not at hn
    exact h (word_ext (fun i hi => by simpa using hn i hi))
  · rintro ⟨i, _, h⟩ rfl
    simp at h

/-- `v & ~m = 0` says that every bit of `v` is a bit of `m`. -/
theorem within_iff (v m : Word) : v &&& ~~~m = 0 ↔ ∀ i, v.getLsbD i = true → m.getLsbD i = true := by
  constructor
  · intro h i hv
    by_contra hm
    have hi : i < 64 := by
      by_contra hge
      simp [BitVec.getLsbD_of_ge v i (by omega)] at hv
    have := congrArg (fun w : Word => w.getLsbD i) h
    simp only [BitVec.getLsbD_and, BitVec.getLsbD_not, hv, hi, decide_true, Bool.true_and, Bool.not_eq_eq_eq_not] at this
    simp_all
  · intro h
    refine word_ext (fun i hi => ?_)
    cases hv : v.getLsbD i
    · simp [hv]
    · simp [hv, hi, h i hv]

namespace Params

/-! ### The width -/

theorem fits_iff (p : Params) (w : Word) : p.Fits w ↔ ∀ i, w.getLsbD i = true → p.xmask.getLsbD i = true := by
  constructor
  · intro h i hw
    rw [← h] at hw
    simpa [fit] using (by simpa [fit] using hw : w.getLsbD i = true ∧ p.xmask.getLsbD i = true).2
  · intro h
    refine word_ext (fun i _ => ?_)
    cases hw : w.getLsbD i
    · simp [fit, hw]
    · simp [fit, hw, h i hw]

@[simp] theorem fits_fit (p : Params) (w : Word) : p.Fits (p.fit w) := by
  unfold Fits fit; rw [BitVec.and_assoc, BitVec.and_self]

@[simp] theorem fits_zero (p : Params) : p.Fits 0 := by simp [Fits, fit]

theorem fits_and_left {p : Params} {v : Word} (h : p.Fits v) (w : Word) : p.Fits (v &&& w) := by
  rw [fits_iff] at *; intro i hi; exact h i (by simpa using (by simpa using hi : _ ∧ _).1)

theorem fits_and_right {p : Params} {w : Word} (h : p.Fits w) (v : Word) : p.Fits (v &&& w) := by
  rw [BitVec.and_comm]; exact fits_and_left h v

theorem fits_or {p : Params} {v w : Word} (hv : p.Fits v) (hw : p.Fits w) : p.Fits (v ||| w) := by
  rw [fits_iff] at *
  intro i hi
  rcases (by simpa using hi : v.getLsbD i = true ∨ w.getLsbD i = true) with h | h
  · exact hv i h
  · exact hw i h

/-- Bits 31:0 exist for either width. -/
theorem xmask_low (p : Params) {i : Nat} (h : i < 32) : p.xmask.getLsbD i = true := by
  unfold xmask
  cases p.mxlen
  · exact (by decide : ∀ i : Fin 32, (0xFFFFFFFF : Word).getLsbD i.val = true) ⟨i, h⟩
  · exact (by decide : ∀ i : Fin 64, (0xFFFFFFFFFFFFFFFF : Word).getLsbD i.val = true) ⟨i, by omega⟩

theorem fits_atBit (p : Params) {i : Nat} (h : i < 32) (b : Bool) : p.Fits (atBit i b) := by
  rw [fits_iff]
  intro j hj
  simp only [atBit_getLsbD, Bool.and_eq_true, decide_eq_true_eq] at hj
  exact hj.1.1 ▸ xmask_low p h

/-- A value of at most 32 bits fits. -/
theorem fits_setWidth32 (p : Params) (w : BitVec 32) : p.Fits (w.setWidth 64) := by
  rw [fits_iff]
  intro i hi
  refine xmask_low p ?_
  by_contra hge
  simp [BitVec.getLsbD_of_ge w i (by omega)] at hi

theorem fits_interruptBit (p : Params) : p.Fits p.interruptBit := by
  unfold Fits fit interruptBit xmask; cases p.mxlen <;> decide

/-! ### The masks -/

theorem fits_platformBits (p : Params) : p.Fits p.platformBits := fits_and_left (fits_fit p _) _

theorem fits_platformStored (p : Params) : p.Fits p.platformStored := fits_and_left (fits_platformBits p) _

/-- Bits 15:0 "are allocated to standard interrupt causes only" (10_state R11). -/
theorem platformBits_low (p : Params) {i : Nat} (h : i < 16) : p.platformBits.getLsbD i = false := by
  have : (~~~(0xFFFF : Word)).getLsbD i = false :=
    (by decide : ∀ i : Fin 16, (~~~(0xFFFF : Word)).getLsbD i.val = false) ⟨i, h⟩
  unfold platformBits
  rw [BitVec.getLsbD_and, this, Bool.and_false]

theorem platformStored_low (p : Params) {i : Nat} (h : i < 16) : p.platformStored.getLsbD i = false := by
  simp [platformStored, platformBits_low p h]

theorem fits_mieWritable (p : Params) : p.Fits p.mieWritable := by
  refine fits_or (fits_or ?_ ?_) (fits_platformBits p)
  · unfold Fits fit xmask; cases p.mxlen <;> decide
  · cases p.msieWritable
    · exact fits_zero p
    · unfold Fits fit xmask; cases p.mxlen <;> decide

/-- The bits of `mie` that `sie` can reach are writable (10_state R15, R37). -/
theorem mieWritable_sie (p : Params) {i : Nat} (h : i = 1 ∨ i = 5 ∨ i = 9 ∨ i = 13) :
    p.mieWritable.getLsbD i = true := by
  have : (0x3EE6 : Word).getLsbD i = true := by rcases h with h | h | h | h <;> subst h <;> decide
  unfold mieWritable
  rw [BitVec.getLsbD_or, BitVec.getLsbD_or, this, Bool.true_or, Bool.true_or]

end Params

namespace Machine

/-! ### `mip`, bit by bit (10_state R30, R31) -/

/-- A bit of `mip` below 16: the eleven fields, and read-only zero elsewhere. -/
theorem mipWithSEIP_low (seip : Bool) (s : State) {i : Nat} (h : i < 16) :
    (mipWithSEIP seip s).getLsbD i =
      (decide (1 = i) && s.pend.ssip || decide (2 = i) && s.pend.vssip || decide (5 = i) && pendingSTIP s ||
        decide (6 = i) && pendingVSTIP s || decide (7 = i) && s.inputs.mtimerIrq || decide (9 = i) && seip ||
        decide (10 = i) && pendingVSEIP s || decide (11 = i) && s.inputs.meipWire ||
        decide (12 = i) && pendingSGEIP s || decide (13 = i) && s.pend.lcofip) := by
  have hi : i < 64 := by omega
  simp only [mipWithSEIP, pendingPlatform, BitVec.getLsbD_or, BitVec.getLsbD_and, atBit_getLsbD, hi, decide_true,
    Bool.and_true, s.params.platformStored_low h, s.params.platformBits_low h, Bool.and_false, Bool.false_and,
    Bool.or_false]

/-- A bit of `mip` from 16 up is the platform's (10_state R14). -/
theorem mipWithSEIP_high (seip : Bool) (s : State) {i : Nat} (h : 16 ≤ i) :
    (mipWithSEIP seip s).getLsbD i = (pendingPlatform s).getLsbD i := by
  have hn : ∀ k : Nat, k < 16 → decide (k = i) = false := fun k hk => decide_eq_false (by omega)
  simp [mipWithSEIP, atBit_getLsbD, hn]

theorem pendingPlatform_within (s : State) (i : Nat) (h : (pendingPlatform s).getLsbD i = true) :
    s.params.platformBits.getLsbD i = true := by
  simp only [pendingPlatform, Params.platformStored, BitVec.getLsbD_or, BitVec.getLsbD_and, Bool.or_eq_true,
    Bool.and_eq_true] at h
  rcases h with h | h
  · exact h.2.1
  · exact h.1.2

end Machine

end Sys2Proof
end

