-- ==== Sys2Proof/Laws/Code.lean ====
section
/-! SUPPORT. The instruction words: read after write, and the canonical form. -/

namespace Sys2Proof.Machine

/-- The word just placed is the one supplied. -/
theorem Code.word_place_same (c : Code) (a : Nat) (w : InstrWord) : Code.word (Code.place c a w) a = some w := by
  induction c with
  | nil => simp [Code.place, Code.word]
  | cons p rest ih =>
    obtain ⟨b, v⟩ := p
    simp only [Code.place]
    split
    · simp [Code.word]
    · split
      · simp [Code.word]
      · rename_i h1 h2
        simp [Code.word, Ne.symm h2, ih]

/-- Every other address supplies what it did. -/
theorem Code.word_place_other (c : Code) {a b : Nat} (w : InstrWord) (h : b ≠ a) :
    Code.word (Code.place c a w) b = Code.word c b := by
  induction c with
  | nil => simp [Code.place, Code.word, Ne.symm h]
  | cons p rest ih =>
    obtain ⟨d, v⟩ := p
    simp only [Code.place]
    split
    · simp [Code.word, Ne.symm h]
    · split
      · rename_i h1 h2
        subst h2
        simp [Code.word, Ne.symm h]
      · simp [Code.word, ih]

/-- The addresses after a placing: the old ones and the new one. -/
theorem Code.mem_place {c : Code} {a : Nat} {w : InstrWord} {q : Nat × InstrWord} (h : q ∈ Code.place c a w) :
    q = (a, w) ∨ q ∈ c := by
  induction c with
  | nil => simpa [Code.place] using h
  | cons p rest ih =>
    obtain ⟨d, v⟩ := p
    simp only [Code.place] at h
    split at h
    · simpa using h
    · split at h
      · rcases List.mem_cons.mp h with h | h
        · exact .inl h
        · exact .inr (List.mem_cons_of_mem _ h)
      · rcases List.mem_cons.mp h with h | h
        · exact .inr (h ▸ List.mem_cons_self)
        · exact (ih h).imp id (List.mem_cons_of_mem _)

/-- Placing a word keeps the canonical form. -/
theorem Code.place_wellFormed (c : Code) (a : Nat) (w : InstrWord) (h : Code.WellFormed c) :
    Code.WellFormed (Code.place c a w) := by
  induction c with
  | nil => simp [Code.place, Code.WellFormed]
  | cons p rest ih =>
    obtain ⟨d, v⟩ := p
    obtain ⟨hd, hrest⟩ := List.pairwise_cons.mp h
    simp only [Code.place]
    split
    · rename_i hlt
      refine List.pairwise_cons.mpr ⟨?_, h⟩
      intro q hq
      rcases List.mem_cons.mp hq with hq | hq
      · exact hq ▸ hlt
      · exact Nat.lt_trans hlt (hd q hq)
    · split
      · rename_i _ heq
        subst heq
        exact List.pairwise_cons.mpr ⟨hd, hrest⟩
      · rename_i h1 h2
        refine List.pairwise_cons.mpr ⟨?_, ih hrest⟩
        intro q hq
        rcases Code.mem_place hq with hq | hq
        · subst hq; show d < a; omega
        · exact hd q hq

end Sys2Proof.Machine
end

