-- ==== Sys2Proof/Laws/Csr.lean ====
section
/-! SUPPORT. The CSR file: which number is which register, what the access check finds, and the cases of a CSR
instruction. -/

namespace Sys2Proof

@[simp] theorem ofNumber_mie : Csr.ofNumber 0x304 = some .mie := by decide

@[simp] theorem ofNumber_mip : Csr.ofNumber 0x344 = some .mip := by decide

/-- A register's own number names it. -/
@[simp] theorem ofNumber_number (c : Csr) : Csr.ofNumber c.number = some c := by cases c <;> decide

/-- A number that names a register is that register's. -/
theorem number_of_ofNumber {n : CsrNum} {c : Csr} (h : Csr.ofNumber n = some c) : n = c.number := by
  have hb : (c.number == n) = true := List.find?_some (p := fun c : Csr => c.number == n) h
  exact (beq_iff_eq.mp hb).symm

/-- Every register asks for more than U-mode. -/
theorem lowestPrivilege_pos (c : Csr) : 0 < c.lowestPrivilege := by cases c <;> decide

namespace Machine

/-! ### The access check (40_csr_access R71) -/

theorem csrCheck_mie (s : State) : csrCheck .mie s = if s.hart.priv = .m then .granted else .illegal := by
  cases h : s.hart.priv <;> cases hv : s.hart.virt <;>
    simp [csrCheck, modeMayAccess, inVS, csrTarget, h, hv, privRank, firstNotGiven, viewFields, Csr.lowestPrivilege,
      Csr.number]

theorem csrCheck_mip (s : State) : csrCheck .mip s = if s.hart.priv = .m then .granted else .illegal := by
  cases h : s.hart.priv <;> cases hv : s.hart.virt <;>
    simp [csrCheck, modeMayAccess, inVS, csrTarget, h, hv, privRank, firstNotGiven, viewFields, Csr.lowestPrivilege,
      Csr.number]

/-- No access of any register is granted in U-mode. -/
theorem csrCheck_user (c : Csr) (s : State) (h : s.hart.priv = .u) : csrCheck c s ≠ .granted := by
  have hp := lowestPrivilege_pos c
  have hm : modeMayAccess c s = false := by simp [modeMayAccess, inVS, privRank, h]; omega
  simp [csrCheck, hm]

/-- What a granted access has passed: the mode may make it, it is not `sie` from VS-mode, and every field of the
register reached is one the spec gives. -/
theorem csrCheck_granted_iff (c : Csr) (s : State) :
    csrCheck c s = .granted ↔ modeMayAccess c s = true ∧ ¬(inVS s = true ∧ c = .sie) ∧
      firstNotGiven (csrTarget c s) s = none := by
  unfold csrCheck
  cases modeMayAccess c s
  · simp
  · cases hs : (inVS s && decide (c = .sie)) <;> cases hf : firstNotGiven (csrTarget c s) s <;> simp_all

/-- No field is left out exactly when each is given. -/
theorem firstNotGiven_eq_none_iff (c : Csr) (s : State) :
    firstNotGiven c s = none ↔ ∀ kf ∈ viewFields c, viewGiven kf.2 s = true := by simp [firstNotGiven]

/-! ### The register reached (60_exceptions R118) -/

@[simp] theorem csrTarget_mie (s : State) : csrTarget .mie s = .mie := by simp [csrTarget]

@[simp] theorem csrTarget_mip (s : State) : csrTarget .mip s = .mip := by simp [csrTarget]

/-- Outside VS-mode a number reaches the register it names. -/
theorem csrTarget_eq_self {s : State} (h : inVS s = false) (c : Csr) : csrTarget c s = c := by simp [csrTarget, h]

/-! ### The cases of a CSR instruction -/

/-- A granted access completes. -/
theorem csrInstr_granted {i : Instr} {csr : CsrNum} {c : Csr} {rd : Reg} {reads : Bool} {rule : WriteRule} {s : State}
    (hn : Csr.ofNumber csr = some c) (hc : csrCheck c s = .granted) :
    csrInstr i csr rd reads rule s = .next (csrComplete (csrTarget c s) rd reads rule s) := by simp [csrInstr, hn, hc]

/-- In M-mode an access to `mie` completes. -/
theorem csrInstr_mie {i : Instr} {rd : Reg} {reads : Bool} {rule : WriteRule} {s : State} (h : s.hart.priv = .m) :
    csrInstr i 0x304 rd reads rule s = .next (csrComplete .mie rd reads rule s) := by
  rw [csrInstr_granted ofNumber_mie (by rw [csrCheck_mie, if_pos h]), csrTarget_mie]

/-- In M-mode an access to `mip` completes. -/
theorem csrInstr_mip {i : Instr} {rd : Reg} {reads : Bool} {rule : WriteRule} {s : State} (h : s.hart.priv = .m) :
    csrInstr i 0x344 rd reads rule s = .next (csrComplete .mip rd reads rule s) := by
  rw [csrInstr_granted ofNumber_mip (by rw [csrCheck_mip, if_pos h]), csrTarget_mip]

/-- An access the mode may not make takes the illegal-instruction exception. -/
theorem csrInstr_illegal {i : Instr} {csr : CsrNum} {c : Csr} {rd : Reg} {reads : Bool} {rule : WriteRule} {s : State}
    (hn : Csr.ofNumber csr = some c) (hc : csrCheck c s = .illegal) :
    csrInstr i csr rd reads rule s = .next (raiseIllegal (encode i) s) := by simp [csrInstr, hn, hc]

/-- Everything a CSR instruction can answer with a next state. -/
theorem csrInstr_cases {i : Instr} {csr : CsrNum} {rd : Reg} {reads : Bool} {rule : WriteRule} {s t : State}
    (h : csrInstr i csr rd reads rule s = .next t) :
    ∃ c, Csr.ofNumber csr = some c ∧
      ((csrCheck c s = .granted ∧ t = csrComplete (csrTarget c s) rd reads rule s) ∨
        (csrCheck c s = .illegal ∧ t = raiseIllegal (encode i) s)) := by
  unfold csrInstr at h
  split at h
  · cases h
  · rename_i c hc
    refine ⟨c, hc, ?_⟩
    split at h
    · rename_i hk; exact .inl ⟨hk, by cases h; rfl⟩
    · rename_i hk; exact .inr ⟨hk, by cases h; rfl⟩
    · cases h

/-- The illegal-instruction exception records what R71 and R100 say and leaves the rest alone. -/
theorem raiseIllegal_entered (w : InstrWord) (s : State) : IllegalEntered w s (raiseIllegal w s) :=
  ⟨⟨rfl, rfl, rfl, rfl, rfl, rfl, rfl, rfl, rfl, rfl, ⟨rfl, rfl, rfl, rfl, rfl⟩, ⟨rfl, rfl, rfl, rfl, rfl⟩, rfl, rfl,
    rfl, rfl, fun _ => rfl⟩, rfl, rfl, rfl, rfl⟩

/-! ### What the parts of a granted access leave alone -/

/-- A write through a view field touches the storage behind `mip`, `mie` and `hvip` only. -/
theorem viewStore_frame (f : ViewField) (b : Bool) (s : State) :
    (viewStore f b s).params = s.params ∧ (viewStore f b s).hart = s.hart ∧ (viewStore f b s).evaln = s.evaln ∧
      (viewStore f b s).code = s.code ∧ (viewStore f b s).agenda = s.agenda ∧ (viewStore f b s).draws = s.draws ∧
      (viewStore f b s).output = s.output ∧ (viewStore f b s).inputs.mideleg = s.inputs.mideleg ∧
      (viewStore f b s).inputs.hideleg = s.inputs.hideleg := by
  cases f <;> simp only [viewStore, writeSie] <;> (try split) <;> simp

/-- The same of a whole view register. -/
theorem storeViewBits_frame (fs : List (Nat × ViewField)) (v : Word) (s : State) :
    (storeViewBits fs v s).params = s.params ∧ (storeViewBits fs v s).hart = s.hart ∧
      (storeViewBits fs v s).evaln = s.evaln ∧ (storeViewBits fs v s).code = s.code ∧
      (storeViewBits fs v s).agenda = s.agenda ∧ (storeViewBits fs v s).draws = s.draws ∧
      (storeViewBits fs v s).output = s.output ∧ (storeViewBits fs v s).inputs.mideleg = s.inputs.mideleg ∧
      (storeViewBits fs v s).inputs.hideleg = s.inputs.hideleg := by
  induction fs generalizing s with
  | nil => simp [storeViewBits]
  | cons p rest ih =>
    obtain ⟨i, f⟩ := p
    have h1 := ih (viewStore f (v.getLsbD i) s)
    have h2 := viewStore_frame f (v.getLsbD i) s
    simp only [storeViewBits]
    simp_all

/-- A CSR write leaves the hart, the parameters, the words and the turns alone, and is evaluated next. -/
theorem csrWrite_frame (c : Csr) (v : Word) (s : State) :
    (csrWrite c v s).params = s.params ∧ (csrWrite c v s).hart = s.hart ∧
      (csrWrite c v s).evaln = s.evaln.after (boundaryNow (csrWrite c v s)) ∧
      (csrWrite c v s).code = s.code ∧ (csrWrite c v s).agenda = s.agenda ∧ (csrWrite c v s).draws = s.draws ∧
      (csrWrite c v s).output = s.output ∧ (csrWrite c v s).inputs.mideleg = s.inputs.mideleg ∧
      (csrWrite c v s).inputs.hideleg = s.inputs.hideleg := by
  cases c <;> simp [csrWrite, storeViewBits_frame]

/-- A read spends at most a free value. -/
theorem noteRead_frame (c : Csr) (s : State) :
    (noteRead c s).params = s.params ∧ (noteRead c s).mie = s.mie ∧ (noteRead c s).pend = s.pend ∧
      (noteRead c s).inputs = s.inputs ∧ (noteRead c s).hart = s.hart ∧ (noteRead c s).evaln = s.evaln ∧
      (noteRead c s).code = s.code ∧ (noteRead c s).agenda = s.agenda ∧ (noteRead c s).output = s.output := by
  cases c <;> simp [noteRead]

/-- A granted access in its two parts: the read of `rd`, then the write, then `pc`. -/
theorem csrComplete_eq (c : Csr) (rd : Reg) (reads : Bool) (rule : WriteRule) (s : State) :
    csrComplete c rd reads rule s =
      advancePc (match rule (csrOld c s) with
        | some v => csrWrite c v (if reads then writeReg rd (csrRead c s) (noteRead c s) else s)
        | none => if reads then writeReg rd (csrRead c s) (noteRead c s) else s) := rfl

end Machine

end Sys2Proof
end

