-- ==== Sys2Proof/Laws/Decode.lean ====
section
/-! SUPPORT. The encoder's words, field by field. -/

namespace Sys2Proof

/-- An I-type word bit by bit (30_encoding R60). -/
theorem encodeCsrForm_getLsbD (csr : CsrNum) (src : BitVec 5) (f3 : BitVec 3) (rd : Reg) (i : Nat) :
    (encodeCsrForm csr src f3 rd).getLsbD i =
      if i < 7 then opcodeSystem.getLsbD i
      else if i - 7 < 5 then (BitVec.ofFin rd : BitVec 5).getLsbD (i - 7)
      else if i - 7 - 5 < 3 then f3.getLsbD (i - 7 - 5)
      else if i - 7 - 5 - 3 < 5 then src.getLsbD (i - 7 - 5 - 3)
      else csr.getLsbD (i - 7 - 5 - 3 - 5) := by
  show BitVec.getLsbD (w := 12 + 5 + 3 + 5 + 7) (csr ++ src ++ f3 ++ (BitVec.ofFin rd : BitVec 5) ++ opcodeSystem) i = _
  simp only [BitVec.getLsbD_append]

/-! ### The fields of an I-type word -/

@[simp] theorem fieldOpcode_encodeCsrForm (csr : CsrNum) (src : BitVec 5) (f3 : BitVec 3) (rd : Reg) :
    fieldOpcode (encodeCsrForm csr src f3 rd) = opcodeSystem := by
  refine BitVec.eq_of_getLsbD_eq (fun i hi => ?_)
  simp only [fieldOpcode, BitVec.getLsbD_extractLsb', encodeCsrForm_getLsbD, Nat.zero_add, hi, decide_true,
    Bool.true_and, if_true]

@[simp] theorem fieldFunct3_encodeCsrForm (csr : CsrNum) (src : BitVec 5) (f3 : BitVec 3) (rd : Reg) :
    fieldFunct3 (encodeCsrForm csr src f3 rd) = f3 := by
  refine BitVec.eq_of_getLsbD_eq (fun i hi => ?_)
  have h1 : ¬ 12 + i < 7 := by omega
  have h2 : ¬ 12 + i - 7 < 5 := by omega
  have h3 : 12 + i - 7 - 5 = i := by omega
  simp only [fieldFunct3, BitVec.getLsbD_extractLsb', encodeCsrForm_getLsbD, h1, h2, h3, hi, decide_true,
    Bool.true_and, if_true, if_false]

@[simp] theorem fieldRd_encodeCsrForm (csr : CsrNum) (src : BitVec 5) (f3 : BitVec 3) (rd : Reg) :
    fieldRd (encodeCsrForm csr src f3 rd) = rd := by
  have h : (encodeCsrForm csr src f3 rd).extractLsb' 7 5 = BitVec.ofFin rd := by
    refine BitVec.eq_of_getLsbD_eq (fun i hi => ?_)
    have h1 : ¬ 7 + i < 7 := by omega
    have h2 : 7 + i - 7 = i := by omega
    simp only [BitVec.getLsbD_extractLsb', encodeCsrForm_getLsbD, h1, h2, hi, decide_true, Bool.true_and, if_true,
      if_false]
  rw [fieldRd, h]

/-- Bits 19:15, whichever operand they hold. -/
theorem source_encodeCsrForm (csr : CsrNum) (src : BitVec 5) (f3 : BitVec 3) (rd : Reg) :
    (encodeCsrForm csr src f3 rd).extractLsb' 15 5 = src := by
  refine BitVec.eq_of_getLsbD_eq (fun i hi => ?_)
  have h1 : ¬ 15 + i < 7 := by omega
  have h2 : ¬ 15 + i - 7 < 5 := by omega
  have h3 : ¬ 15 + i - 7 - 5 < 3 := by omega
  have h4 : 15 + i - 7 - 5 - 3 = i := by omega
  simp only [BitVec.getLsbD_extractLsb', encodeCsrForm_getLsbD, h1, h2, h3, h4, hi, decide_true, Bool.true_and,
    if_true, if_false]

@[simp] theorem fieldRs1_encodeCsrForm (csr : CsrNum) (rs1 : Reg) (f3 : BitVec 3) (rd : Reg) :
    fieldRs1 (encodeCsrForm csr (BitVec.ofFin rs1) f3 rd) = rs1 := by
  rw [fieldRs1, source_encodeCsrForm]

@[simp] theorem fieldUimm_encodeCsrForm (csr : CsrNum) (uimm : Uimm) (f3 : BitVec 3) (rd : Reg) :
    fieldUimm (encodeCsrForm csr uimm f3 rd) = uimm := source_encodeCsrForm csr uimm f3 rd

@[simp] theorem fieldCsr_encodeCsrForm (csr : CsrNum) (src : BitVec 5) (f3 : BitVec 3) (rd : Reg) :
    fieldCsr (encodeCsrForm csr src f3 rd) = csr := by
  refine BitVec.eq_of_getLsbD_eq (fun i hi => ?_)
  have h1 : ¬ 20 + i < 7 := by omega
  have h2 : ¬ 20 + i - 7 < 5 := by omega
  have h3 : ¬ 20 + i - 7 - 5 < 3 := by omega
  have h4 : ¬ 20 + i - 7 - 5 - 3 < 5 := by omega
  have h5 : 20 + i - 7 - 5 - 3 - 5 = i := by omega
  simp only [fieldCsr, BitVec.getLsbD_extractLsb', encodeCsrForm_getLsbD, h1, h2, h3, h4, h5, hi, decide_true,
    Bool.true_and, if_false]

end Sys2Proof
end

