-- ==== Sys2Proof/Laws/Exec.lean ====
section
/-! SUPPORT. Everything `exec` can answer with a next state, and what every instruction leaves alone. -/

namespace Sys2Proof.Machine

/-- What a granted CSR access leaves alone, whatever the register. -/
theorem csrComplete_frame (c : Csr) (rd : Reg) (reads : Bool) (rule : WriteRule) (s : State) :
    (csrComplete c rd reads rule s).params = s.params ∧ (csrComplete c rd reads rule s).code = s.code ∧
      (csrComplete c rd reads rule s).agenda = s.agenda ∧ (csrComplete c rd reads rule s).output = s.output ∧
      (csrComplete c rd reads rule s).inputs.mideleg = s.inputs.mideleg ∧
      (csrComplete c rd reads rule s).inputs.hideleg = s.inputs.hideleg := by
  have hn := noteRead_frame c s
  rw [csrComplete_eq]
  cases rule (csrOld c s) with
  | none => cases reads <;> simp [hn]
  | some v => cases reads <;> simp [hn, csrWrite_frame]

/-- Everything an instruction that goes on can be: a granted CSR access, the illegal-instruction exception, a return. -/
theorem exec_cases {i : Instr} {s t : State} (h : exec i s = .next t) :
    (∃ c rd reads rule, csrCheck c s = .granted ∧ t = csrComplete (csrTarget c s) rd reads rule s) ∨
      t = raiseIllegal (encode i) s ∨ (i = .mret ∧ s.hart.priv = .m ∧ t = returnFromM s) ∨
      (i = .sret ∧ sretIllegal s = false ∧ t = returnFromS s) := by
  have csr : ∀ {csr : CsrNum} {rd : Reg} {reads : Bool} {rule : WriteRule},
      csrInstr i csr rd reads rule s = .next t →
      (∃ c rd reads rule, csrCheck c s = .granted ∧ t = csrComplete (csrTarget c s) rd reads rule s) ∨
        t = raiseIllegal (encode i) s := by
    intro csr rd reads rule hh
    obtain ⟨c, -, ⟨hk, rfl⟩ | ⟨-, rfl⟩⟩ := csrInstr_cases hh
    · exact .inl ⟨c, rd, reads, rule, hk, rfl⟩
    · exact .inr rfl
  cases i with
  | mret =>
    simp only [exec, execMret] at h
    split at h
    · rename_i hm; cases h; exact .inr (.inr (.inl ⟨rfl, hm, rfl⟩))
    · cases h; exact .inr (.inl rfl)
  | sret =>
    simp only [exec, execSret] at h
    split at h
    · cases h; exact .inr (.inl rfl)
    · rename_i hs; cases h; exact .inr (.inr (.inr ⟨rfl, by simpa using hs, rfl⟩))
  | csrrw rd n rs1 => exact (csr h).imp id .inl
  | csrrs rd n rs1 => exact (csr h).imp id .inl
  | csrrc rd n rs1 => exact (csr h).imp id .inl
  | csrrwi rd n uimm => exact (csr h).imp id .inl
  | csrrsi rd n uimm => exact (csr h).imp id .inl
  | csrrci rd n uimm => exact (csr h).imp id .inl

/-- No instruction changes the parameters, the instruction words, the turns, the output, or the delegation inputs. -/
theorem exec_frame {i : Instr} {s t : State} (h : exec i s = .next t) :
    t.params = s.params ∧ t.code = s.code ∧ t.agenda = s.agenda ∧ t.output = s.output ∧
      t.inputs.mideleg = s.inputs.mideleg ∧ t.inputs.hideleg = s.inputs.hideleg := by
  obtain ⟨c, rd, reads, rule, -, rfl⟩ | rfl | ⟨-, -, rfl⟩ | ⟨-, -, rfl⟩ := exec_cases h
  · exact csrComplete_frame (csrTarget c s) rd reads rule s
  · exact ⟨rfl, rfl, rfl, rfl, rfl, rfl⟩
  · exact ⟨rfl, rfl, rfl, rfl, rfl, rfl⟩
  · exact ⟨rfl, rfl, rfl, rfl, rfl, rfl⟩

/-- An explicit write or a return leaves the next boundary due for evaluation (60_exceptions R109). -/
theorem csrComplete_written {c : Csr} {rd : Reg} {reads : Bool} {rule : WriteRule} {s : State} {v : Word}
    (h : rule (csrOld c s) = some v) :
    (csrComplete c rd reads rule s).evaln = s.evaln.after (boundaryNow (csrComplete c rd reads rule s)) := by
  have hn := noteRead_frame c s
  rw [csrComplete_eq, h]
  cases reads <;> simp [csrWrite_frame, hn]

/-- A granted access that writes nothing leaves the evaluation logic, `mie`, the storage and the inputs alone. -/
theorem csrComplete_unwritten {c : Csr} {rd : Reg} {reads : Bool} {rule : WriteRule} {s : State}
    (h : rule (csrOld c s) = none) :
    (csrComplete c rd reads rule s).evaln = s.evaln ∧ (csrComplete c rd reads rule s).mie = s.mie ∧
      (csrComplete c rd reads rule s).pend = s.pend ∧ (csrComplete c rd reads rule s).inputs = s.inputs := by
  have hn := noteRead_frame c s
  rw [csrComplete_eq, h]
  cases reads <;> simp [hn]

/-- An instruction either leaves the next boundary due for evaluation or leaves the evaluation logic as it was. -/
theorem exec_evaln {i : Instr} {s t : State} (h : exec i s = .next t) :
    t.evaln = s.evaln.after (boundaryNow t) ∨ t.evaln = s.evaln := by
  obtain ⟨c, rd, reads, rule, -, rfl⟩ | rfl | ⟨-, -, rfl⟩ | ⟨-, -, rfl⟩ := exec_cases h
  · cases hw : rule (csrOld (csrTarget c s) s) with
    | none => exact .inr (csrComplete_unwritten hw).1
    | some v => exact .inl (csrComplete_written hw)
  · exact .inr rfl
  · exact .inl rfl
  · exact .inl rfl

end Sys2Proof.Machine
end

