-- ==== Sys2Proof/Laws/Interrupts.lean ====
section
/-! SUPPORT. The evaluation logic: the condition bit by bit, the two history folds, what the priority order covers, and
the cases of a boundary's decision. -/

namespace Sys2Proof.Machine

/-! ### The condition -/

/-- Bit `i` of `condSet` is `cond(i)`. -/
theorem condSet_getLsbD (s : State) (i : Nat) : (condSet s).getLsbD i = trapCond i s := by
  unfold condSet trapCond
  split <;> simp_all

/-- `cond(i)` in its parts. -/
theorem trapCond_iff (i : Nat) (s : State) :
    trapCond i s = true ↔ mGlobal s = true ∧ (mipRead s).getLsbD i = true ∧ s.mie.getLsbD i = true ∧
      s.inputs.mideleg.getLsbD i = false := by
  by_cases hi : i < 64
  · simp only [trapCond, mCand, mieRead, BitVec.getLsbD_and, BitVec.getLsbD_not, hi, decide_true, Bool.true_and,
      Bool.and_eq_true, Bool.not_eq_eq_eq_not, Bool.not_true, and_assoc]
  · have h : ∀ v : Word, v.getLsbD i = false := fun v => BitVec.getLsbD_of_ge v i (by omega)
    simp [trapCond, h]

/-- No interrupt has a number of 64 or above. -/
theorem trapCond_lt {i : Nat} {s : State} (h : trapCond i s = true) : i < 64 := by
  by_contra hge
  have := ((trapCond_iff i s).mp h).2.1
  rw [BitVec.getLsbD_of_ge _ i (by omega)] at this
  cases this

theorem condSet_ne_zero_iff (s : State) : condSet s ≠ 0 ↔ ∃ i, i < 64 ∧ trapCond i s = true := by
  simp only [word_ne_zero_iff, condSet_getLsbD]

/-- An input drives only bits that one can drive; MSIP is none of them. -/
theorem inputDriven_drivable (s : State) : inputDriven s &&& ~~~s.params.inputDrivable = 0 := by
  rw [within_iff]
  intro i hi
  simp only [inputDriven, BitVec.getLsbD_or, Bool.or_eq_true, atBit_getLsbD, Bool.and_eq_true, decide_eq_true_eq] at hi
  simp only [Params.inputDrivable, BitVec.getLsbD_or, Bool.or_eq_true, BitVec.getLsbD_and, Bool.and_eq_true]
  rcases hi with ((((((⟨⟨rfl, _⟩, _⟩ | ⟨⟨rfl, _⟩, _⟩) | ⟨⟨rfl, _⟩, _⟩) | ⟨⟨rfl, _⟩, _⟩) | ⟨⟨rfl, _⟩, _⟩) | ⟨⟨rfl, _⟩, _⟩) |
    ⟨⟨rfl, _⟩, _⟩) | h
  all_goals first
    | left; decide
    | right; simp only [BitVec.getLsbD_and, Bool.and_eq_true] at h; exact ⟨h.1.2, h.2⟩

theorem inputDrivable_msip (p : Params) : p.inputDrivable.getLsbD 3 = false := by
  simp [Params.inputDrivable, Params.platformBits, Params.fit]

/-! ### The history -/

/-- An interrupt is in `heldThroughout` when it holds now and held at each boundary. -/
theorem heldThroughout_getLsbD (bs : List Boundary) (now : Word) (i : Nat) :
    (heldThroughout bs now).getLsbD i = true ↔ now.getLsbD i = true ∧ ∀ b ∈ bs, b.held.getLsbD i = true := by
  induction bs generalizing now with
  | nil => simp [heldThroughout]
  | cons b rest ih => simp [heldThroughout, ih, and_assoc]

/-- An interrupt is in `drivenBefore` when an input drove it at some boundary. -/
theorem drivenBefore_getLsbD (bs : List Boundary) (i : Nat) :
    (drivenBefore bs).getLsbD i = true ↔ ∃ b ∈ bs, b.driven.getLsbD i = true := by
  induction bs with
  | nil => simp [drivenBefore]
  | cons b rest ih => simp [drivenBefore, ih]

/-- The history forces an interrupt when some condition holds, that many boundaries lie behind, and it held at each. -/
theorem heldForBound_iff (s : State) : heldForBound s = true ↔ s.params.evalBound ≤ s.evaln.recent.length ∧
    ∃ i, trapCond i s = true ∧ ∀ b ∈ s.evaln.recent.take s.params.evalBound, b.held.getLsbD i = true := by
  simp only [heldForBound, Bool.and_eq_true, decide_eq_true_eq, word_ne_zero_iff, heldThroughout_getLsbD,
    condSet_getLsbD]
  refine and_congr_right fun _ => ⟨fun ⟨i, _, h⟩ => ⟨i, h⟩, fun ⟨i, h⟩ => ⟨i, ?_, h⟩⟩
  exact trapCond_lt h.1

/-- A stale interrupt in its parts. -/
theorem staleSet_getLsbD (s : State) (i : Nat) :
    (staleSet s).getLsbD i = true ↔ mGlobal s = true ∧ (∃ b ∈ s.evaln.recent.take s.params.evalBound, b.driven.getLsbD i = true) ∧
      (mipRead s).getLsbD i = false ∧ s.mie.getLsbD i = true ∧ s.inputs.mideleg.getLsbD i = false := by
  by_cases hi : i < 64
  · cases hg : mGlobal s
    · simp [staleSet, hg]
    · simp only [staleSet, hg, if_true, BitVec.getLsbD_and, BitVec.getLsbD_not, hi, decide_true, Bool.true_and,
        Bool.and_eq_true, drivenBefore_getLsbD, mieRead, Bool.not_eq_eq_eq_not, Bool.not_true, true_and, and_assoc]
  · have h : ∀ v : Word, v.getLsbD i = false := fun v => BitVec.getLsbD_of_ge v i (by omega)
    simp [h]

/-- With `EVAL_BOUND` = 0 nothing is stale. -/
theorem staleSet_zero {s : State} (h : s.params.evalBound = 0) : staleSet s = 0 := by
  simp [staleSet, h, drivenBefore]

/-! ### The priority order covers every interrupt that can be a candidate -/

/-- Every number below 64 from 16 up, and every standard interrupt, stands in the order. -/
theorem mem_order (p : Params) {i : Nat} (h : 16 ≤ i ∧ i < 64 ∨ i ∈ [11, 3, 7, 9, 1, 5, 12, 10, 2, 6, 13]) :
    i ∈ p.order := by
  unfold Params.order
  rcases h with h | h
  · exact List.mem_append_left _ (List.mem_append_right _ (by rw [List.mem_range']; exact ⟨i - 16, by omega, by omega⟩))
  · exact List.mem_append_right _ h

/-- A pending interrupt stands in the order. -/
theorem pending_mem_order (s : State) {i : Nat} (h : (mipRead s).getLsbD i = true) : i ∈ s.params.order := by
  refine mem_order _ ?_
  by_cases hi : i < 16
  · rw [mipRead, mipWithSEIP_low _ _ hi] at h
    revert h
    refine (by decide : ∀ j : Fin 16, j.val ∉ [11, 3, 7, 9, 1, 5, 12, 10, 2, 6, 13] → ∀ a b c d e f g k l m : Bool,
      (decide (1 = j.val) && a || decide (2 = j.val) && b || decide (5 = j.val) && c || decide (6 = j.val) && d ||
        decide (7 = j.val) && e || decide (9 = j.val) && f || decide (10 = j.val) && g || decide (11 = j.val) && k ||
        decide (12 = j.val) && l || decide (13 = j.val) && m) = false) ⟨i, hi⟩ |> fun H h => ?_
    by_contra hn
    push Not at hn
    rw [H hn.2] at h
    cases h
  · left
    refine ⟨by omega, ?_⟩
    by_contra hge
    rw [BitVec.getLsbD_of_ge _ i (by omega)] at h
    cases h

/-- Some interrupt is selected exactly when some condition holds (60_exceptions R110). -/
theorem selectMInterrupt_isSome (s : State) : (selectMInterrupt s).isSome = true ↔ condSet s ≠ 0 := by
  rw [condSet_ne_zero_iff]
  constructor
  · intro h
    obtain ⟨i, hi⟩ := Option.isSome_iff_exists.mp h
    unfold selectMInterrupt at hi
    split at hi
    · rename_i hg
      have hb := List.find?_some hi
      refine ⟨i, ?_, by simp [trapCond, hg, hb]⟩
      by_contra hge
      rw [BitVec.getLsbD_of_ge _ i (by omega)] at hb
      cases hb
    · cases hi
  · rintro ⟨i, _, hc⟩
    have hp := (trapCond_iff i s).mp hc
    have hm := pending_mem_order s hp.2.1
    unfold selectMInterrupt firstInOrder
    rw [if_pos hp.1, List.find?_isSome]
    refine ⟨i, hm, ?_⟩
    simpa [trapCond, hp.1] using hc

/-- A selected interrupt's condition holds. -/
theorem selectMInterrupt_trapCond {s : State} {i : Nat} (h : selectMInterrupt s = some i) : trapCond i s = true := by
  unfold selectMInterrupt at h
  split at h
  · rename_i hg
    simpa [trapCond, hg] using List.find?_some h
  · cases h

/-- Where a condition held after the instruction, an interrupt was found, and its condition held then. -/
theorem settledInterrupt_eq_some {s : State} {i : Nat} (h : settledInterrupt s = some i) :
    ∃ b, s.evaln.due = some b ∧ b.held.getLsbD i = true ∧ firstInOrder s.params b.held = some i := by
  unfold settledInterrupt at h
  split at h
  · cases h
  · rename_i b hb
    exact ⟨b, hb, List.find?_some h, h⟩

/-- An interrupt was found after the instruction exactly when the condition of one that stands in the order held. -/
theorem settledInterrupt_isSome (s : State) : (settledInterrupt s).isSome = true ↔
    ∃ b, s.evaln.due = some b ∧ ∃ i ∈ s.params.order, b.held.getLsbD i = true := by
  unfold settledInterrupt
  cases s.evaln.due with
  | none => simp
  | some b => simp [firstInOrder]

/-- What the evaluation right after an instruction finds is what the values then select. -/
theorem settledInterrupt_after {s : State} (h : s.evaln.due = some (boundaryNow s)) :
    settledInterrupt s = selectMInterrupt s := by
  simp only [settledInterrupt, h, boundaryNow, selectMInterrupt, condSet]
  cases mGlobal s
  · simp [firstInOrder]
  · simp

/-! ### The decision -/

/-- An interrupt must be taken when the evaluation right after an xRET or explicit write found one, or by the history. -/
theorem mustTake_iff (s : State) :
    mustTake s = true ↔ (settledInterrupt s).isSome = true ∨ heldForBound s = true := by simp [mustTake]

/-- The history forces nothing where no condition holds. -/
theorem heldForBound_condSet {s : State} (h : heldForBound s = true) : condSet s ≠ 0 := by
  obtain ⟨_, i, hi, _⟩ := (heldForBound_iff s).mp h
  exact (condSet_ne_zero_iff s).mpr ⟨i, trapCond_lt hi, hi⟩

/-- With `EVAL_BOUND` = 0 the history forces an interrupt exactly when some condition holds. -/
theorem heldForBound_zero {s : State} (h : s.params.evalBound = 0) : heldForBound s = true ↔ condSet s ≠ 0 := by
  refine ⟨heldForBound_condSet, fun hc => ?_⟩
  obtain ⟨i, _, hi⟩ := (condSet_ne_zero_iff s).mp hc
  exact (heldForBound_iff s).mpr ⟨by omega, i, hi, by simp [h]⟩

/-- An interrupt that is forced is the selected one or the one found right after the instruction, where one must be taken. -/
theorem forcedInterrupt_eq_some {s : State} {i : Nat} (h : forcedInterrupt s = some i) :
    mustTake s = true ∧ (selectMInterrupt s = some i ∨ settledInterrupt s = some i) := by
  unfold forcedInterrupt at h
  split at h
  · exact ⟨‹_›, (Option.or_eq_some_iff.mp h).imp id And.right⟩
  · cases h

/-- Where an interrupt must be taken, one is forced. -/
theorem forcedInterrupt_must {s : State} (h : mustTake s = true) : ∃ i, forcedInterrupt s = some i := by
  rw [← Option.isSome_iff_exists, forcedInterrupt, if_pos h, Option.isSome_or, Bool.or_eq_true]
  obtain h | h := (mustTake_iff s).mp h
  · exact .inr h
  · exact .inl ((selectMInterrupt_isSome s).mpr (heldForBound_condSet h))

/-- Everything a boundary can decide to take: the selected interrupt; the one found right after the instruction; or a stale
one, where nothing must be taken. -/
theorem decideInterrupt_some {c : EvalChoice} {s : State} {i : Nat} (h : decideInterrupt c s = some i) :
    selectMInterrupt s = some i ∨ settledInterrupt s = some i ∨
      (mustTake s = false ∧ c = .stale i ∧ (staleSet s).getLsbD i = true) := by
  have forced := fun h => (forcedInterrupt_eq_some (s := s) (i := i) h).2
  unfold decideInterrupt at h
  cases c with
  | defer => exact (forced h).imp id .inl
  | present => exact (Option.or_eq_some_iff.mp h).elim .inl fun h => (forced h.2).imp id .inl
  | stale j =>
    simp only at h
    split at h
    · rename_i hs
      cases h
      exact .inr (.inr ⟨hs.1, rfl, hs.2⟩)
    · exact (forced h).imp id .inl
  | settled => exact (Option.or_eq_some_iff.mp h).elim (.inr ∘ .inl) fun h => (forced h.2).imp id .inl

/-- Where something must be taken, something is, whatever the choice: the selected interrupt, or the one found right after
the instruction. -/
theorem decideInterrupt_must {s : State} (c : EvalChoice) (h : mustTake s = true) :
    ∃ i, decideInterrupt c s = some i ∧ (selectMInterrupt s = some i ∨ settledInterrupt s = some i) := by
  obtain ⟨i, hi⟩ := forcedInterrupt_must h
  have hd : ∃ i, decideInterrupt c s = some i := by
    rw [← Option.isSome_iff_exists]
    cases c <;> simp [decideInterrupt, h, hi]
  obtain ⟨j, hj⟩ := hd
  refine ⟨j, hj, ?_⟩
  obtain h1 | h1 | ⟨h1, _⟩ := decideInterrupt_some hj
  · exact .inl h1
  · exact .inr h1
  · rw [h] at h1; cases h1

/-- With nothing due, a boundary where something must be taken takes the selected interrupt. -/
theorem decideInterrupt_must_undue {s : State} (c : EvalChoice) (h : mustTake s = true) (hd : s.evaln.due = none) :
    decideInterrupt c s = selectMInterrupt s := by
  obtain ⟨i, hi, h | h⟩ := decideInterrupt_must c h
  · rw [hi, h]
  · simp [settledInterrupt, hd] at h

/-- Where no condition holds, none is stale and none held after the instruction, nothing is taken. -/
theorem decideInterrupt_quiet {c : EvalChoice} {s : State} (h1 : condSet s = 0) (h2 : staleSet s = 0)
    (h3 : settledInterrupt s = none) : decideInterrupt c s = none := by
  have hs : selectMInterrupt s = none := by
    have := mt (selectMInterrupt_isSome s).mp (not_not.mpr h1)
    simpa using this
  by_contra hn
  obtain ⟨i, hi⟩ := Option.ne_none_iff_exists'.mp hn
  rcases decideInterrupt_some hi with h | h | ⟨_, _, h⟩
  · rw [hs] at h; cases h
  · rw [h3] at h; cases h
  · simp [h2] at h

/-- With the M-mode interrupts globally off and nothing due, nothing is taken. -/
theorem decideInterrupt_off {c : EvalChoice} {s : State} (h : mGlobal s = false) (hd : s.evaln.due = none) :
    decideInterrupt c s = none :=
  decideInterrupt_quiet (by simp [condSet, h]) (by simp [staleSet, h]) (by simp [settledInterrupt, hd])

/-- With `EVAL_BOUND` = 0 and some condition holding, an interrupt is forced. -/
theorem mustTake_zero {s : State} (h : s.params.evalBound = 0) (hc : condSet s ≠ 0) : mustTake s = true :=
  (mustTake_iff s).mpr (.inr ((heldForBound_zero h).mpr hc))

/-- Right after an xRET or explicit write, with no other agent's step in between, the choice does not come in: the
boundary decides by the values as they stand (60_exceptions R109). -/
theorem decideInterrupt_after {c : EvalChoice} {s : State} (h1 : s.evaln.due = some (boundaryNow s))
    (h2 : ∀ b ∈ s.evaln.recent, b.driven = 0) : decideInterrupt c s = selectMInterrupt s := by
  have hst : staleSet s = 0 := by
    by_contra hn
    obtain ⟨i, _, hi⟩ := (word_ne_zero_iff _).mp hn
    obtain ⟨_, ⟨b, hb, hd⟩, _⟩ := (staleSet_getLsbD s i).mp hi
    simp [h2 b (List.mem_of_mem_take hb)] at hd
  have hset := settledInterrupt_after h1
  cases hc : selectMInterrupt s with
  | none =>
    refine decideInterrupt_quiet ?_ hst (hset.trans hc)
    by_contra hn
    simpa [hc] using (selectMInterrupt_isSome s).mpr hn
  | some i =>
    obtain ⟨j, hj, h | h⟩ := decideInterrupt_must c ((mustTake_iff s).mpr (.inl (by simp [hset, hc])))
    · rw [hj, ← h, hc]
    · rw [hj, ← h, hset, hc]

end Sys2Proof.Machine
end

