-- ==== Sys2Proof/Laws/PerInstr.lean ====
section
/-! SUPPORT. Statements made per instruction. Family EncodeFunct3: what `funct3` and `opcode` an instruction's word
carries (30_encoding R60, R63, R64). -/

namespace Sys2Proof.Laws.EncodeFunct3

/-- The `funct3` of each instruction in the opcode map (30_encoding R63, R64). -/
def funct3Of : Instr → BitVec 3
  | .csrrw _ _ _ => 0b001
  | .csrrs _ _ _ => 0b010
  | .csrrc _ _ _ => 0b011
  | .csrrwi _ _ _ => 0b101
  | .csrrsi _ _ _ => 0b110
  | .csrrci _ _ _ => 0b111
  | .mret => 0b000
  | .sret => 0b000

/-- The instruction's word has the SYSTEM opcode and the `funct3` the opcode map gives it. -/
def Statement (i : Instr) : Prop := fieldOpcode (encode i) = 0x73 ∧ fieldFunct3 (encode i) = funct3Of i

theorem csrrw (rd : Reg) (csr : CsrNum) (rs1 : Reg) : Statement (.csrrw rd csr rs1) :=
  ⟨fieldOpcode_encodeCsrForm .., fieldFunct3_encodeCsrForm ..⟩

theorem csrrs (rd : Reg) (csr : CsrNum) (rs1 : Reg) : Statement (.csrrs rd csr rs1) :=
  ⟨fieldOpcode_encodeCsrForm .., fieldFunct3_encodeCsrForm ..⟩

theorem csrrc (rd : Reg) (csr : CsrNum) (rs1 : Reg) : Statement (.csrrc rd csr rs1) :=
  ⟨fieldOpcode_encodeCsrForm .., fieldFunct3_encodeCsrForm ..⟩

theorem csrrwi (rd : Reg) (csr : CsrNum) (uimm : Uimm) : Statement (.csrrwi rd csr uimm) :=
  ⟨fieldOpcode_encodeCsrForm .., fieldFunct3_encodeCsrForm ..⟩

theorem csrrsi (rd : Reg) (csr : CsrNum) (uimm : Uimm) : Statement (.csrrsi rd csr uimm) :=
  ⟨fieldOpcode_encodeCsrForm .., fieldFunct3_encodeCsrForm ..⟩

theorem csrrci (rd : Reg) (csr : CsrNum) (uimm : Uimm) : Statement (.csrrci rd csr uimm) :=
  ⟨fieldOpcode_encodeCsrForm .., fieldFunct3_encodeCsrForm ..⟩

theorem mret : Statement .mret := ⟨by decide, by decide⟩

theorem sret : Statement .sret := ⟨by decide, by decide⟩

end Sys2Proof.Laws.EncodeFunct3
end

