-- ==== Sys2Proof/Laws/Turns.lean ====
section
/-! SUPPORT. The turns: what the due turn starts from, and everything a step can be. -/

namespace Sys2Proof.Machine

/-- The due turn's state differs in the agenda, the draws and the output only. -/
theorem dueTurn_frame (s : State) :
    (dueTurn s).2.params = s.params ∧ (dueTurn s).2.mie = s.mie ∧ (dueTurn s).2.pend = s.pend ∧
      (dueTurn s).2.inputs = s.inputs ∧ (dueTurn s).2.hart = s.hart ∧ (dueTurn s).2.evaln = s.evaln ∧
      (dueTurn s).2.code = s.code ∧ (dueTurn s).2.output = none := by
  unfold dueTurn
  split <;> simp

/-- A turn taken off the agenda. -/
theorem dueTurn_cons {s : State} {t : Turn} {rest : List Turn} (h : s.agenda = t :: rest) :
    dueTurn s = (t, { s with agenda := rest, output := none }) := by simp [dueTurn, h]

/-- With no turn listed, the due one is a free value. -/
theorem dueTurn_nil {s : State} (h : s.agenda = []) :
    dueTurn s = (Config.freeTurn s.draws, { s with draws := s.draws + 1, output := none }) := by simp [dueTurn, h]

/-- An agent's due turn is the step. -/
theorem step_env {s s0 : State} {e : EnvEvent} (h : dueTurn s = (.env e, s0)) : step s = .next (applyEvent e s0) := by
  simp [step, h, takeTurn]

/-- What a change of STCE does: the input, and a draw of `STIP_b` on a change from 1 to 0 (10_state R33). -/
theorem changeStce_frame (b : Bool) (s : State) :
    (changeStce b s).params = s.params ∧ (changeStce b s).mie = s.mie ∧ (changeStce b s).hart = s.hart ∧
      (changeStce b s).inputs = { s.inputs with stce := b } ∧
      (changeStce b s).pend =
        { s.pend with stip := if s.inputs.stce && !b then Config.stipDraw s.draws else s.pend.stip } ∧
      (changeStce b s).evaln = s.evaln ∧ (changeStce b s).code = s.code ∧ (changeStce b s).agenda = s.agenda ∧
      (changeStce b s).output = s.output := by
  unfold changeStce
  cases s.inputs.stce <;> cases b <;> simp

/-- The evaluation logic sees nothing of the agenda, the draws and the output. -/
theorem decideInterrupt_congr {s t : State} (c : EvalChoice) (h1 : t.params = s.params) (h2 : t.mie = s.mie)
    (h3 : t.pend = s.pend) (h4 : t.inputs = s.inputs) (h5 : t.hart = s.hart) (h6 : t.evaln = s.evaln) :
    decideInterrupt c t = decideInterrupt c s := by
  obtain ⟨⟩ := s
  obtain ⟨⟩ := t
  simp only at h1 h2 h3 h4 h5 h6
  subst h1 h2 h3 h4 h5 h6
  rfl

/-- An agent's step leaves the parameters and the turns to come alone, and puts out nothing. -/
theorem applyEvent_frame (e : EnvEvent) (s : State) :
    (applyEvent e s).params = s.params ∧ (applyEvent e s).agenda = s.agenda ∧
      (s.output = none → (applyEvent e s).output = none) := by
  cases e <;> simp [applyEvent, changeStce_frame, resetNow, State.resetWith]

/-- An agent's step, reset aside, leaves `mie` and the evaluation logic as they were: what is due stays as the instruction
left it. -/
theorem applyEvent_evaln {e : EnvEvent} (s : State) (he : e ≠ .reset) :
    (applyEvent e s).evaln = s.evaln ∧ (applyEvent e s).mie = s.mie := by
  cases e <;> simp_all [applyEvent, changeStce_frame]

/-- An effect of an instruction outside this spec leaves the parameters, the words, the turns, the output and the evaluation
logic alone. -/
theorem applyEffect_frame (e : HartEffect) (s : State) :
    (applyEffect e s).params = s.params ∧ (applyEffect e s).agenda = s.agenda ∧ (applyEffect e s).output = s.output ∧
      (applyEffect e s).evaln = s.evaln ∧ (applyEffect e s).code = s.code := by
  cases e <;> simp [applyEffect, changeStce_frame, viewStore_frame]

/-- The same of all its effects. -/
theorem applyEffects_frame {es : List HartEffect} {s t : State} (h : applyEffects es s = .next t) :
    t.params = s.params ∧ t.agenda = s.agenda ∧ t.output = s.output ∧ t.evaln = s.evaln ∧ t.code = s.code := by
  induction es generalizing s with
  | nil => cases h; simp
  | cons e rest ih =>
    simp only [applyEffects] at h
    split at h
    · cases h
    · have := ih h
      have := applyEffect_frame e s
      simp_all

/-- An instruction outside this spec that goes on leaves the parameters, the words, the turns and the output alone, and the
next boundary due for evaluation exactly where it made an explicit write or was an xRET. -/
theorem runForeign_frame {es : List HartEffect} {s t : State} (h : runForeign es s = .next t) :
    t.params = s.params ∧ t.agenda = s.agenda ∧ t.output = s.output ∧ t.code = s.code ∧
      t.evaln = if es.any HartEffect.evaluated then s.evaln.after (boundaryNow t) else s.evaln := by
  unfold runForeign at h
  split at h
  · rename_i u hu
    cases h
    simp [applyEffects_frame hu]
  · cases h
  · cases h

/-- A turn of the hart whose boundary decides to take an interrupt takes it, in place of whatever instruction was due. -/
theorem step_taken {s s0 : State} {c : EvalChoice} {i : Nat}
    (h : dueTurn s = (.hart c, s0) ∨ ∃ es, dueTurn s = (.foreign c es, s0)) (hi : decideInterrupt c s0 = some i) :
    step s = .next (takeMInterrupt i (passBoundary s0)) := by
  obtain h | ⟨es, h⟩ := h <;> simp [step, h, takeTurn, atBoundary, hi]

/-- A turn of an instruction outside this spec, where no interrupt is taken. -/
theorem step_foreign {s s0 : State} {c : EvalChoice} {es : List HartEffect} (h : dueTurn s = (.foreign c es, s0))
    (hi : decideInterrupt c s0 = none) : step s = runForeign es (passBoundary s0) := by
  simp [step, h, takeTurn, atBoundary, hi]

/-- Everything a step that goes on can be: an interrupt taken at a boundary, an instruction run after one, one of the eight
or another, or another agent's step. -/
theorem step_cases {s t : State} (h : step s = .next t) :
    (∃ c s0 i, (dueTurn s = (.hart c, s0) ∨ ∃ es, dueTurn s = (.foreign c es, s0)) ∧ decideInterrupt c s0 = some i ∧
        t = takeMInterrupt i (passBoundary s0)) ∨
      (∃ c s0 w i, dueTurn s = (.hart c, s0) ∧ decideInterrupt c s0 = none ∧ fetch (passBoundary s0) = some w ∧
        decode w = .ok i ∧ exec i (passBoundary s0) = .next t) ∨
      (∃ c s0 es, dueTurn s = (.foreign c es, s0) ∧ decideInterrupt c s0 = none ∧
        runForeign es (passBoundary s0) = .next t) ∨
      (∃ e s0, dueTurn s = (.env e, s0) ∧ t = applyEvent e s0) := by
  rcases hd : dueTurn s with ⟨turn, s0⟩
  simp only [step, hd] at h
  cases turn with
  | env e => exact .inr (.inr (.inr ⟨e, s0, rfl, by cases h; rfl⟩))
  | foreign c es =>
    simp only [takeTurn, atBoundary] at h
    split at h
    · rename_i i hi
      exact .inl ⟨c, s0, i, .inr ⟨es, rfl⟩, hi, by cases h; rfl⟩
    · rename_i hn
      exact .inr (.inr (.inl ⟨c, s0, es, rfl, hn, h⟩))
  | hart c =>
    simp only [takeTurn, atBoundary] at h
    split at h
    · rename_i i hi
      exact .inl ⟨c, s0, i, .inl rfl, hi, by cases h; rfl⟩
    · rename_i hn
      refine .inr (.inl ?_)
      unfold runInstruction fetchDecode at h
      cases hf : fetch (passBoundary s0) with
      | none => simp [hf] at h
      | some w =>
        cases hw : decode w with
        | error e => simp [hf, hw] at h
        | ok i =>
          simp only [hf, hw] at h
          exact ⟨c, s0, w, i, rfl, hn, hf, hw, h⟩

end Sys2Proof.Machine
end

