-- ==== Sys2Proof/Tests/Slice0.lean ====
section
/-! SUPPORT. Tests: the ill-formed terms, the spec's own words and vectors (95_test_vectors.md), and for each statement
with hypotheses a named witness that meets them. -/

namespace Sys2Proof.Tests

open Sys2Proof.Machine Sys2Proof.Claims

/-! ### Helpers -/

/-- M-mode right after reset with the given `mie`, every other value 0. -/
def base (mie : Word) : State := State.resetWith Config.defaultParams mie 0 0

/-- `t1` (`x6`) given a value. -/
def withT1 (v : Word) (s : State) : State := writeReg 6 v s

/-- The storage SSIP, VSSIP, STIP, B, LCOFIP given. -/
def withPend (ssip vssip stip b lcofip : Bool) (s : State) : State :=
  { s with pend := ⟨ssip, vssip, stip, b, lcofip, 0⟩ }

/-- The inputs changed. -/
def withInputs (f : Inputs → Inputs) (s : State) : State := { s with inputs := f s.inputs }

/-- The hart changed. -/
def withHart (f : Hart → Hart) (s : State) : State := { s with hart := f s.hart }

/-- The mode changed. -/
def inMode (p : Priv) (s : State) : State := withHart (fun h => { h with priv := p }) s

/-- `mstatus.MIE` set. -/
def enabled (s : State) : State := withHart (fun h => { h with mstatus := { h.mstatus with mie := true } }) s

/-- VS-mode. -/
def inVSMode (s : State) : State := withHart (fun h => { h with priv := .s, virt := true }) s

/-- The hart's turn made the due one. -/
def hartNext (c : EvalChoice) (s : State) : State := { s with agenda := [.hart c] }

/-- An instruction outside this spec, doing the given things, made the due turn. -/
def foreignNext (es : List HartEffect) (s : State) : State := { s with agenda := [.foreign .defer es] }

/-- Another agent's step made the due one. -/
def envNext (e : EnvEvent) (s : State) : State := { s with agenda := [.env e] }

/-- An `EVAL_BOUND`. -/
def withBound (n : Nat) (s : State) : State := { s with params := { s.params with evalBound := n } }

/-- A field of the next state. -/
def after {α : Type} (o : Host.Outcome State Fault Refusal) (f : State → α) : Option α :=
  match o with
  | .next t => some (f t)
  | .fault _ => none
  | .refused _ => none

/-- The refusal a step ends in. -/
def refusal (o : Host.Outcome State Fault Refusal) : Option Refusal :=
  match o with
  | .next _ => none
  | .fault _ => none
  | .refused r => some r

/-- The step goes on. -/
def goes (o : Host.Outcome State Fault Refusal) : Bool := (after o fun _ => ()).isSome

/-! ### Ill-formed terms: `mstatus`, CSR 0x300, is outside this hardware (95_test_vectors section 2.1) -/

theorem test_illformed_csrrw : (Instr.csrrw 5 0x300 6).wellFormed = false := by decide

theorem test_illformed_csrrs : (Instr.csrrs 0 0x300 6).wellFormed = false := by decide

theorem test_illformed_csrrc : (Instr.csrrc 5 0x300 6).wellFormed = false := by decide

theorem test_illformed_csrrwi : (Instr.csrrwi 5 0x300 2).wellFormed = false := by decide

theorem test_illformed_csrrsi : (Instr.csrrsi 5 0x300 2).wellFormed = false := by decide

theorem test_illformed_csrrci : (Instr.csrrci 5 0x300 2).wellFormed = false := by decide

/-! ### Decoding (95_test_vectors section 2.1; the first word from the field check printed there) -/

/-- "0x344322F3 = 0011 0100 0100 | 00110 | 010 | 00101 | 1110011". -/
theorem test_decode_csrrs : decode 0b00110100010000110010001011110011 = .ok (.csrrs 5 0x344 6) := by decide

theorem test_decode_csrrw : decode 0x304312F3 = .ok (.csrrw 5 0x304 6) := by decide

theorem test_decode_csrrc : decode 0x344332F3 = .ok (.csrrc 5 0x344 6) := by decide

theorem test_decode_csrrwi : decode 0x304FD2F3 = .ok (.csrrwi 5 0x304 31) := by decide

theorem test_decode_csrrsi : decode 0x344562F3 = .ok (.csrrsi 5 0x344 10) := by decide

theorem test_decode_csrrci : decode 0x304572F3 = .ok (.csrrci 5 0x304 10) := by decide

theorem test_decode_mret : decode 0x30200073 = .ok .mret := by decide

theorem test_decode_sret : decode 0x10200073 = .ok .sret := by decide

theorem test_decode_funct3_100 : decode 0x34404073 = .error .funct3IsNoCsrForm := by decide

/-- A table word of operands zero. -/
theorem test_decode_table_word : decodeTableWord 32 0x1073 = some (.csrrw 0 0 0) := by decide

/-- The word placed after reset is the instruction the next step runs, and it goes on. -/
theorem test_first_step_mip : goes (step (State.reset.withFetchWord 32 0x344322F3)) = true := by rfl

theorem test_first_step_mie : goes (step (State.reset.withFetchWord 32 0x304FD2F3)) = true := by rfl

theorem test_first_step_mret : goes (step (State.reset.withFetchWord 32 0x30200073)) = true := by rfl

theorem test_first_step_sret : goes (step (State.reset.withFetchWord 32 0x10200073)) = true := by rfl

/-- 95_test_vectors section 2.1, last row: `csrrs x0, mstatus, t1` is refused. -/
theorem test_mstatus_refused :
    refusal (step (State.reset.withFetchWord 32 0x30032073)) = some (.csrOutsideHardware 0x300) := by rfl

/-! ### The instructions (95_test_vectors sections 2.2, 2.4, 2.5) -/

/-- `csrrw t0, mie, t1` with `t1` = all ones: `mie` = 0x3EE6. -/
theorem test_csrrw_mie :
    after (exec (.csrrw 5 0x304 6) (withT1 (~~~0) (base 0x2222))) (fun t => (readReg 5 t, t.mie)) =
      some (0x2222, 0x3EE6) := by decide

/-- SEIP (B, E, s) = (0, 1, 1): `t0[9]` = 1, B = 1. -/
theorem test_csrrw_mip_seip :
    after (exec (.csrrw 5 0x344 6) (withT1 0x200 (withInputs (fun i => { i with seipWire := true }) (base 0))))
      (fun t => (readReg 5 t, t.pend.seipB)) = some (0x200, true) := by decide

/-- SEIP (B, E, s) = (0, 1, 0): `t0[9]` = 1, B = 0. -/
theorem test_csrrs_mip_seip :
    after (exec (.csrrs 5 0x344 6) (withInputs (fun i => { i with seipWire := true }) (base 0)))
      (fun t => (readReg 5 t, t.pend.seipB)) = some (0x200, false) := by decide

/-- Source and destination the same register: `x6` takes the old `mie`, the old `x6` is what is set. -/
theorem test_csrrs_same_register :
    after (exec (.csrrs 6 0x304 6) (withT1 0x0808 (base 0x0080))) (fun t => (readReg 6 t, t.mie)) =
      some (0x0080, 0x0880) := by decide

/-- `csrrc x0, mip, t1` with `t1` = 0x2000 clears the sticky bit. -/
theorem test_csrrc_mip_lcofip :
    after (exec (.csrrc 0 0x344 6) (withT1 0x2000 (withPend false false false false true (base 0))))
      (fun t => (readReg 0 t, t.pend.lcofip)) = some (0, false) := by decide

/-- `csrrc t0, mie, t1` with `t1` = 0x0080: 0x0880 becomes 0x0800. -/
theorem test_csrrc_mie :
    after (exec (.csrrc 5 0x304 6) (withT1 0x0080 (base 0x0880))) (fun t => (readReg 5 t, t.mie)) =
      some (0x0880, 0x0800) := by decide

/-- `csrrwi t0, mie, 31`: 0x0880 becomes 0x0006. -/
theorem test_csrrwi_mie :
    after (exec (.csrrwi 5 0x304 31) (base 0x0880)) (fun t => (readReg 5 t, t.mie)) = some (0x0880, 0x0006) := by decide

/-- `csrrsi x0, mip, 2` sets SSIP; STIP while STCE is set, and B, keep their values. -/
theorem test_csrrsi_mip :
    after (exec (.csrrsi 0 0x344 2) (withPend false false true true false (base 0))) (fun t => t.pend) =
      some ⟨true, false, true, true, false, 0⟩ := by decide

/-- `csrrci x0, mip, 2` clears SSIP; the wire is not copied into B. -/
theorem test_csrrci_mip :
    after (exec (.csrrci 0 0x344 2)
      (withPend true false false false false (withInputs (fun i => { i with seipWire := true }) (base 0))))
      (fun t => (t.pend.ssip, t.pend.seipB)) = some (false, false) := by decide

/-- 95_test_vectors section 2.7: from U-mode, `csrrs x0, mip, x0` is an illegal instruction, cause 2. -/
theorem test_user_mode_illegal :
    after (exec (.csrrs 0 0x344 0) (inMode .u (base 0))) (fun t => (t.hart.mcause, t.hart.mtval, t.hart.priv)) =
      some (2, 0x34402073, .m) := by decide

/-- 41_trap_return R90, worked example: MRET re-enables, and interrupt 7 is taken next. -/
theorem test_mret :
    after (exec .mret (withHart (fun h => { h with mepc := 0x80, mstatus := { h.mstatus with mpie := true, mpp := .m } })
      (withInputs (fun i => { i with mtimerIrq := true }) (base 0x80))))
      (fun t => (t.hart.pc, t.hart.mstatus.mie, after (step (hartNext .defer t)) fun u => u.output)) =
      some (0x80, true, some (some 7)) := by decide

/-- 41_trap_return R91, worked example: SRET to S-mode, and interrupt 11 is taken next. -/
theorem test_sret :
    after (exec .sret (withHart (fun h => { h with sepc := 0x80, mstatus := { h.mstatus with spp := true } })
      (withInputs (fun i => { i with meipWire := true }) (base 0x800))))
      (fun t => (t.hart.pc, t.hart.priv, after (step (hartNext .defer t)) fun u => u.output)) =
      some (0x80, .s, some (some 11)) := by decide

/-! ### The evaluation logic (95_test_vectors sections 2.3, 2.8, 2.9) -/

/-- All inputs 1, `hgeip` = 5, STCE clear, storage 0. -/
def allInputs (stce : Bool) : Inputs where
  mideleg := 0
  hideleg := 0
  stce := stce
  hvipVSTIP := true
  hvipVSEIP := true
  hgeip := 5
  meipWire := true
  seipWire := true
  vseipWire := true
  mtimerIrq := true
  stimerIrq := true
  vstimerIrq := true
  platformWires := 0

theorem test_mip_read_inputs : mipRead (withInputs (fun _ => allInputs false) (base 0)) = 0x1EC0 := by decide

theorem test_mip_rmw_inputs_stce : mipRmw (withInputs (fun _ => allInputs true) (base 0)) = 0x1CE0 := by decide

theorem test_mip_read_storage_stce :
    mipRead (withPend true true true true true (withInputs (fun i => { i with stce := true }) (base 0))) = 0x2206 := by
  decide

/-- 0x0A80 pending and enabled, M-mode with MIE: MEI. -/
theorem test_select_mei :
    selectMInterrupt (enabled (withInputs (fun i => { i with seipWire := true, mtimerIrq := true, meipWire := true })
      (base 0x0A80))) = some 11 := by decide

/-- The same with `mstatus.MIE` clear: none. -/
theorem test_select_masked :
    selectMInterrupt (withInputs (fun i => { i with seipWire := true, mtimerIrq := true, meipWire := true })
      (base 0x0A80)) = none := by decide

/-- 0x0022: SSI before STI. -/
theorem test_select_ssi :
    selectMInterrupt (enabled (withPend true false true false false (base 0x0022))) = some 1 := by decide

/-- 0x3444: SGEI (decision D8). -/
theorem test_select_sgei :
    selectMInterrupt (enabled (withPend false true false false true
      (withInputs (fun i => { i with hgeip := 2, hvipVSTIP := true, vseipWire := true }) (base 0x3444)))) = some 12 := by
  decide

/-- MTI pending and enabled in M-mode with MIE set, `EVAL_BOUND` as given: the state of section 2.9. -/
def timerDue (bound : Nat) : State :=
  withBound bound (enabled (withInputs (fun i => { i with mtimerIrq := true }) (base 0x80)))

/-- `EVAL_BOUND` = 0: taken at this boundary. -/
theorem test_taken_at_once : after (step (hartNext .defer (timerDue 0))) (fun t => (t.output, t.hart.mcause)) =
    some (some 7, 0x8000000000000007) := by decide

/-- The stale case: the timer has fallen one boundary ago, and interrupt 7 may still be taken. -/
theorem test_stale_may_be_taken :
    decideInterrupt (.stale 7) (withInputs (fun i => { i with mtimerIrq := false }) (passBoundary (timerDue 1))) =
      some 7 := by decide

/-- It does not reach across an explicit write. -/
theorem test_stale_cut_by_write :
    decideInterrupt (.stale 7)
      (evaluateNext (withInputs (fun i => { i with mtimerIrq := false }) (passBoundary (timerDue 1)))) = none := by decide

/-- Right after an explicit write, `EVAL_BOUND` = 1, MTI pending; then the timer falls and MEI rises before the boundary. -/
def changedSince : State :=
  withInputs (fun i => { i with mtimerIrq := false, meipWire := true })
    (evaluateNext { timerDue 1 with mie := 0x880 })

/-- 60_exceptions R109: MTI, whose condition held "with the values as they stand after the instruction", forces an interrupt
at the boundary that follows; the one taken is the first by the values the write left, or by the present ones. -/
theorem test_forced_after_write :
    mustTake changedSince = true ∧ decideInterrupt .defer changedSince = some 11 ∧
      decideInterrupt .settled changedSince = some 7 := by decide

/-- 20_memory R56: an input risen after the write is ordered by the bound only; it may be taken, and is not forced. -/
theorem test_risen_after_write :
    let s := withInputs (fun i => { i with mtimerIrq := true }) (evaluateNext (withBound 1 (enabled (base 0x80))))
    mustTake s = false ∧ decideInterrupt .defer s = none ∧ decideInterrupt .present s = some 7 := by decide

/-- VSTI pending through `hvip`, `EVAL_BOUND` = 1, one boundary passed. -/
def hvipSeen : State :=
  passBoundary (withBound 1 (enabled (withInputs (fun i => { i with hvipVSTIP := true }) (base 0x40))))

/-- 60_exceptions R108: an `hvip` bit that falls with no explicit write may still be taken; after an explicit write
through `hvip` it may not (R109). -/
theorem test_hvip_fall :
    decideInterrupt (.stale 6) (applyEvent (.hvipVSTIP false) hvipSeen) = some 6 ∧
      after (runForeign [.viewWrite .hvipVSTIP false] hvipSeen) (fun t => decideInterrupt (.stale 6) t) = some none := by
  decide

/-- The run from a state, as far as it goes. -/
def run (s : State) : Nat → State
  | 0 => s
  | n + 1 =>
    match step (run s n) with
    | .next t => t
    | .fault _ => run s n
    | .refused _ => run s n

/-- Right after an MRET to 0x80 with MTI pending and enabled, `EVAL_BOUND` = 3; then the inputs `mstatus_MIE` and `priv`
change; an instruction outside this spec is next. -/
def afterMret : State :=
  { returnFromM (withHart (fun h => { h with mepc := 0x80, mstatus := { h.mstatus with mpie := true, mpp := .m } })
      (timerDue 3)) with
    agenda := [.env (.mstatusMIE false), .env (.mode .m false), .foreign .defer [.reg 5 1, .pc 0x84]] }

/-- 41_trap_return R92: "so a pending-and-enabled interrupt traps before any instruction at the return address executes",
whichever instruction that is and whatever has changed since. -/
theorem test_foreign_waits_for_mret :
    (run afterMret 3).output = some 7 ∧ (run afterMret 3).hart.mepc = 0x80 ∧ readReg 5 (run afterMret 3) = 0 := by decide

/-! ### Witnesses: for each statement with hypotheses, states and operands that meet them, clause by clause -/

/-- A word at address 0 that reads `mip`: `csrrs t0, mip, x0`. -/
def withReadWord (s : State) : State := { s with code := [(0, 0x344022F3)] }

/-- The hart's turn is due and the word at `pc` is `csrrs t0, mip, x0`. -/
def readDue : State := hartNext .defer (withReadWord (base 0))

theorem witness_EncodeOfDecode : decode 0x10200073 = .ok .sret := by decide

theorem witness_UnmatchedWordIsRefused :
    let s := hartNext .defer { base 0 with code := [(0, 0x34404073)] }
    HartDue .defer s { s with agenda := [] } ∧ decideInterrupt .defer { s with agenda := [] } = none ∧
      fetch s = some 0x34404073 ∧ ∀ r ∈ opcodeTable, r.accepts 0x34404073 = false :=
  ⟨rfl, by decide, by decide, by decide⟩

/-- The numbers on either side of `mie` and of `mip`, and `mstatus`. -/
theorem witness_ForeignCsrIsRefused :
    (∀ n ∈ [(0x300 : CsrNum), 0x303, 0x305, 0x343, 0x345],
      n ∉ [(0x304 : CsrNum), 0x344, 0x144, 0x104, 0x309, 0x644, 0x645, 0x244]) ∧
      CsrForm 0x303 (.csrrw 5 0x303 6) := ⟨by decide, 5, .csrrw 6⟩

/-- The hypotheses of the six statements on the pair: the mode, either way. -/
theorem witness_pair_modes : (base 0).hart.priv = .m ∧ (inMode .s (base 0)).hart.priv ≠ .m ∧
    (inMode .u (base 0)).hart.priv ≠ .m := by decide

theorem witness_CsrrwReplacesPair : (base 0).hart.priv = .m ∧ (inMode .u (base 0)).hart.priv ≠ .m := by decide

theorem witness_CsrrsSetsBitsOfPair : (base 0).hart.priv = .m ∧ (inMode .s (base 0)).hart.priv ≠ .m := by decide

theorem witness_CsrrcClearsBitsOfPair : (base 0).hart.priv = .m ∧ (inMode .s (base 0)).hart.priv ≠ .m := by decide

theorem witness_CsrrwiReplacesPair : (base 0).hart.priv = .m ∧ (inMode .u (base 0)).hart.priv ≠ .m := by decide

theorem witness_CsrrsiSetsBitsOfPair : (base 0).hart.priv = .m ∧ (inMode .s (base 0)).hart.priv ≠ .m := by decide

theorem witness_CsrrciClearsBitsOfPair : (base 0).hart.priv = .m ∧ (inMode .u (base 0)).hart.priv ≠ .m := by decide

/-- Both registers, both kinds of mode. -/
theorem witness_PairPcAndIllegalEntry :
    CsrForm 0x304 (.csrrw 0 0x304 0) ∧ CsrForm 0x344 (.csrrsi 5 0x344 31) ∧ (base 0).hart.priv = .m ∧
      (inMode .s (base 0)).hart.priv ≠ .m := ⟨⟨0, .csrrw 0⟩, ⟨5, .csrrsi 31⟩, by decide, by decide⟩

theorem witness_SeipTable : (base 0).hart.priv = .m ∧ (1 : Reg) ≠ 0 ∧ (31 : Reg) ≠ 0 := by decide

theorem witness_WireReachesOnlyBitNineOfRd :
    CsrFormTo 0x344 5 (.csrrs 5 0x344 6) ∧ (∃ t, exec (.csrrs 5 0x344 6) (base 0) = .next t) ∧
      (∃ t, exec (.csrrs 5 0x344 6) (inMode .u (base 0)) = .next t) ∧ (6 : Reg) ≠ 5 ∧ (8 ≠ 9 ∧ 10 ≠ 9) :=
  ⟨.csrrs 6, ⟨_, rfl⟩, ⟨_, rfl⟩, by decide, by decide⟩

theorem witness_SplitReadWriteCopiesWire : (base 0).hart.priv = .m ∧ (5 : Reg) ≠ 0 := by decide

theorem witness_MipReadComposition : bit (base 0).params.platformBits 16 = false ∧ (base 0).hart.priv = .m := by decide

/-- Two values that differ, outside `MIP_WMASK` only. -/
theorem witness_MipRmwLeavesTheWireOut :
    let s := withInputs (fun i => { i with seipWire := true }) (base 0)
    s.hart.priv = .m ∧ (5 : Reg) ≠ 0 ∧
      (0x1CC8 : Word) &&& s.params.mipWritable s.inputs.stce = mipRmw s &&& s.params.mipWritable s.inputs.stce ∧
      (0x1CC8 : Word) ≠ mipRmw s := by decide

theorem witness_MipWriteFollowsMask :
    (0x1CC8 : Word) &&& (base 0).params.mipWritable false = 0 &&& (base 0).params.mipWritable false ∧ (0x1CC8 : Word) ≠ 0 ∧
      (0 < 16 ∧ 15 < 16) := by decide

theorem witness_MipReadsBackWhatWasWritten : (0 : Nat) < 64 ∧ (63 : Nat) < 64 := by decide

theorem witness_MieWriteIsSeenByNextRead : (base 0).hart.priv = .m ∧ (5 : Reg) ≠ 0 := by decide

theorem witness_MieWritableBits :
    bit (mipRead (timerDue 0)) 7 = true ∧ (15 < 64 ∧ 16 < 64 ∧ 63 < 64) ∧
      EnvEvent.lcofiRequest ≠ .reset ∧ (applyEvent .lcofiRequest (base 0)).pend.lcofip = true := by decide

/-- A listed step of another agent is due. -/
theorem env_due (e : EnvEvent) (s : State) : EnvDue e (envNext e s) { s with agenda := [], output := none } := rfl

/-- A request, the 1 to 0 change of STCE, the platform's step, and changes of `hvip`, `mstatus_MIE` and `priv`, each due. -/
theorem witness_HardwareUpdatesAndInputChanges :
    let u := withInputs (fun i => { i with stce := true }) (base 0)
    (∀ e ∈ [EnvEvent.lcofiRequest, .menvcfgSTCE false, .platform 1 1, .hvipVSTIP true, .mstatusMIE true, .mode .u false],
      (∃ s0, EnvDue e (envNext e u) s0) ∧ e ≠ .reset) ∧ (envNext (.menvcfgSTCE false) u).inputs.stce = true :=
  ⟨fun e he => ⟨⟨_, env_due e _⟩, by rintro rfl; simp at he⟩, rfl⟩

/-- A write through any view field is the due turn, and nothing is taken in its place with M-mode's interrupts off. -/
theorem view_write_due (f : ViewField) (b : Bool) (s : State) (h : mGlobal s = false) (hd : s.evaln.due = none) :
    ∃ s0, ForeignDue .defer [.viewWrite f b] (foreignNext [.viewWrite f b] s) s0 ∧ decideInterrupt .defer s0 = none :=
  ⟨_, rfl, decideInterrupt_off h hd⟩

/-- A write step; and where SSI is delegated and pending, bit 1 of `sip` reads 1 whatever the free value is. -/
theorem witness_SipIsRestrictedView :
    (∃ s0, ForeignDue .defer [.viewWrite .sipSSIP true] (foreignNext [.viewWrite .sipSSIP true] (base 0)) s0 ∧
        decideInterrupt .defer s0 = none) ∧
      bit (viewRegRead .sip
        (withPend true false false false false (withInputs (fun i => { i with mideleg := 2 }) (base 0)))) 1 = true := by
  have h : ∀ s : State, s.inputs.mideleg = 2 → s.pend.ssip = true → bit (viewRegRead .sip s) 1 = true := by
    intro s h1 h2
    simp [viewRegRead, viewFields, viewBits, viewRead, delegated, atBit, h1, h2]
  exact ⟨view_write_due _ _ _ rfl rfl, h _ rfl rfl⟩

/-- The same of `sie`. -/
theorem witness_SieIsRestrictedView :
    ((ViewField.sieSTIE, 5) ∈ [(ViewField.sieSSIE, 1), (.sieSTIE, 5), (.sieSEIE, 9), (.sieLCOFIE, 13)] ∧
      ∃ s0, ForeignDue .defer [.viewWrite .sieSTIE true] (foreignNext [.viewWrite .sieSTIE true] (base 0)) s0 ∧
        decideInterrupt .defer s0 = none) ∧
      bit (viewRegRead .sie (withInputs (fun i => { i with mideleg := 2 }) (base 2))) 1 = true := by
  have h : ∀ s : State, s.inputs.mideleg = 2 → s.mie.getLsbD 1 = true → bit (viewRegRead .sie s) 1 = true := by
    intro s h1 h2
    simp [-BitVec.getLsbD_eq_getElem, viewRegRead, viewFields, viewBits, viewRead, delegated, atBit, h1, h2]
  exact ⟨⟨by decide, view_write_due _ _ _ rfl rfl⟩, h _ rfl (by decide)⟩

theorem witness_MvipAliasesStorage :
    let u := foreignNext [.viewWrite .mvipSTIP true] (withInputs (fun i => { i with stce := true }) (base 0))
    (base 0).inputs.stce = false ∧ u.inputs.stce = true ∧
      ∃ s0, ForeignDue .defer [.viewWrite .mvipSTIP true] u s0 ∧ decideInterrupt .defer s0 = none :=
  ⟨by decide, by decide, view_write_due _ _ _ rfl rfl⟩

theorem witness_HipAndHvipAliases :
    (base 0).inputs.stce = false ∧
      ∃ s0, ForeignDue .defer [.viewWrite .hvipVSTIP true] (foreignNext [.viewWrite .hvipVSTIP true] (base 0)) s0 ∧
        decideInterrupt .defer s0 = none :=
  ⟨by decide, view_write_due _ _ _ rfl rfl⟩

/-- Every `hideleg` bit set, and every one clear. -/
theorem witness_VsipAliases :
    let u := foreignNext [.viewWrite .vsipSSIP true] (base 0)
    (∀ i ∈ [2, 6, 10, 13], bit (withInputs (fun i => { i with hideleg := 0x2444 }) (base 0)).inputs.hideleg i = true) ∧
      (∀ i ∈ [2, 6, 10, 13], bit u.inputs.hideleg i = false) ∧
      ∃ s0, ForeignDue .defer [.viewWrite .vsipSSIP true] u s0 ∧ decideInterrupt .defer s0 = none :=
  ⟨by decide, by decide, view_write_due _ _ _ rfl rfl⟩

/-- In M-mode with every `hideleg` bit set and STCE clear all six are granted; from HS-mode the five below `mvip`; from
VS-mode `sip`, which is `vsip` there, and `vsip`. -/
theorem witness_CsrFormsOnViewRegisters :
    let s := withInputs (fun i => { i with hideleg := 0x2444 }) (base 0)
    (∀ c ∈ views, ViewGranted c s) ∧ (∀ c ∈ [Csr.sip, .sie, .hip, .hvip, .vsip], ViewGranted c (inMode .s s)) ∧
      (∀ c ∈ [Csr.sip, .vsip], ViewGranted c (inVSMode s)) ∧ seenAs .sip (inVSMode s) = .vsip := by
  unfold ViewGranted ModeReaches VSMode
  decide

/-- Too low: U-mode, HS-mode for `mvip`, VS-mode for `hip`; `sie` from VS-mode; a field left out of `vsip`, reached by its
own number and by that of `sip` in VS-mode, and of `mvip`. -/
theorem witness_ViewRegisterStops :
    (¬ModeReaches .sip (inMode .u (base 0)) ∧ ¬ModeReaches .mvip (inMode .s (base 0)) ∧
      ¬ModeReaches .hip (inVSMode (base 0))) ∧
      VSMode (inVSMode (base 0)) ∧
      (ModeReaches .vsip (base 0) ∧ ∃ kf ∈ viewFields (seenAs .vsip (base 0)), viewGiven kf.2 (base 0) = false) ∧
      (ModeReaches .sip (inVSMode (base 0)) ∧
        ∃ kf ∈ viewFields (seenAs .sip (inVSMode (base 0))), viewGiven kf.2 (inVSMode (base 0)) = false) ∧
      (∃ kf ∈ viewFields .mvip, viewGiven kf.2 (withInputs (fun i => { i with stce := true }) (base 0)) = false) ∧
      CsrForm Csr.sip.number (.csrrw 5 Csr.sip.number 6) := by
  refine ⟨?_, ⟨rfl, rfl⟩, ?_, ?_, by decide, ⟨5, .csrrw 6⟩⟩ <;> unfold ModeReaches VSMode <;> decide

/-- VS-mode reads `vsip` by the number of `sip`: `VSSIP_b` in bit 1 (60_exceptions R118, 10_state R40). -/
theorem test_vs_mode_sees_vsip :
    csrTarget .sip (inVSMode (base 0)) = .vsip ∧
      after (exec (.csrrwi 0 0x144 2) (inVSMode (withInputs (fun i => { i with hideleg := 0x2444 }) (base 0))))
        (fun t => (t.pend.ssip, t.pend.vssip)) = some (false, true) := by decide

/-- No condition holds where no candidate does. -/
theorem no_cond {s : State} (h : condSet s = 0) : ∀ i, trapCond i s = false := by
  intro i
  rw [← condSet_getLsbD, h]
  simp

theorem witness_ZeroBoundTakesExactlyWhenCond :
    BoundaryDue .defer (hartNext .defer (timerDue 0)) (timerDue 0) ∧ (hartNext .defer (timerDue 0)).params.evalBound = 0 ∧
      trapCond 7 (hartNext .defer (timerDue 0)) = true ∧ BoundaryDue .defer readDue { readDue with agenda := [] } ∧
      readDue.params.evalBound = 0 ∧ (∀ i, trapCond i readDue = false) ∧ readDue.evaln.due = none ∧
      goes (step readDue) = true :=
  ⟨.inl rfl, rfl, by decide, .inl rfl, rfl, no_cond (by decide), rfl, by decide⟩

/-- Two turns of the hart, a wire's between them, with the timer due and `EVAL_BOUND` = 1: the instruction runs at the
first, which defers. -/
def waiting : State := { withReadWord (timerDue 1) with agenda := [.hart .defer, .env (.seip true), .hart .defer] }

/-- Two boundaries with another agent's step between them, and `EVAL_BOUND` = 1. -/
theorem witness_InterruptTakenWithinBound :
    (∀ k < 3, step (run waiting k) = .next (run waiting (k + 1)) ∧
      (hartsTurn (run waiting k) = true → trapCond 7 (run waiting k) = true) ∧
      ∀ s0, ¬EnvDue .reset (run waiting k) s0) ∧
      (run waiting 0).params.evalBound < (List.range 3).countP (fun k => hartsTurn (run waiting k)) := by
  refine ⟨fun k hk => ?_, by decide⟩
  have h : k = 0 ∨ k = 1 ∨ k = 2 := by omega
  obtain rfl | rfl | rfl := h <;>
    exact ⟨rfl, by decide, fun s0 h => absurd (congrArg Prod.fst h) (by show ¬(_ = Turn.env .reset); decide)⟩

/-- One must be taken with `EVAL_BOUND` = 0, and before an instruction outside this spec that follows a write; nothing must
with `EVAL_BOUND` = 1 and no history: the three runs of section 2.9's second row. -/
theorem witness_MustAndMayCases :
    let w := { withReadWord (timerDue 1) with agenda := [.hart .defer] }
    let p := hartNext .present (timerDue 1)
    let f := hartNext (.stale 7) (withInputs (fun i => { i with mtimerIrq := false }) (passBoundary (timerDue 1)))
    ((mustTake (hartNext .defer (timerDue 0)) = true ∧ BoundaryDue .defer (hartNext .defer (timerDue 0)) (timerDue 0)) ∧
      mustTake (foreignNext [.pc 0] changedSince) = true ∧
      ∃ s0, BoundaryDue .defer (foreignNext [.pc 0] changedSince) s0) ∧
      (mustTake w = false ∧ BoundaryDue .defer w { w with agenda := [] } ∧ goes (step w) = true) ∧
      (mustTake p = false ∧ BoundaryDue .present p (timerDue 1) ∧ trapCond 7 p = true) ∧
      (mustTake f = false ∧ (∃ s0, BoundaryDue (.stale 7) f s0) ∧ mGlobal f = true ∧ bit f.mie 7 = true ∧
        bit f.inputs.mideleg 7 = false ∧ bit (mipRead f) 7 = false ∧
        ∃ b ∈ f.evaln.recent.take f.params.evalBound, bit b.driven 7 = true) :=
  ⟨⟨⟨by decide, .inl rfl⟩, by decide, _, .inr ⟨_, rfl⟩⟩, ⟨by decide, .inl rfl, by decide⟩, ⟨by decide, .inl rfl, by decide⟩,
    by decide, ⟨_, .inl rfl⟩, by decide, by decide, by decide, by decide, by decide⟩

/-- The present interrupt taken, a stale one, and one that held right after the write. -/
theorem witness_OnlyDueInterruptsAreTaken :
    (∃ t, step (hartNext .defer (timerDue 0)) = .next t ∧ t.output = some 7) ∧
      (∃ t, step (hartNext (.stale 7) (withInputs (fun i => { i with mtimerIrq := false })
        (passBoundary (timerDue 1)))) = .next t ∧ t.output = some 7) ∧
      ∃ t, step (hartNext .settled changedSince) = .next t ∧ t.output = some 7 :=
  ⟨⟨_, rfl, rfl⟩, ⟨_, rfl, rfl⟩, ⟨_, rfl, rfl⟩⟩

theorem witness_FixedPriorityOrder : (base 0).params.platformBits = 0 := by decide

theorem witness_SelectionIsFirstInOrder : selectMInterrupt (timerDue 0) = some 7 := by decide

theorem witness_InterruptEntry :
    BoundaryDue .present (hartNext .present (timerDue 3)) (timerDue 3) ∧
      decideInterrupt .present (timerDue 3) = some 7 := ⟨.inl rfl, by decide⟩

theorem witness_TakingClearsNothing :
    ∃ t, step (hartNext .defer (timerDue 0)) = .next t ∧ t.output = some 7 := ⟨_, rfl, rfl⟩

theorem witness_NoNestingAfterEntry :
    ∃ t u t0, step { withReadWord (timerDue 0) with agenda := [.hart .defer, .hart .present] } = .next t ∧
      t.output = some 7 ∧ BoundaryDue .present t t0 ∧ step t = .next u := ⟨_, _, _, rfl, rfl, .inl rfl, rfl⟩

/-- What `TrapsFirst` asks of a run: it starts in `s`, `n` steps of other agents follow, and then a turn of the hart is
due; and some condition holds in `s`. -/
def TrapsFirstMet (s : State) : Prop :=
  ∃ (σ : Nat → State) (n : Nat), 0 < n ∧ σ 0 = s ∧
    (∀ k < n, step (σ k) = .next (σ (k + 1)) ∧ ∃ e s0, EnvDue e (σ k) s0 ∧ e ≠ .reset) ∧
    (∃ c s0, BoundaryDue c (σ n) s0) ∧ ∃ i, trapCond i s = true

/-- A state with the timer due, another agent's step first, and then the hart's turn. -/
theorem trapsFirst_met {s t : State} {b : Bool} {c : EvalChoice} (h : s.agenda = [.env (.mstatusMIE b), .hart c])
    (ht : trapCond 7 s = true) (hs : step s = .next t) : TrapsFirstMet s := by
  have hd := dueTurn_cons h
  have e := step_env hd
  refine ⟨fun | 0 => s | _ + 1 => t, 1, by decide, rfl, fun k hk => ?_, ?_, 7, ht⟩
  · obtain rfl : k = 0 := by omega
    exact ⟨hs, _, _, hd, by simp⟩
  · have : t.agenda = [.hart c] := by cases hs.symm.trans e; rfl
    exact ⟨_, _, .inl (dueTurn_cons this)⟩

/-- The two turns of `trapsFirst_met`: the input `mstatus_MIE` cleared, and the hart's. -/
def clearThenHart (s : State) : State := { s with agenda := [.env (.mstatusMIE false), .hart .defer] }

/-- `csrrs x0, mie, t1` enables the timer interrupt that is due, and `csrrc` disables it (95_test_vectors 2.9). -/
theorem witness_ExplicitWriteIsEvaluatedAtOnce :
    (ExplicitWrite (.csrrs 0 0x304 6) ∧ (∃ t, exec (.csrrs 0 0x304 6)
        (hartNext .defer (withT1 0x80 { timerDue 2 with mie := 0 })) = .next t ∧ selectMInterrupt t = some 7 ∧
        ∃ s0, BoundaryDue .defer t s0) ∧
      ∃ t, exec (.csrrs 0 0x304 6) (clearThenHart (withT1 0x80 { timerDue 2 with mie := 0 })) = .next t ∧
        TrapsFirstMet t) ∧
      (ExplicitWrite (.csrrc 0 0x304 6) ∧ ∃ t u, exec (.csrrc 0 0x304 6)
        (hartNext .defer (withT1 0x80 { timerDue 2 with code := [(4, 0x344022F3)] })) = .next t ∧
        (∀ i, trapCond i t = false) ∧ step t = .next u) :=
  ⟨⟨.csrrs 0 6 _ (.inl rfl) (by decide), ⟨_, rfl, by decide, _, .inl rfl⟩,
      _, rfl, trapsFirst_met (b := false) (c := .defer) rfl (by decide) rfl⟩,
    ⟨.csrrc 0 6 _ (.inl rfl) (by decide), _, _, rfl, no_cond (by decide), rfl⟩⟩

/-- A write of `mstatus` that sets MIE with the timer due, and one through `sip` with nothing due. -/
theorem witness_OtherExplicitWritesAreEvaluatedAtOnce :
    let es := [HartEffect.mstatus ⟨true, false, .u, false, false, false, false, false, false⟩ true, .pc 4]
    let w := withInputs (fun i => { i with mtimerIrq := true }) (base 0x80)
    (∃ t, runForeign es (hartNext .defer w) = .next t ∧ selectMInterrupt t = some 7 ∧ ∃ s0, BoundaryDue .defer t s0) ∧
      (∃ t, runForeign es (clearThenHart w) = .next t ∧ TrapsFirstMet t) ∧
      ∃ t u, runForeign [.viewWrite .sipSSIP true] readDue = .next t ∧ (∀ i, trapCond i t = false) ∧ step t = .next u :=
  ⟨⟨_, rfl, by decide, _, .inl rfl⟩, ⟨_, rfl, trapsFirst_met (b := false) (c := .defer) rfl (by decide) rfl⟩,
    ⟨_, _, rfl, no_cond (by decide), rfl⟩⟩

/-- After an explicit write: the timer, which held then, noted across another agent's step; nothing held and MEI has risen
since; MTI, which held, fallen and MEI risen, where the choice goes by the write and where it goes by the present values. -/
theorem witness_DueEvaluationOutlastsOtherAgents :
    let w := { evaluateNext (timerDue 3) with agenda := [.env (.meip true), .hart .defer] }
    let r := hartNext .defer (withReadWord (withInputs (fun i => { i with meipWire := true })
      (evaluateNext (withBound 1 (enabled (base 0x800))))))
    let f := hartNext .settled changedSince
    let p := hartNext .present changedSince
    ((∃ s0, EnvDue (.meip true) w s0) ∧ ∃ t, step w = .next t ∧ t.evaln.due = some ⟨0x80, 0x80⟩ ∧
        7 ∈ t.params.order ∧ bit (0x80 : Word) 7 = true ∧ ∃ t0, BoundaryDue .defer t t0) ∧
      ((∃ s0, BoundaryDue .defer r s0) ∧ r.evaln.due = some ⟨0, 0⟩ ∧ trapCond 11 r = true ∧
        r.evaln.recent.length < r.params.evalBound ∧ goes (step r) = true) ∧
      ((∃ s0, BoundaryDue .settled f s0) ∧ f.evaln.due = some ⟨0x80, 0x80⟩ ∧
        f.params.order = List.range' 16 48 ++ [11, 3] ++ 7 :: [9, 1, 5, 12, 10, 2, 6, 13] ∧
        (∀ j ∈ List.range' 16 48 ++ [11, 3], bit (0x80 : Word) j = false) ∧ bit (mipRead f) 7 = false) ∧
      (∃ s0, BoundaryDue .present p s0) ∧ p.evaln.due = some ⟨0x80, 0x80⟩ ∧ selectMInterrupt p = some 11 :=
  ⟨⟨⟨_, rfl⟩, _, rfl, by decide, by decide, by decide, _, .inl rfl⟩,
    ⟨⟨_, .inl rfl⟩, by decide, by decide, by decide, by decide⟩,
    ⟨⟨_, .inl rfl⟩, by decide, by decide, by decide, by decide⟩, ⟨_, .inl rfl⟩, by decide, by decide⟩

theorem witness_MretReturns : (base 0).hart.priv = .m ∧ (inMode .s (base 0)).hart.priv ≠ .m := by decide

/-- SRET in M-mode, in S-mode with TSR clear and set, in U-mode. -/
theorem witness_SretReturns :
    (base 0).hart.priv = .m ∧ (inMode .u (base 0)).hart.priv = .u ∧
      ((inMode .s (base 0)).hart.priv = .s ∧ (inMode .s (base 0)).hart.mstatus.tsr = false) ∧
      (withHart (fun h => { h with mstatus := { h.mstatus with tsr := true } }) (inMode .s (base 0))).hart.mstatus.tsr =
        true := by decide

/-- A return with the timer due, straight to the hart's turn, and with a change of `mstatus_MIE` before that turn. -/
theorem witness_TrapReturnIsEvaluatedAtOnce :
    let m := withHart (fun h => { h with mstatus := { h.mstatus with mpie := true, mpp := .m } }) (timerDue 2)
    (m.hart.priv = .m ∧ (∃ t, exec .mret (hartNext .defer m) = .next t ∧ selectMInterrupt t = some 7 ∧
        ∃ s0, BoundaryDue .defer t s0) ∧ ∃ t, exec .mret (clearThenHart m) = .next t ∧ TrapsFirstMet t) ∧
      (inMode .s m).hart.priv = .s ∧ (inMode .s m).hart.mstatus.tsr = false ∧
      ∃ t, exec .sret (clearThenHart (inMode .s m)) = .next t ∧ TrapsFirstMet t :=
  ⟨⟨rfl, ⟨_, rfl, by decide, _, .inl rfl⟩, _, rfl, trapsFirst_met (b := false) (c := .defer) rfl (by decide) rfl⟩, rfl, rfl,
    _, rfl, trapsFirst_met (b := false) (c := .defer) rfl (by decide) rfl⟩

/-- No enable bit, and every one. -/
theorem witness_ResetLeavesMieOpen :
    (0 : Word) &&& ~~~Config.defaultParams.mieWritable = 0 ∧
      (0x3EE6 : Word) &&& ~~~Config.defaultParams.mieWritable = 0 := by decide

theorem witness_ResetStepMasksInterrupts :
    let s := { base 0 with agenda := [.env .reset, .hart .present] }
    (∃ s0, EnvDue .reset s s0) ∧ ∃ t t0, step s = .next t ∧ BoundaryDue .present t t0 := ⟨⟨_, rfl⟩, _, _, rfl, .inl rfl⟩

/-- A state that meets the invariant, and its step. -/
theorem readDue_inv : readDue.Inv where
  mieConfined := by decide
  platformConfined := by decide
  hart := ⟨by decide, by decide, by decide, by decide, by decide, by decide, by decide, by decide⟩
  midelegFits := by decide
  hidelegFits := by decide
  codeCanonical := by decide
  historyBounded := by decide
  historySound := fun _ hb => absurd hb List.not_mem_nil
  dueSound := fun _ hb => nomatch hb
  dueCutsHistory := fun h => absurd rfl h

theorem witness_MsipIsHardwiredZero : readDue.Inv ∧ ∃ t, step readDue = .next t := ⟨readDue_inv, _, rfl⟩

theorem witness_StepKeepsInvariant : readDue.Inv ∧ ∃ t, step readDue = .next t := ⟨readDue_inv, _, rfl⟩

theorem witness_StepKeepsParameters : ∃ t, step readDue = .next t := ⟨_, rfl⟩

/-- The hart's turn listed, none listed, another agent's, and that of an instruction outside this spec. -/
theorem witness_StepRunsDecodedInstruction :
    (HartDue .defer readDue { readDue with agenda := [] } ∧
      decideInterrupt .defer { readDue with agenda := [] } = none ∧ fetch readDue = some 0x344022F3 ∧
      decode 0x344022F3 = .ok (.csrrs 5 0x344 0)) ∧
      readDue.agenda = [.hart .defer] ∧ (base 0).agenda = [] ∧ (envNext .reset (base 0)).agenda = [.env .reset] ∧
      (∃ s0, EnvDue .reset (envNext .reset (base 0)) s0) ∧ (foreignNext [.pc 4] (base 0)).agenda = [.foreign .defer [.pc 4]] ∧
      ∃ s0, ForeignDue .defer [.pc 4] (foreignNext [.pc 4] (base 0)) s0 ∧ decideInterrupt .defer s0 = none :=
  ⟨⟨rfl, by decide, by decide, by decide⟩, rfl, rfl, rfl, ⟨_, env_due _ _⟩, rfl, _, rfl, by decide⟩

theorem witness_PlacedWordRunsNext : decode 0x344022F3 = .ok (.csrrs 5 0x344 0) ∧ mustTake (base 0) = false := by decide

theorem witness_PlacedWordsAreSupplied : Code.WellFormed [(0, 0x344022F3), (4, 0x30200073)] := by decide

theorem witness_UserModeCannotTouchThePair :
    (inMode .u (base 0)).hart.priv = .u ∧ ∃ t, exec (.csrrw 5 0x344 6) (inMode .u (base 0)) = .next t := ⟨rfl, _, rfl⟩

/-- HS-mode writes `sip` with no interrupt delegated: the write is ignored. It writes `VSSIP_b` through `hip`, the inputs
through `hvip`; VS-mode writes `VSSIP_b` through `sip`. -/
theorem witness_LowerModesReachOfThePair :
    let d := withInputs (fun i => { i with hideleg := 0x2444 }) (base 0)
    (inMode .s (base 0)).hart.priv ≠ .m ∧ (∃ t, exec (.csrrw 5 0x144 6) (inMode .s (base 0)) = .next t) ∧
      (∀ k ∈ [1, 5, 9, 13], bit (inMode .s (base 0)).inputs.mideleg k = false) ∧
      bit (inMode .s (base 0)).inputs.hideleg 13 = false ∧
      after (exec (.csrrwi 0 0x644 4) (inMode .s (base 0))) (fun t => t.pend.vssip) = some true ∧
      after (exec (.csrrw 0 0x645 6) (withT1 0x40 (inMode .s (base 0)))) (fun t => t.inputs.hvipVSTIP) = some true ∧
      after (exec (.csrrwi 0 0x144 2) (inVSMode d)) (fun t => t.pend.vssip) = some true :=
  ⟨by decide, ⟨_, rfl⟩, by decide, by decide, by decide, by decide, by decide⟩

end Sys2Proof.Tests
end

/-! ## The family of 10_state: what `mip` reads, and what a write of it stores -/

namespace Sys2Proof

/-- Two words that agree on a mask agree at each of its bits. -/
theorem getLsbD_congr_of_and_eq {v w m : Word} (h : v &&& m = w &&& m) {i : Nat} (hi : m.getLsbD i = true) :
    v.getLsbD i = w.getLsbD i := by
  simpa [hi] using congrArg (·.getLsbD i) h

namespace Params

/-- `SSIP`, `VSSIP`, `SEIP` and `LCOFIP` are writable in every state (10_state R32). -/
theorem mipWritable_of_stored (p : Params) (stce : Bool) {i : Nat} (hi : i = 1 ∨ i = 2 ∨ i = 9 ∨ i = 13) :
    (p.mipWritable stce).getLsbD i = true := by
  have hmask : (0x2206 : Word).getLsbD i = true := by rcases hi with rfl | rfl | rfl | rfl <;> decide
  rw [mipWritable, BitVec.getLsbD_or, BitVec.getLsbD_or, hmask, Bool.true_or, Bool.true_or]

/-- `STIP` is writable while STCE is clear (10_state R32). -/
theorem mipWritable_stip (p : Params) : (p.mipWritable false).getLsbD 5 = true := by simp [mipWritable]

/-- The stored platform bits are among the writable ones (10_state R14, R32). -/
theorem mipWritable_and_platformStored (p : Params) (stce : Bool) :
    p.mipWritable stce &&& p.platformStored = p.platformStored :=
  word_ext fun i _ => by simp +contextual [mipWritable]

end Params

namespace Machine

/-! ### `mip` and its bit 9 (10_state R30, R31) -/

/-- Bit 9 of `mip` is the value given for it. -/
theorem mipWithSEIP_getLsbD_nine (seip : Bool) (s : State) : (mipWithSEIP seip s).getLsbD 9 = seip := by
  rw [mipWithSEIP_low _ _ (by decide)]; simp

/-- No other bit of `mip` depends on the value given for bit 9. -/
theorem mipWithSEIP_getLsbD_of_ne_nine (a b : Bool) (s : State) {i : Nat} (hi : i ≠ 9) :
    (mipWithSEIP a s).getLsbD i = (mipWithSEIP b s).getLsbD i := by
  by_cases hlow : i < 16
  · simp [mipWithSEIP_low _ _ hlow, hi.symm]
  · rw [mipWithSEIP_high _ _ (by omega), mipWithSEIP_high _ _ (by omega)]

/-! ### A write of `mip` (10_state R32) -/

/-- Values that agree on `MIP_WMASK` leave the same storage. -/
theorem Pending.write_congr {p : Params} {stce : Bool} {v w : Word}
    (h : v &&& p.mipWritable stce = w &&& p.mipWritable stce) (pend : Pending) :
    pend.write p stce v = pend.write p stce w := by
  have stored : ∀ i, i = 1 ∨ i = 2 ∨ i = 9 ∨ i = 13 → v.getLsbD i = w.getLsbD i := fun i hi =>
    getLsbD_congr_of_and_eq h (p.mipWritable_of_stored stce hi)
  have stip : stce = false → v.getLsbD 5 = w.getLsbD 5 := by
    rintro rfl
    exact getLsbD_congr_of_and_eq h p.mipWritable_stip
  have platform : v &&& p.platformStored = w &&& p.platformStored := by
    rw [← p.mipWritable_and_platformStored stce, ← BitVec.and_assoc, h, BitVec.and_assoc]
  simp only [Pending.write, stored 1 (by decide), stored 2 (by decide), stored 9 (by decide), stored 13 (by decide),
    platform]
  cases stce with
  | true => rfl
  | false => rw [stip rfl]

/-- Values that agree on `MIP_WMASK` make the same state. -/
theorem mipWrite_congr {s : State} {v w : Word}
    (h : v &&& s.params.mipWritable s.inputs.stce = w &&& s.params.mipWritable s.inputs.stce) :
    mipWrite v s = mipWrite w s := by
  rw [mipWrite, mipWrite, Pending.write_congr h]

/-! ### What a granted access leaves in the general registers (40_csr_access R73, R74) -/

/-- Noting a read leaves the hart alone. -/
@[simp] theorem noteRead_hart (c : Csr) (s : State) : (noteRead c s).hart = s.hart := by cases c <;> rfl

/-- A CSR write leaves the hart alone: the registers of the pair and their views lie outside it. -/
@[simp] theorem csrWrite_hart (c : Csr) (v : Word) (s : State) : (csrWrite c v s).hart = s.hart :=
  (csrWrite_frame c v s).2.1

/-- An access that reads puts what the register read before it into `rd`, whatever it then writes. -/
theorem csrComplete_reads_regs (c : Csr) (rd : Reg) (rule : WriteRule) (s : State) :
    RegsAfter rd (csrRead c s) s (csrComplete c rd true rule s) := by
  intro r
  have hread : readReg r (writeReg rd (csrRead c s) (noteRead c s)) =
      if r = rd ∧ rd ≠ 0 then csrRead c s else readReg r s := by
    rw [readReg_writeReg, readReg_congr (congrArg Hart.x (noteRead_hart c s))]
  rw [csrComplete_eq, readReg_advancePc, if_pos rfl]
  cases rule (csrOld c s) with
  | none => exact hread
  | some v => exact (readReg_congr (congrArg Hart.x (csrWrite_hart c v _)) r).trans hread

/-- In M-mode an instruction that reads `mip` completes with `mip_read()` in `rd`. -/
theorem csrInstr_mip_rd {i : Instr} {rd : Reg} {rule : WriteRule} {s : State} (hm : s.hart.priv = .m) (hrd : rd ≠ 0) :
    ∃ t, csrInstr i 0x344 rd true rule s = .next t ∧ readReg rd t = mipRead s :=
  ⟨_, csrInstr_mip hm, (csrComplete_reads_regs .mip rd rule s rd).trans (if_pos ⟨rfl, hrd⟩)⟩

end Machine

namespace Claims

open Machine

/-- Settles O18: bit by bit for `mip_rmw()`; the read of each form precedes its write; a write looks at the writable bits
only. -/
theorem mipRmwLeavesTheWireOut : Obligations.MipRmwLeavesTheWireOut := by
  refine fun s => ⟨mipWithSEIP_getLsbD_nine _ s, fun i hi => mipWithSEIP_getLsbD_of_ne_nine _ _ s hi, ?_,
    fun v hv => mipWrite_congr hv⟩
  intro rd rs1 uimm hm hrd i hi
  simp only [List.mem_cons, List.not_mem_nil, or_false] at hi
  obtain rfl | rfl | rfl | rfl := hi <;> exact csrInstr_mip_rd hm hrd

end Claims

end Sys2Proof

/-! ## The family of 30_encoding: the decoder, the encoder and the opcode map -/

namespace Sys2Proof

/-! ### What a word carries when it decodes -/

/-- What a word carries besides the `opcode` and `funct3` of its instruction: the operands of a CSR form (30_encoding
R61), and the whole fixed pattern of a trap return (R64). -/
def CarriesOperands (w : InstrWord) : Instr → Prop
  | .csrrw rd csr rs1 => fieldRd w = rd ∧ fieldCsr w = csr ∧ fieldRs1 w = rs1
  | .csrrs rd csr rs1 => fieldRd w = rd ∧ fieldCsr w = csr ∧ fieldRs1 w = rs1
  | .csrrc rd csr rs1 => fieldRd w = rd ∧ fieldCsr w = csr ∧ fieldRs1 w = rs1
  | .csrrwi rd csr uimm => fieldRd w = rd ∧ fieldCsr w = csr ∧ fieldUimm w = uimm
  | .csrrsi rd csr uimm => fieldRd w = rd ∧ fieldCsr w = csr ∧ fieldUimm w = uimm
  | .csrrci rd csr uimm => fieldRd w = rd ∧ fieldCsr w = csr ∧ fieldUimm w = uimm
  | .mret => w = mretWord
  | .sret => w = sretWord

open Laws.EncodeFunct3 (funct3Of)

/-- Everything `decode` accepts, field by field. -/
theorem decode_eq_ok_iff (w : InstrWord) (i : Instr) :
    decode w = .ok i ↔ fieldOpcode w = opcodeSystem ∧ fieldFunct3 w = funct3Of i ∧ CarriesOperands w i := by
  constructor
  · intro h
    unfold decode at h
    split at h
    · cases h
    next hop =>
      refine ⟨not_not.1 hop, ?_⟩
      split at h
      -- `funct3` = 000: the trap returns
      case h_7 hf =>
        split at h
        next hw => cases h; exact ⟨BitVec.eq_of_toNat_eq hf, hw⟩
        split at h
        next hw => cases h; exact ⟨BitVec.eq_of_toNat_eq hf, hw⟩
        cases h
      -- `funct3` = 100: no CSR form
      case h_8 => cases h
      all_goals
        cases h
        exact ⟨BitVec.eq_of_toNat_eq ‹_›, rfl, rfl, rfl⟩
  · rintro ⟨hop, hf, hi⟩
    cases i with
    | mret => rw [show w = mretWord from hi]; decide
    | sret => rw [show w = sretWord from hi]; decide
    | _ =>
      obtain ⟨rfl, rfl, rfl⟩ := hi
      simp [decode, hop, hf, funct3Of]

/-! ### The encoder's words -/

/-- Every instruction's word has the SYSTEM opcode and the `funct3` of its row. -/
theorem encode_funct3 : ∀ i : Instr, Laws.EncodeFunct3.Statement i
  | .csrrw rd csr rs1 => Laws.EncodeFunct3.csrrw rd csr rs1
  | .csrrs rd csr rs1 => Laws.EncodeFunct3.csrrs rd csr rs1
  | .csrrc rd csr rs1 => Laws.EncodeFunct3.csrrc rd csr rs1
  | .csrrwi rd csr uimm => Laws.EncodeFunct3.csrrwi rd csr uimm
  | .csrrsi rd csr uimm => Laws.EncodeFunct3.csrrsi rd csr uimm
  | .csrrci rd csr uimm => Laws.EncodeFunct3.csrrci rd csr uimm
  | .mret => Laws.EncodeFunct3.mret
  | .sret => Laws.EncodeFunct3.sret

/-- An instruction's word carries the instruction's operands. -/
theorem carriesOperands_encode (i : Instr) : CarriesOperands (encode i) i := by
  cases i with
  | mret => rfl
  | sret => rfl
  | _ => simp [CarriesOperands, encode]

/-- Bits 11:7, as the bit vector they are. -/
theorem rd_encodeCsrForm (csr : CsrNum) (src : BitVec 5) (f3 : BitVec 3) (rd : Reg) :
    (encodeCsrForm csr src f3 rd).extractLsb' 7 5 = BitVec.ofFin rd :=
  congrArg BitVec.ofFin (fieldRd_encodeCsrForm csr src f3 rd)

/-! ### Masked words (30_encoding R63) -/

/-- Words with a field in common agree at each of its bits. -/
theorem getLsbD_eq_of_extractLsb'_eq {v w : InstrWord} {start len i : Nat}
    (h : v.extractLsb' start len = w.extractLsb' start len) (hlo : start ≤ i) (hhi : i < start + len) :
    v.getLsbD i = w.getLsbD i := by
  have hbit := congrArg (·.getLsbD (i - start)) h
  simpa [show i - start < len by omega, Nat.add_sub_cancel' hlo] using hbit

/-- A word is its five fields. -/
theorem instrWord_eq_iff_fields (v w : InstrWord) :
    v = w ↔ fieldOpcode v = fieldOpcode w ∧ v.extractLsb' 7 5 = w.extractLsb' 7 5 ∧
      fieldFunct3 v = fieldFunct3 w ∧ v.extractLsb' 15 5 = w.extractLsb' 15 5 ∧ fieldCsr v = fieldCsr w := by
  constructor
  · rintro rfl
    exact ⟨rfl, rfl, rfl, rfl, rfl⟩
  · rintro ⟨hop, hrd, hf, hsrc, hcsr⟩
    refine BitVec.eq_of_getLsbD_eq fun i hi => ?_
    rcases (by omega : i < 7 ∨ 7 ≤ i ∧ i < 12 ∨ 12 ≤ i ∧ i < 15 ∨ 15 ≤ i ∧ i < 20 ∨ 20 ≤ i) with
      h | ⟨h, h'⟩ | ⟨h, h'⟩ | ⟨h, h'⟩ | h
    · exact getLsbD_eq_of_extractLsb'_eq hop (Nat.zero_le i) h
    · exact getLsbD_eq_of_extractLsb'_eq hrd h h'
    · exact getLsbD_eq_of_extractLsb'_eq hf h h'
    · exact getLsbD_eq_of_extractLsb'_eq hsrc h h'
    · exact getLsbD_eq_of_extractLsb'_eq hcsr h hi

/-- The fields of a masked word are the fields masked. -/
theorem fieldOpcode_and (v w : InstrWord) : fieldOpcode (v &&& w) = fieldOpcode v &&& fieldOpcode w :=
  BitVec.extractLsb'_and

/-- See `fieldOpcode_and`. -/
theorem fieldFunct3_and (v w : InstrWord) : fieldFunct3 (v &&& w) = fieldFunct3 v &&& fieldFunct3 w :=
  BitVec.extractLsb'_and

/-- See `fieldOpcode_and`. -/
theorem fieldCsr_and (v w : InstrWord) : fieldCsr (v &&& w) = fieldCsr v &&& fieldCsr w :=
  BitVec.extractLsb'_and

/-- `w & mask == match` for a mask that keeps `opcode` and `funct3` whole, drops `rd` and bits 19:15, and keeps some of
`csr`. -/
theorem and_mask_eq_encodeCsrForm_iff {mask : InstrWord} (hop : fieldOpcode mask = BitVec.allOnes 7)
    (hrd : mask.extractLsb' 7 5 = 0) (hf : fieldFunct3 mask = BitVec.allOnes 3) (hsrc : mask.extractLsb' 15 5 = 0)
    (w : InstrWord) (csr : CsrNum) (f3 : BitVec 3) :
    w &&& mask = encodeCsrForm csr 0 f3 0 ↔
      fieldOpcode w = opcodeSystem ∧ fieldFunct3 w = f3 ∧ fieldCsr w &&& fieldCsr mask = csr := by
  rw [instrWord_eq_iff_fields]
  simp only [fieldOpcode_and, BitVec.extractLsb'_and, fieldFunct3_and, fieldCsr_and, hop, hrd, hf, hsrc,
    BitVec.and_allOnes]
  simp [source_encodeCsrForm, rd_encodeCsrForm]

/-- A CSR row of the opcode map: `match` is the row's word with every operand 0. -/
theorem and_rowMask_eq_iff {w pattern : InstrWord} {f3 : BitVec 3} (hp : pattern = encodeCsrForm 0 0 f3 0) :
    w &&& 0x0000707F = pattern ↔ fieldOpcode w = opcodeSystem ∧ fieldFunct3 w = f3 := by
  have hcsr : fieldCsr 0x0000707F = 0 := by decide
  rw [hp, and_mask_eq_encodeCsrForm_iff (by decide) (by decide) (by decide) (by decide), hcsr]
  simp

/-- The full pattern of a CSR row and a register: `match` is the row's word with that `csr` field. -/
theorem and_fullMask_eq_iff {w pattern : InstrWord} {csr : CsrNum} {f3 : BitVec 3}
    (hp : pattern = encodeCsrForm csr 0 f3 0) :
    w &&& 0xFFF0707F = pattern ↔ fieldOpcode w = opcodeSystem ∧ fieldFunct3 w = f3 ∧ fieldCsr w = csr := by
  have hcsr : fieldCsr 0xFFF0707F = BitVec.allOnes 12 := by decide
  rw [hp, and_mask_eq_encodeCsrForm_iff (by decide) (by decide) (by decide) (by decide), hcsr, BitVec.and_allOnes]

end Sys2Proof

namespace Sys2Proof.Claims

/-- Settles O1: an instruction's word carries its `opcode`, its `funct3` and its operands, and that is what `decode`
reads. -/
theorem decodeOfEncode : Obligations.DecodeOfEncode := by
  intro i
  obtain ⟨hop, hf⟩ := encode_funct3 i
  exact (decode_eq_ok_iff (encode i) i).2 ⟨hop, hf, carriesOperands_encode i⟩

/-- A word decodes to a trap return exactly when it is that return's fixed pattern (30_encoding R64). -/
theorem decode_eq_trapReturn_iff (w : InstrWord) :
    (decode w = .ok .mret ↔ w = mretWord) ∧ (decode w = .ok .sret ↔ w = sretWord) := by
  have carries {i : Instr} (h : decode w = .ok i) : CarriesOperands w i := ((decode_eq_ok_iff w i).1 h).2.2
  exact ⟨⟨carries, fun h => h ▸ decodeOfEncode .mret⟩, ⟨carries, fun h => h ▸ decodeOfEncode .sret⟩⟩

/-- Settles O3: a row's mask keeps the `opcode` and `funct3` fields, and the `csr` field in the full patterns; by
`decode_eq_ok_iff` a word is an instruction of the row for some operands exactly when these fields are the row's. -/
theorem decodeFollowsOpcodeMap : Obligations.DecodeFollowsOpcodeMap := by
  intro w
  obtain ⟨hmret, hsret⟩ := decode_eq_trapReturn_iff w
  rw [and_rowMask_eq_iff (f3 := 0b001) (by decide), and_rowMask_eq_iff (f3 := 0b010) (by decide),
    and_rowMask_eq_iff (f3 := 0b011) (by decide), and_rowMask_eq_iff (f3 := 0b101) (by decide),
    and_rowMask_eq_iff (f3 := 0b110) (by decide), and_rowMask_eq_iff (f3 := 0b111) (by decide),
    and_fullMask_eq_iff (csr := 0x304) (f3 := 0b001) (by decide),
    and_fullMask_eq_iff (csr := 0x344) (f3 := 0b001) (by decide)]
  refine ⟨?_, ?_, ?_, ?_, ?_, ?_, hmret, hsret, ?_, ?_⟩ <;>
    simp [decode_eq_ok_iff, CarriesOperands, Laws.EncodeFunct3.funct3Of]

end Sys2Proof.Claims

/-! ## The family of 40_csr_access: the six CSR instructions on `mie` and `mip` -/

namespace Sys2Proof

namespace Params

/-- A value below `2 ^ MXLEN` is its own cut to MXLEN bits. -/
theorem fit_eq_self_of_lt {p : Params} {w : Word} (h : w.toNat < 2 ^ Claims.widthOf p) : p.fit w = w := by
  unfold fit xmask
  unfold Claims.widthOf at h
  cases hx : p.mxlen with
  | rv64 => exact BitVec.and_allOnes
  | rv32 =>
    rw [hx] at h
    refine BitVec.eq_of_toNat_eq ?_
    rw [BitVec.toNat_and]
    exact Nat.and_two_pow_sub_one_of_lt_two_pow h

end Params

namespace Machine

/-! ### What a granted access does to the hart (40_csr_access R72 to R77) -/

/-- A granted access touches the hart at `rd`, where it reads, and at `pc`. -/
theorem csrComplete_hart (c : Csr) (rd : Reg) (reads : Bool) (rule : WriteRule) (s : State) :
    (csrComplete c rd reads rule s).hart =
      { (if reads then writeReg rd (csrRead c s) s else s).hart with pc := s.params.fit (s.hart.pc + 4) } := by
  have hnote : (writeReg rd (csrRead c s) (noteRead c s)).hart = (writeReg rd (csrRead c s) s).hart := by
    unfold writeReg; split <;> simp
  rw [csrComplete_eq]
  cases rule (csrOld c s) <;> cases reads <;> simp [hnote, noteRead_frame, csrWrite_frame]

/-- A granted access advances `pc`. -/
theorem csrComplete_pcAdvanced (c : Csr) (rd : Reg) (reads : Bool) (rule : WriteRule) (s : State) :
    PcAdvanced s (csrComplete c rd reads rule s) :=
  congrArg Hart.pc (csrComplete_hart c rd reads rule s)

/-- Of the hart a granted access changes nothing but the general registers and `pc`. -/
theorem csrComplete_hart_frame (c : Csr) (rd : Reg) (reads : Bool) (rule : WriteRule) (s : State) :
    { (csrComplete c rd reads rule s).hart with x := s.hart.x, pc := s.hart.pc } = s.hart := by
  rw [csrComplete_hart]
  cases reads with
  | false => rfl
  | true => exact congrArg (fun h : Hart => { h with pc := s.hart.pc }) (writeReg_hart_frame rd (csrRead c s) s)

/-- A granted access puts what the register read before it into `rd`; it may leave the read out where `rd` = `x0`. -/
theorem csrComplete_regs {c : Csr} {rd : Reg} {reads : Bool} (hreads : rd ≠ 0 → reads = true) (rule : WriteRule)
    (s : State) : RegsAfter rd (csrRead c s) s (csrComplete c rd reads rule s) := by
  cases reads with
  | true => exact csrComplete_reads_regs c rd rule s
  | false =>
    have hrd : rd = 0 := by simpa using hreads
    intro r
    rw [if_neg fun h => h.2 hrd]
    exact readReg_congr (by rw [csrComplete_hart]; rfl) r

/-! ### What a granted access does to the pair and to the evaluation logic -/

/-- A granted access is an explicit write exactly where its rule gives a value (60_exceptions R109, 40_csr_access R78). -/
theorem csrComplete_evaluatedIf (c : Csr) (rd : Reg) (reads : Bool) (rule : WriteRule) (s : State) :
    EvaluatedIf (rule (csrOld c s)).isSome s (csrComplete c rd reads rule s) := by
  unfold EvaluatedIf
  cases h : rule (csrOld c s) with
  | none => exact (csrComplete_unwritten h).1
  | some v => exact csrComplete_written h

/-- An access to `mie` or `mip` leaves the inputs and the count of draws alone. -/
theorem csrComplete_pair_frame {c : Csr} (hc : c = .mie ∨ c = .mip) (rd : Reg) (reads : Bool) (rule : WriteRule)
    (s : State) :
    (csrComplete c rd reads rule s).inputs = s.inputs ∧ (csrComplete c rd reads rule s).draws = s.draws := by
  rw [csrComplete_eq]
  obtain rfl | rfl := hc <;> cases rule _ <;> cases reads <;> simp [noteRead, csrWrite]

/-- An access to `mie` or `mip` leaves all of `CsrFrame` alone. -/
theorem csrComplete_csrFrame {c : Csr} (hc : c = .mie ∨ c = .mip) (rd : Reg) (reads : Bool) (rule : WriteRule)
    (s : State) : CsrFrame s (csrComplete c rd reads rule s) := by
  obtain ⟨hparams, hcode, hagenda, houtput, -, -⟩ := csrComplete_frame c rd reads rule s
  obtain ⟨hinputs, -⟩ := csrComplete_pair_frame hc rd reads rule s
  exact ⟨hparams, hinputs, csrComplete_hart_frame c rd reads rule s, fun a => by rw [hcode], hagenda, houtput⟩

/-- What an access to `mie` leaves in the pair: `mie` takes the written value cut to `MIE_WMASK` (10_state R17). -/
theorem csrComplete_mie_pair (rd : Reg) (reads : Bool) (rule : WriteRule) (s : State) :
    (csrComplete .mie rd reads rule s).mie = ((rule s.mie).map (· &&& s.params.mieWritable)).getD s.mie ∧
      (csrComplete .mie rd reads rule s).pend = s.pend := by
  rw [csrComplete_eq, show csrOld .mie s = s.mie from rfl]
  cases rule s.mie <;> cases reads <;> simp [noteRead, csrWrite]

/-- What an access to `mip` leaves in the pair: the storage takes its bits of the written value (10_state R32). -/
theorem csrComplete_mip_pair (rd : Reg) (reads : Bool) (rule : WriteRule) (s : State) :
    (csrComplete .mip rd reads rule s).mie = s.mie ∧
      (csrComplete .mip rd reads rule s).pend =
        ((rule (mipRmw s)).map (s.pend.write s.params s.inputs.stce)).getD s.pend := by
  rw [csrComplete_eq, show csrOld .mip s = mipRmw s from rfl]
  cases rule (mipRmw s) <;> cases reads <;> simp [noteRead, csrWrite]

/-! ### What the rules of the set and clear forms write (40_csr_access R78) -/

/-- The set forms write `old | t`, unless suppressed. -/
theorem setBits_decide (suppressed : Prop) [Decidable suppressed] (t old : Word) :
    setBits (decide suppressed) t old = if suppressed then none else some (old ||| t) := by
  simp only [setBits, decide_eq_true_eq]

/-- The clear forms write `old & ~t`, unless suppressed. -/
theorem clearBits_decide (suppressed : Prop) [Decidable suppressed] (t old : Word) :
    clearBits (decide suppressed) t old = if suppressed then none else some (old &&& ~~~t) := by
  simp only [clearBits, decide_eq_true_eq]

end Machine

namespace Claims

open Machine

/-! ### The terms of the claims -/

/-- Where `pc + 4` does not pass the end of the MXLEN-bit numbers, the cut to MXLEN bits is not seen. -/
theorem pcPlusFour_of_pcAdvanced {s t : State} (h : PcAdvanced s t) : PcPlusFour s t := by
  intro hlt
  have hle : (s.hart.pc + 4).toNat ≤ s.hart.pc.toNat + 4 := Nat.mod_le _ _
  exact h.trans (Params.fit_eq_self_of_lt (hle.trans_lt hlt))

/-- The old value of a read-modify-write of `mip`, as the claims and as the model say it (10_state R31). -/
theorem mipOld_eq_mipRmw (s : State) : mipOld s = mipRmw s := by
  refine word_ext fun i hi => ?_
  rw [mipOld, withBit_getLsbD]
  by_cases h9 : i = 9
  · subst h9
    rw [if_pos ⟨rfl, hi⟩]
    exact (mipWithSEIP_getLsbD_nine _ s).symm
  · rw [if_neg fun h => h9 h.1.symm]
    exact mipWithSEIP_getLsbD_of_ne_nine _ _ s h9

/-- The model's entry of the illegal-instruction exception does what the spec itself says of it (40_csr_access R71). -/
theorem illegalRaised_of_entered {w : InstrWord} {s t : State} (h : IllegalEntered w s t) : IllegalRaised w s t := by
  obtain ⟨htrap, hevaln, -, -, -⟩ := h
  obtain ⟨hx, -⟩ := htrap.otherHart
  refine ⟨htrap.mcause, ?_, hx, htrap.mie, htrap.pend, htrap.inputs, hevaln⟩
  rw [htrap.mtval]
  exact ite_eq_or_eq _ _ _

/-! ### The six CSR instructions on the pair -/

/-- A granted access to `mie`. -/
theorem mieAccess_csrComplete {rd : Reg} {reads : Bool} (hreads : rd ≠ 0 → reads = true) (rule : WriteRule)
    (s : State) : MieAccess rd (rule s.mie) s (csrComplete .mie rd reads rule s) := by
  obtain ⟨hmie, hpend⟩ := csrComplete_mie_pair rd reads rule s
  obtain ⟨-, hdraws⟩ := csrComplete_pair_frame (.inl rfl) rd reads rule s
  refine ⟨csrComplete_csrFrame (.inl rfl) rd reads rule s, csrComplete_regs hreads rule s,
    pcPlusFour_of_pcAdvanced (csrComplete_pcAdvanced .mie rd reads rule s), hmie.trans ?_, hpend,
    csrComplete_evaluatedIf .mie rd reads rule s, hdraws⟩
  cases rule s.mie <;> rfl

/-- A granted access to `mip`. -/
theorem mipAccess_csrComplete {rd : Reg} {reads : Bool} (hreads : rd ≠ 0 → reads = true) (rule : WriteRule)
    (s : State) : MipAccess rd (rule (mipOld s)) s (csrComplete .mip rd reads rule s) := by
  obtain ⟨hmie, hpend⟩ := csrComplete_mip_pair rd reads rule s
  obtain ⟨-, hdraws⟩ := csrComplete_pair_frame (.inr rfl) rd reads rule s
  rw [mipOld_eq_mipRmw]
  refine ⟨csrComplete_csrFrame (.inr rfl) rd reads rule s, csrComplete_regs hreads rule s,
    pcPlusFour_of_pcAdvanced (csrComplete_pcAdvanced .mip rd reads rule s), hmie, hpend.trans ?_,
    csrComplete_evaluatedIf .mip rd reads rule s, hdraws⟩
  cases rule (mipRmw s) <;> rfl

/-- Below M-mode an instruction of the shared shape raises the illegal-instruction exception on either register
(40_csr_access R71). -/
theorem csrInstr_pair_illegal {i : Instr} {csr : CsrNum} {rd : Reg} {reads : Bool} {rule : WriteRule} {s : State}
    (hcsr : csr = 0x304 ∨ csr = 0x344) (hm : s.hart.priv ≠ .m) :
    ∃ t, csrInstr i csr rd reads rule s = .next t ∧ IllegalRaised (encode i) s t := by
  refine ⟨_, ?_, illegalRaised_of_entered (raiseIllegal_entered (encode i) s)⟩
  obtain rfl | rfl := hcsr
  · exact csrInstr_illegal ofNumber_mie ((csrCheck_mie s).trans (if_neg hm))
  · exact csrInstr_illegal ofNumber_mip ((csrCheck_mip s).trans (if_neg hm))

/-- The meaning on the pair of an instruction form of the shared shape `csrInstr`: it writes what its rule makes of the
old value, and reads unless `rd` = `x0` lets it leave the read out. -/
theorem pairMeaning_of_csrInstr {mk : CsrNum → Instr} {rd : Reg} {reads : Bool} {rule : WriteRule} {s : State}
    (hexec : ∀ csr, exec (mk csr) s = csrInstr (mk csr) csr rd reads rule s) (hreads : rd ≠ 0 → reads = true) :
    PairMeaning mk rd (rule s.mie) (rule (mipOld s)) s := by
  simp only [PairMeaning, hexec]
  constructor
  · intro hm
    exact ⟨⟨_, csrInstr_mie hm, mieAccess_csrComplete hreads rule s⟩,
      ⟨_, csrInstr_mip hm, mipAccess_csrComplete hreads rule s⟩⟩
  · intro hm
    exact ⟨csrInstr_pair_illegal (.inl rfl) hm, csrInstr_pair_illegal (.inr rfl) hm⟩

/-- Settles O7: the shared shape with the rule that writes the operand; the read is left out only for `rd` = `x0`. -/
theorem csrrwReplacesPair : Obligations.CsrrwReplacesPair := fun rd rs1 s =>
  pairMeaning_of_csrInstr (rule := writeOperand (regOperand rs1 s)) (fun _ => rfl) (decide_eq_true (p := rd ≠ 0))

/-- Settles O8: the shared shape with the rule that sets bits. -/
theorem csrrsSetsBitsOfPair : Obligations.CsrrsSetsBitsOfPair := by
  intro rd rs1 s
  rw [← setBits_decide, ← setBits_decide]
  exact pairMeaning_of_csrInstr (fun _ => rfl) fun _ => rfl

/-- Settles O9: the shared shape with the rule that clears bits. -/
theorem csrrcClearsBitsOfPair : Obligations.CsrrcClearsBitsOfPair := by
  intro rd rs1 s
  rw [← clearBits_decide, ← clearBits_decide]
  exact pairMeaning_of_csrInstr (fun _ => rfl) fun _ => rfl

/-- Settles O10: as O7, with the immediate operand. -/
theorem csrrwiReplacesPair : Obligations.CsrrwiReplacesPair := fun rd uimm _ =>
  pairMeaning_of_csrInstr (rule := writeOperand (immOperand uimm)) (fun _ => rfl) (decide_eq_true (p := rd ≠ 0))

/-- Settles O11: as O8, with the immediate operand. -/
theorem csrrsiSetsBitsOfPair : Obligations.CsrrsiSetsBitsOfPair := by
  intro rd uimm s
  rw [← setBits_decide, ← setBits_decide]
  exact pairMeaning_of_csrInstr (fun _ => rfl) fun _ => rfl

/-- Settles O12: as O9, with the immediate operand. -/
theorem csrrciClearsBitsOfPair : Obligations.CsrrciClearsBitsOfPair := by
  intro rd uimm s
  rw [← clearBits_decide, ← clearBits_decide]
  exact pairMeaning_of_csrInstr (fun _ => rfl) fun _ => rfl

end Claims

end Sys2Proof

/-! ## The family of 70_reset: what stands right after reset -/

namespace Sys2Proof

namespace Machine

/-- `mip[3]` reads 0 in every state: neither storage nor an input stands behind MSIP (10_state R30). -/
theorem mipRead_getLsbD_three (s : State) : (mipRead s).getLsbD 3 = false := by
  rw [mipRead, mipWithSEIP_low _ _ (by decide)]
  simp

/-- Reset clears all the storage behind `mip` (70_reset R130). -/
@[simp] theorem resetWith_pend (p : Params) (mie0 vector cause0 : Word) :
    (State.resetWith p mie0 vector cause0).pend = ⟨false, false, false, false, false, 0⟩ := rfl

end Machine

namespace Claims

open Machine

/-- Settles O48: reset clears the storage, and MSIP reads 0 in every state. -/
theorem resetClearsStorage : Obligations.ResetClearsStorage := by
  intro p mie0 vector cause0 s
  have hpend : s.pend = ⟨false, false, false, false, false, 0⟩ := resetWith_pend p mie0 vector cause0
  rw [hpend]
  exact ⟨rfl, rfl, rfl, rfl, rfl, mipRead_getLsbD_three s⟩

end Claims

end Sys2Proof

/-! ## The invariant of 10_state section 4: what every step keeps -/

namespace Sys2Proof

namespace Params

/-- A word that is part of one that fits does too. -/
theorem fits_of_within {p : Params} {v m : Word} (h : v &&& ~~~m = 0) (hm : p.Fits m) : p.Fits v := by
  rw [within_iff] at h
  rw [fits_iff] at *
  exact fun i hi => hm i (h i hi)

/-- A small number fits, whichever the width. -/
theorem fits_ofNat (p : Params) {i : Nat} (h : i < 2 ^ 32) : p.Fits (BitVec.ofNat 64 i) := by
  refine fit_eq_self_of_lt ?_
  have hw : 32 ≤ Claims.widthOf p := by unfold Claims.widthOf; cases p.mxlen <;> decide
  have hp : 2 ^ 32 ≤ 2 ^ Claims.widthOf p := Nat.pow_le_pow_right (by decide) hw
  exact (BitVec.toNat_ofNat i 64 ▸ Nat.mod_le _ _ : (BitVec.ofNat 64 i).toNat ≤ i).trans_lt (h.trans_le hp)

end Params

/-- A bit that is set has a number below 64. -/
theorem lt_of_getLsbD {v : Word} {i : Nat} (h : v.getLsbD i = true) : i < 64 := BitVec.lt_of_getLsbD h

/-- What a mask lets through is within it. -/
theorem and_within (v m : Word) : v &&& m &&& ~~~m = 0 := (within_iff _ _).mpr fun i h => by
  rw [BitVec.getLsbD_and, Bool.and_eq_true] at h
  exact h.2

namespace Machine

/-! ### The invariant in two parts: the data, and the evaluation logic's memory -/

/-- The part of the invariant that says nothing of the evaluation logic's memory. -/
structure State.DataSound (s : State) : Prop where
  mieConfined : s.mie &&& ~~~s.params.mieWritable = 0
  platformConfined : s.pend.platform &&& ~~~s.params.platformStored = 0
  hart : s.hart.Sound s.params
  midelegFits : s.params.Fits s.inputs.mideleg
  hidelegFits : s.params.Fits s.inputs.hideleg
  codeCanonical : Code.WellFormed s.code

/-- What the evaluation logic noted right after an xRET or explicit write is enabled, and MSIP is none of it. -/
structure Boundary.Noted (p : Params) (mie : Word) (b : Boundary) : Prop where
  sound : b.Sound p
  enabled : b.held &&& ~~~mie = 0
  msip : b.held.getLsbD 3 = false

/-- The part of the invariant on the evaluation logic's memory, where `mie` holds the given value. -/
structure Evaluation.Sound (p : Params) (mie : Word) (e : Evaluation) : Prop where
  bounded : e.recent.length ≤ p.evalBound
  recent : ∀ b ∈ e.recent, b.Sound p
  due : ∀ b, e.due = some b → b.Noted p mie
  dueCuts : e.due ≠ none → ∀ b ∈ e.recent, b.driven = 0

/-- The invariant is its two parts. -/
theorem inv_iff (s : State) : s.Inv ↔ s.DataSound ∧ s.evaln.Sound s.params s.mie := by
  constructor
  · intro h
    refine ⟨⟨h.mieConfined, h.platformConfined, h.hart, h.midelegFits, h.hidelegFits, h.codeCanonical⟩,
      h.historyBounded, h.historySound, fun b hb => ?_, h.dueCutsHistory⟩
    obtain ⟨hs, he, hm⟩ := h.dueSound b hb
    exact ⟨hs, he, hm⟩
  · rintro ⟨hd, he⟩
    refine ⟨hd.mieConfined, hd.platformConfined, hd.hart, hd.midelegFits, hd.hidelegFits, hd.codeCanonical, he.bounded,
      he.recent, fun b hb => ?_, he.dueCuts⟩
    have hn := he.due b hb
    exact ⟨hn.sound, hn.enabled, hn.msip⟩

/-! ### What the evaluation logic notes -/

/-- MSIP's condition never holds: its bit of `mip` reads 0 (10_state R20). -/
theorem trapCond_three (s : State) : trapCond 3 s = false := by
  rw [← Bool.not_eq_true, trapCond_iff, mipRead_getLsbD_three]
  simp

/-- The interrupts whose condition holds are enabled. -/
theorem condSet_enabled (s : State) : condSet s &&& ~~~s.mie = 0 := by
  rw [within_iff]
  intro i hi
  rw [condSet_getLsbD, trapCond_iff] at hi
  obtain ⟨-, -, hmie, -⟩ := hi
  exact hmie

/-- What stands now is sound, wherever `mie` keeps to its mask. -/
theorem boundaryNow_noted {s : State} (h : s.DataSound) : (boundaryNow s).Noted s.params s.mie := by
  have hfits : s.params.Fits (condSet s) :=
    Params.fits_of_within (condSet_enabled s) (Params.fits_of_within h.mieConfined s.params.fits_mieWritable)
  have hdriven := (within_iff _ _).mp (inputDriven_drivable s)
  refine ⟨⟨?_, ?_, hfits⟩, condSet_enabled s, (condSet_getLsbD s 3).trans (trapCond_three s)⟩
  all_goals
    rw [within_iff]
    intro i hi
    obtain ⟨hcond, hin⟩ : (condSet s).getLsbD i = true ∧ (inputDriven s).getLsbD i = true := by
      simpa only [boundaryNow, BitVec.getLsbD_and, Bool.and_eq_true] using hi
  · exact hcond
  · exact hdriven i hin

/-- A boundary stripped of what an input drove stays sound. -/
theorem Boundary.Sound.undriven {p : Params} {b : Boundary} (h : b.Sound p) : b.undriven.Sound p :=
  ⟨by simp [Boundary.undriven], by simp [Boundary.undriven], h.heldFits⟩

/-- After an xRET or explicit write the memory is sound if what the instruction left is. -/
theorem Evaluation.Sound.after {p : Params} {mie mie' : Word} {e : Evaluation} (h : e.Sound p mie) {now : Boundary}
    (hnow : now.Noted p mie') : (e.after now).Sound p mie' where
  bounded := by simpa [Evaluation.after] using h.bounded
  recent := by
    intro b hb
    obtain ⟨b', hb', rfl⟩ := List.mem_map.mp hb
    exact (h.recent b' hb').undriven
  due := by
    rintro b ⟨⟩
    exact hnow
  dueCuts := fun _ _ hb => (mem_after_recent hb).1

/-- Passing a boundary keeps the memory sound, whatever `mie` then becomes: nothing is due any more. -/
theorem passBoundary_evaln_sound {s : State} (h : s.Inv) (mie : Word) : (passBoundary s).evaln.Sound s.params mie := by
  obtain ⟨hd, he⟩ := (inv_iff s).mp h
  refine ⟨List.length_take_le _ _, fun b hb => ?_, fun _ hb => (nomatch hb), fun hn => absurd rfl hn⟩
  obtain rfl | hb := List.mem_cons.mp (List.mem_of_mem_take hb)
  · exact (boundaryNow_noted hd).sound
  · exact he.recent b hb

/-! ### How a step's result meets the invariant -/

/-- A state whose data are sound meets the invariant when the evaluation is due by what stands in it. -/
theorem inv_of_evaluated {e : Evaluation} {p : Params} {mie : Word} {t : State} (he : e.Sound p mie) (ht : t.DataSound)
    (hp : t.params = p) (hev : t.evaln = e.after (boundaryNow t)) : t.Inv := by
  subst hp
  refine (inv_iff t).mpr ⟨ht, ?_⟩
  rw [hev]
  exact he.after (boundaryNow_noted ht)

/-- A state whose data are sound meets the invariant when it keeps a memory that is sound for its `mie`. -/
theorem inv_of_kept {e : Evaluation} {p : Params} {t : State} (he : e.Sound p t.mie) (ht : t.DataSound)
    (hp : t.params = p) (hev : t.evaln = e) : t.Inv := by
  subst hp hev
  exact (inv_iff t).mpr ⟨ht, he⟩

/-- Passing a boundary keeps the invariant. -/
theorem passBoundary_inv {s : State} (h : s.Inv) : (passBoundary s).Inv :=
  inv_of_kept (passBoundary_evaln_sound h _) { ((inv_iff s).mp h).1 with } rfl rfl

/-! ### The hart's registers -/

/-- A write of a general register keeps the hart sound if the value fits. -/
theorem writeReg_hart_sound {s : State} {r : Reg} {v : Word} (h : s.hart.Sound s.params) (hv : s.params.Fits v) :
    (writeReg r v s).hart.Sound s.params := by
  by_cases hr : r = 0
  · simpa [writeReg, hr] using h
  · have hx : ∀ q : Reg, (writeReg r v s).hart.x[q] = if q = r then v else s.hart.x[q] := by
      intro q
      simp only [writeReg, hr, if_false, Fin.getElem_fin]
      rw [Vector.getElem_set]
      simp only [Fin.val_inj, eq_comm]
    refine ⟨by rw [hx, if_neg (Ne.symm hr)]; exact h.x0, fun q => ?_, ?_, ?_, ?_, ?_, ?_, ?_⟩
    · rw [hx]
      split
      · exact hv
      · exact h.x q
    · simpa using h.pc
    · simpa using h.mepc
    · simpa using h.sepc
    · simpa using h.mcause
    · simpa using h.mtval
    · simpa using h.mtvecBase

/-- The same of the whole state. -/
theorem writeReg_dataSound {s : State} {r : Reg} {v : Word} (h : s.DataSound) (hv : s.params.Fits v) :
    (writeReg r v s).DataSound where
  mieConfined := by simpa using h.mieConfined
  platformConfined := by simpa using h.platformConfined
  hart := by simpa using writeReg_hart_sound h.hart hv
  midelegFits := by simpa using h.midelegFits
  hidelegFits := by simpa using h.hidelegFits
  codeCanonical := by simpa using h.codeCanonical

/-- `pc + 4` is cut to the width. -/
theorem advancePc_dataSound {s : State} (h : s.DataSound) : (advancePc s).DataSound :=
  { h with hart := { h.hart with pc := s.params.fits_fit _ } }

/-- A trap entry keeps the data sound if the cause, `mtval` and the entry address fit. -/
theorem trapToM_dataSound {s : State} (h : s.DataSound) {cause tval target : Word} (hc : s.params.Fits cause)
    (ht : s.params.Fits tval) (hp : s.params.Fits target) : (trapToM cause tval target s).DataSound :=
  { h with hart := { h.hart with mepc := h.hart.pc, mcause := hc, mtval := ht, pc := hp } }

/-- So does the illegal-instruction exception. -/
theorem raiseIllegal_dataSound {s : State} (h : s.DataSound) (w : InstrWord) : (raiseIllegal w s).DataSound := by
  refine trapToM_dataSound h (s.params.fits_ofNat (i := 2) (by decide)) ?_ h.hart.mtvecBase
  split
  · exact s.params.fits_setWidth32 w
  · exact s.params.fits_zero

/-- Where an interrupt enters fits. -/
theorem fits_interruptTarget {s : State} (h : s.DataSound) (i : Nat) : s.params.Fits (interruptTarget i s) := by
  unfold interruptTarget
  split
  · exact s.params.fits_fit _
  · exact h.hart.mtvecBase

/-- An interrupt's entry keeps the data sound; a boundary takes none numbered 64 or above. -/
theorem takeMInterrupt_dataSound {s : State} (h : s.DataSound) {i : Nat} (hi : i < 64) :
    (takeMInterrupt i s).DataSound :=
  { trapToM_dataSound h (Params.fits_or s.params.fits_interruptBit (s.params.fits_ofNat (by omega))) s.params.fits_zero
      (fits_interruptTarget h i) with }

/-- No boundary decides to take an interrupt numbered 64 or above. -/
theorem decideInterrupt_lt {c : EvalChoice} {s : State} {i : Nat} (h : decideInterrupt c s = some i) : i < 64 := by
  obtain h | h | ⟨-, -, h⟩ := decideInterrupt_some h
  · exact trapCond_lt (selectMInterrupt_trapCond h)
  · obtain ⟨b, -, hb, -⟩ := settledInterrupt_eq_some h
    exact lt_of_getLsbD hb
  · exact lt_of_getLsbD h

/-- MRET and SRET move registers that fit. -/
theorem returnFromM_dataSound {s : State} (h : s.DataSound) : (returnFromM s).DataSound :=
  { h with hart := { h.hart with pc := h.hart.mepc } }

/-- See `returnFromM_dataSound`. -/
theorem returnFromS_dataSound {s : State} (h : s.DataSound) : (returnFromS s).DataSound :=
  { h with hart := { h.hart with pc := h.hart.sepc } }

/-! ### What a CSR access reads and writes -/

/-- `mip` fits: below 16 its bits exist for either width, and above they are platform bits. -/
theorem fits_mipRead (s : State) : s.params.Fits (mipRead s) := by
  rw [Params.fits_iff]
  intro i hi
  by_cases hlow : i < 16
  · exact s.params.xmask_low (by omega)
  · rw [mipRead, mipWithSEIP_high _ _ (by omega)] at hi
    exact (Params.fits_iff _ _).mp s.params.fits_platformBits i (pendingPlatform_within s i hi)

/-- The fields of a view register stand in its low bits. -/
theorem viewFields_lt {c : Csr} {kf : Nat × ViewField} (h : kf ∈ viewFields c) : kf.1 < 16 := by
  revert kf
  cases c <;> decide

/-- The fields' bits fit. -/
theorem fits_viewBits {fs : List (Nat × ViewField)} (hfs : ∀ kf ∈ fs, kf.1 < 16) (s : State) :
    s.params.Fits (viewBits fs s) := by
  induction fs with
  | nil => exact s.params.fits_zero
  | cons kf rest ih =>
    have hk : kf.1 < 16 := hfs kf List.mem_cons_self
    exact Params.fits_or (s.params.fits_atBit (by omega) _) (ih fun q hq => hfs q (List.mem_cons_of_mem _ hq))

/-- The bits no field stands in fit. -/
theorem fits_viewRestMask {s : State} (h : s.DataSound) (c : Csr) : s.params.Fits (viewRestMask c s) := by
  cases c with
  | mie | mip => exact s.params.fits_zero
  | sip | sie => exact Params.fits_and_left (Params.fits_and_left h.midelegFits _) _
  | mvip | hip | hvip | vsip => exact s.params.fits_fit _

/-- What a read returns fits. -/
theorem fits_csrRead {s : State} (h : s.DataSound) (c : Csr) : s.params.Fits (csrRead c s) := by
  have hview : s.params.Fits (viewRegRead c s) :=
    Params.fits_or (fits_viewBits (fun _ => viewFields_lt) s) (Params.fits_and_right (fits_viewRestMask h c) _)
  cases c with
  | mie => exact Params.fits_of_within h.mieConfined s.params.fits_mieWritable
  | mip => exact fits_mipRead s
  | sip | sie | mvip | hip | hvip | vsip => exact hview

/-- A write through `sie` keeps `mie` in its mask: the bits it reaches are writable. -/
theorem withBit_mieConfined {p : Params} {mie : Word} (h : mie &&& ~~~p.mieWritable = 0) {i : Nat}
    (hi : i = 1 ∨ i = 5 ∨ i = 9 ∨ i = 13) (b : Bool) : withBit mie i b &&& ~~~p.mieWritable = 0 := by
  rw [within_iff] at h ⊢
  intro j hj
  rw [withBit_getLsbD] at hj
  split at hj
  · next hij => exact hij.1 ▸ p.mieWritable_sie hi
  · exact h j hj

/-- A write through `sie`. -/
theorem writeSie_dataSound {s : State} (h : s.DataSound) {i : Nat} (hi : i = 1 ∨ i = 5 ∨ i = 9 ∨ i = 13) (b : Bool) :
    (writeSie i b s).DataSound := by
  unfold writeSie
  split
  · exact { h with mieConfined := withBit_mieConfined h.mieConfined hi b }
  · exact h

/-- A write through any view field: it reaches `mie` through `sie` only, and no platform bit. -/
theorem viewStore_dataSound {s : State} (h : s.DataSound) (f : ViewField) (b : Bool) : (viewStore f b s).DataSound := by
  cases f with
  | sieSSIE | sieSTIE | sieSEIE | sieLCOFIE => exact writeSie_dataSound h (by decide) b
  | sipSSIP | sipLCOFIP => simp only [viewStore]; split <;> exact { h with }
  | _ => exact { h with }

/-- The same of a whole view register. -/
theorem storeViewBits_dataSound (fs : List (Nat × ViewField)) (v : Word) {s : State} (h : s.DataSound) :
    (storeViewBits fs v s).DataSound := by
  induction fs generalizing s with
  | nil => exact h
  | cons kf rest ih => exact ih (viewStore_dataSound h _ _)

/-- A CSR write keeps `mie` and the platform's storage in their masks. -/
theorem csrWrite_dataSound {s : State} (h : s.DataSound) (c : Csr) (v : Word) : (csrWrite c v s).DataSound := by
  have hview := storeViewBits_dataSound (viewFields c) v h
  cases c with
  | mie => exact { h with mieConfined := and_within v _ }
  | mip => exact { h with platformConfined := and_within v _ }
  | sip | sie | mvip | hip | hvip | vsip => exact { hview with }

/-- Noting a read keeps the data sound. -/
theorem noteRead_dataSound {s : State} (h : s.DataSound) (c : Csr) : (noteRead c s).DataSound := by
  cases c <;> exact { h with }

/-- A granted access keeps the data sound. -/
theorem csrComplete_dataSound {s : State} (h : s.DataSound) (c : Csr) (rd : Reg) (reads : Bool) (rule : WriteRule) :
    (csrComplete c rd reads rule s).DataSound := by
  have hread : (if reads then writeReg rd (csrRead c s) (noteRead c s) else s).DataSound := by
    cases reads with
    | false => exact h
    | true =>
      refine writeReg_dataSound (noteRead_dataSound h c) ?_
      rw [(noteRead_frame c s).1]
      exact fits_csrRead h c
  rw [csrComplete_eq]
  cases rule (csrOld c s) with
  | none => exact advancePc_dataSound hread
  | some v => exact advancePc_dataSound (csrWrite_dataSound hread c v)

/-! ### The eight instructions -/

/-- Every instruction keeps the data sound. -/
theorem exec_dataSound {i : Instr} {s t : State} (h : s.DataSound) (he : exec i s = .next t) : t.DataSound := by
  obtain ⟨c, rd, reads, rule, -, rfl⟩ | rfl | ⟨-, -, rfl⟩ | ⟨-, -, rfl⟩ := exec_cases he
  · exact csrComplete_dataSound h _ rd reads rule
  · exact raiseIllegal_dataSound h _
  · exact returnFromM_dataSound h
  · exact returnFromS_dataSound h

/-- An instruction leaves the next boundary due for evaluation, or leaves the evaluation logic and `mie` as they
were. -/
theorem exec_evaln_mie {i : Instr} {s t : State} (h : exec i s = .next t) :
    t.evaln = s.evaln.after (boundaryNow t) ∨ (t.evaln = s.evaln ∧ t.mie = s.mie) := by
  obtain ⟨c, rd, reads, rule, -, rfl⟩ | rfl | ⟨-, -, rfl⟩ | ⟨-, -, rfl⟩ := exec_cases h
  · cases hw : rule (csrOld (csrTarget c s) s) with
    | none =>
      obtain ⟨hevaln, hmie, -, -⟩ := csrComplete_unwritten (rd := rd) (reads := reads) hw
      exact .inr ⟨hevaln, hmie⟩
    | some v => exact .inl (csrComplete_written hw)
  · exact .inr ⟨rfl, rfl⟩
  · exact .inl rfl
  · exact .inl rfl

/-- Every instruction keeps the invariant. -/
theorem exec_inv {i : Instr} {s t : State} (h : s.Inv) (he : exec i s = .next t) : t.Inv := by
  obtain ⟨hd, hev⟩ := (inv_iff s).mp h
  have ht := exec_dataSound hd he
  have hp := (exec_frame he).1
  obtain hw | ⟨hw, hmie⟩ := exec_evaln_mie he
  · exact inv_of_evaluated hev ht hp hw
  · exact inv_of_kept (hmie ▸ hev) ht hp hw

/-! ### The other agents and the instructions outside this spec -/

/-- A change of STCE touches STIP only. -/
theorem changeStce_dataSound {s : State} (h : s.DataSound) (b : Bool) : (changeStce b s).DataSound := by
  unfold changeStce
  split <;> exact { h with }

/-- Every value an effect of an instruction outside this spec brings is cut to the width. -/
theorem applyEffect_dataSound {s : State} (h : s.DataSound) (e : HartEffect) : (applyEffect e s).DataSound := by
  cases e with
  | viewWrite f b => exact viewStore_dataSound h f b
  | menvcfgSTCE b => exact changeStce_dataSound h b
  | mideleg w => exact { h with midelegFits := s.params.fits_fit w }
  | hideleg w => exact { h with hidelegFits := s.params.fits_fit w }
  | mstatus | hstatusSPV | mode => exact { h with hart := { h.hart with } }
  | mtvec base _ => exact { h with hart := { h.hart with mtvecBase := s.params.fits_fit base } }
  | mepc w => exact { h with hart := { h.hart with mepc := s.params.fits_fit w } }
  | sepc w => exact { h with hart := { h.hart with sepc := s.params.fits_fit w } }
  | mcause w => exact { h with hart := { h.hart with mcause := s.params.fits_fit w } }
  | mtval w => exact { h with hart := { h.hart with mtval := s.params.fits_fit w } }
  | reg r w => exact writeReg_dataSound h (s.params.fits_fit w)
  | pc w => exact { h with hart := { h.hart with pc := s.params.fits_fit w } }

/-- All the effects of such an instruction keep the data sound. -/
theorem applyEffects_dataSound {es : List HartEffect} {s t : State} (h : s.DataSound)
    (ht : applyEffects es s = .next t) : t.DataSound := by
  induction es generalizing s with
  | nil => cases ht; exact h
  | cons e rest ih =>
    simp only [applyEffects] at ht
    split at ht
    · cases ht
    · exact ih (applyEffect_dataSound h e) ht

/-- An instruction outside this spec runs where nothing is due, so that a `mie` it changes falsifies no note. -/
theorem runForeign_inv {es : List HartEffect} {s t : State} (h : s.Inv)
    (hr : runForeign es (passBoundary s) = .next t) : t.Inv := by
  have ht : t.DataSound := by
    unfold runForeign at hr
    split at hr
    · next u hu =>
      have hud := applyEffects_dataSound ((inv_iff _).mp (passBoundary_inv h)).1 hu
      cases hr
      cases es.any HartEffect.evaluated <;> exact { hud with }
    · cases hr
    · cases hr
  obtain ⟨hp, -, -, -, hev⟩ := runForeign_frame hr
  split at hev
  · exact inv_of_evaluated (passBoundary_evaln_sound h s.mie) ht hp hev
  · exact inv_of_kept (passBoundary_evaln_sound h t.mie) ht hp hev

/-- The state right after reset meets the invariant, for every parameter and draw. -/
theorem resetWith_inv (p : Params) (mie0 vector cause0 : Word) : (State.resetWith p mie0 vector cause0).Inv where
  mieConfined := and_within mie0 _
  platformConfined := BitVec.zero_and
  hart :=
    { x0 := rfl
      x := fun r => by
        rw [show (State.resetWith p mie0 vector cause0).hart.x[r] = 0 from Vector.getElem_replicate r.isLt]
        exact p.fits_zero
      pc := p.fits_fit vector
      mepc := p.fits_zero
      sepc := p.fits_zero
      mcause := p.fits_fit cause0
      mtval := p.fits_zero
      mtvecBase := p.fits_zero }
  midelegFits := p.fits_zero
  hidelegFits := p.fits_zero
  codeCanonical := List.Pairwise.nil
  historyBounded := Nat.zero_le _
  historySound := fun _ hb => absurd hb List.not_mem_nil
  dueSound := fun _ hb => nomatch hb
  dueCutsHistory := fun h => absurd rfl h

/-- Every agent's step, a reset aside, keeps the data sound. -/
theorem applyEvent_dataSound {s : State} (h : s.DataSound) {e : EnvEvent} (he : e ≠ .reset) :
    (applyEvent e s).DataSound := by
  cases e with
  | reset => exact absurd rfl he
  | platform stored _ => exact { h with platformConfined := and_within stored _ }
  | menvcfgSTCE b => exact changeStce_dataSound h b
  | mideleg w => exact { h with midelegFits := s.params.fits_fit w }
  | hideleg w => exact { h with hidelegFits := s.params.fits_fit w }
  | mstatusMIE | mode => exact { h with hart := { h.hart with } }
  | code addr w => exact { h with codeCanonical := Code.place_wellFormed _ addr w h.codeCanonical }
  | _ => exact { h with }

/-- Every agent's step keeps the invariant. -/
theorem applyEvent_inv {s : State} (h : s.Inv) (e : EnvEvent) : (applyEvent e s).Inv := by
  by_cases he : e = .reset
  · subst he
    exact { resetWith_inv s.params (Config.mieReset s.draws) Config.resetVector Config.resetCause with
      codeCanonical := h.codeCanonical }
  · obtain ⟨hd, hs⟩ := (inv_iff s).mp h
    obtain ⟨hev, hmie⟩ := applyEvent_evaln s he
    exact inv_of_kept (hmie ▸ hs) (applyEvent_dataSound hd he) (applyEvent_frame e s).1 hev

/-- Taking a turn off the agenda, or drawing one, keeps the invariant. -/
theorem dueTurn_inv {s s0 : State} {turn : Turn} (h : s.Inv) (hd : dueTurn s = (turn, s0)) : s0.Inv := by
  obtain rfl : (dueTurn s).2 = s0 := by rw [hd]
  unfold dueTurn
  split <;> exact { h with }

end Machine

namespace Claims

open Machine

/-- Settles O53: case by case over what a step can be; `inv_of_evaluated` and `inv_of_kept` carry the evaluation logic's
memory across. -/
theorem stepKeepsInvariant : Obligations.StepKeepsInvariant := by
  intro s t h hs
  obtain ⟨c, s0, i, hd, hi, rfl⟩ | ⟨c, s0, w, i, hd, -, -, -, he⟩ | ⟨c, s0, es, hd, -, hr⟩ | ⟨e, s0, hd, rfl⟩ :=
    step_cases hs
  · have h0 : s0.Inv := by
      obtain hd | ⟨es, hd⟩ := hd <;> exact dueTurn_inv h hd
    obtain ⟨hdata, hev⟩ := (inv_iff _).mp (passBoundary_inv h0)
    exact inv_of_kept hev (takeMInterrupt_dataSound hdata (decideInterrupt_lt hi)) rfl rfl
  · exact exec_inv (passBoundary_inv (dueTurn_inv h hd)) he
  · exact runForeign_inv (dueTurn_inv h hd) hr
  · exact applyEvent_inv (dueTurn_inv h hd) e

/-- Settles O52: `State.reset` is one such state, but for the count of draws. -/
theorem resetMeetsInvariant : Obligations.ResetMeetsInvariant :=
  ⟨resetWith_inv, { resetWith_inv _ _ _ _ with }⟩

end Claims

end Sys2Proof

/-! ## Decoding: a word has one meaning, and one that matches no row has none (30_encoding) -/

namespace Sys2Proof

/-- The I-type word put together from the fields of a word is that word. -/
theorem encodeCsrForm_fields {w : InstrWord} {f3 : BitVec 3} (hop : fieldOpcode w = opcodeSystem)
    (hf : fieldFunct3 w = f3) : encodeCsrForm (fieldCsr w) (w.extractLsb' 15 5) f3 (fieldRd w) = w := by
  rw [instrWord_eq_iff_fields]
  exact ⟨(fieldOpcode_encodeCsrForm ..).trans hop.symm, rd_encodeCsrForm ..,
    (fieldFunct3_encodeCsrForm ..).trans hf.symm, source_encodeCsrForm .., fieldCsr_encodeCsrForm ..⟩

namespace Machine

/-! ### The six forms as one shape -/

/-- Each of the six forms is the shared shape `csrInstr`, with a rule that looks at the general registers only; the read
is left out only where `rd` = `x0`. -/
theorem exec_csrFormTo {n : CsrNum} {rd : Reg} {i : Instr} (h : Claims.CsrFormTo n rd i) :
    ∃ (reads : Bool) (rule : State → WriteRule), (rd ≠ 0 → reads = true) ∧
      (∀ s t : State, t.hart.x = s.hart.x → rule t = rule s) ∧ ∀ s, exec i s = csrInstr i n rd reads (rule s) s := by
  cases h with
  | csrrw rs1 =>
    exact ⟨_, fun s => writeOperand (regOperand rs1 s), decide_eq_true, fun s t h => by
      simp only [regOperand, readReg_congr h], fun _ => rfl⟩
  | csrrs rs1 =>
    exact ⟨_, fun s => setBits (decide (rs1 = 0)) (regOperand rs1 s), fun _ => rfl, fun s t h => by
      simp only [regOperand, readReg_congr h], fun _ => rfl⟩
  | csrrc rs1 =>
    exact ⟨_, fun s => clearBits (decide (rs1 = 0)) (regOperand rs1 s), fun _ => rfl, fun s t h => by
      simp only [regOperand, readReg_congr h], fun _ => rfl⟩
  | csrrwi uimm => exact ⟨_, fun _ => writeOperand (immOperand uimm), decide_eq_true, fun _ _ _ => rfl, fun _ => rfl⟩
  | csrrsi uimm =>
    exact ⟨_, fun _ => setBits (decide (uimm = 0)) (immOperand uimm), fun _ => rfl, fun _ _ _ => rfl, fun _ => rfl⟩
  | csrrci uimm =>
    exact ⟨_, fun _ => clearBits (decide (uimm = 0)) (immOperand uimm), fun _ => rfl, fun _ _ _ => rfl, fun _ => rfl⟩

/-! ### A turn of the hart that runs the instruction at `pc` -/

/-- The state a turn starts from differs from the one before in the agenda, the draws and the output only. -/
theorem dueTurn_start {s s0 : State} {turn : Turn} (h : dueTurn s = (turn, s0)) :
    ∃ agenda draws, s0 = { s with agenda := agenda, draws := draws, output := none } := by
  obtain rfl : (dueTurn s).2 = s0 := by rw [h]
  unfold dueTurn
  split
  · exact ⟨s.agenda, s.draws + 1, rfl⟩
  · exact ⟨_, s.draws, rfl⟩

/-- The word fetched at the start of the turn is the one at `pc` before it. -/
theorem fetch_passBoundary_dueTurn {s s0 : State} {turn : Turn} (h : dueTurn s = (turn, s0)) :
    fetch (passBoundary s0) = fetch s := by
  obtain ⟨agenda, draws, rfl⟩ := dueTurn_start h
  rfl

/-- A turn of the hart where no interrupt is taken runs the instruction at `pc`. -/
theorem step_hart {s s0 : State} {c : EvalChoice} (h : dueTurn s = (.hart c, s0)) (hi : decideInterrupt c s0 = none) :
    step s = runInstruction (passBoundary s0) := by
  simp [step, h, takeTurn, atBoundary, hi]

/-- With no word supplied at `pc` there is nothing to run. -/
theorem runInstruction_unsupplied {s : State} (h : fetch s = none) :
    runInstruction s = .fault (.noInstruction s.hart.pc.toNat) := by
  simp [runInstruction, fetchDecode, h]

/-- A word that decodes is run. -/
theorem runInstruction_decoded {s : State} {w : InstrWord} {i : Instr} (h : fetch s = some w) (hd : decode w = .ok i) :
    runInstruction s = exec i s := by
  simp [runInstruction, fetchDecode, h, hd]

/-- A word that does not decode is refused. -/
theorem runInstruction_undecodable {s : State} {w : InstrWord} {e : DecodeError} (h : fetch s = some w)
    (hd : decode w = .error e) : runInstruction s = .refused (.undecodable e) := by
  simp [runInstruction, fetchDecode, h, hd]

end Machine

/-- A number outside the list names no register. -/
theorem ofNumber_eq_none {n : CsrNum} (h : n ∉ [0x304, 0x344, 0x144, 0x104, 0x309, 0x644, 0x645, 0x244]) :
    Csr.ofNumber n = none := by
  cases hc : Csr.ofNumber n with
  | none => rfl
  | some c =>
    rw [number_of_ofNumber hc] at h
    exact absurd (by cases c <;> decide) h

namespace Claims

open Machine

/-- Settles O2: a word that decodes carries the instruction's fields, and the encoder puts these together again. -/
theorem encodeOfDecode : Obligations.EncodeOfDecode := by
  intro w i h
  obtain ⟨hop, hf, hi⟩ := (decode_eq_ok_iff w i).1 h
  cases i with
  | mret => exact Eq.symm hi
  | sret => exact Eq.symm hi
  | _ =>
    obtain ⟨rfl, rfl, rfl⟩ := hi
    exact encodeCsrForm_fields hop hf

/-- Settles O4: by evaluation of the decoder on the ten words. -/
theorem specWordsDecode : Obligations.SpecWordsDecode := by
  unfold Obligations.SpecWordsDecode
  decide

/-- A word that decodes matches a row of the opcode table. -/
theorem exists_row_of_decode {w : InstrWord} {i : Instr} (h : decode w = .ok i) :
    ∃ r ∈ opcodeTable, r.accepts w = true := by
  obtain ⟨hrw, hrs, hrc, hrwi, hrsi, hrci, hmret, hsret, -, -⟩ := decodeFollowsOpcodeMap w
  have found {r : OpcodeRow} (hr : r ∈ opcodeTable) (hw : w &&& r.mask = r.pattern) :
      ∃ r ∈ opcodeTable, r.accepts w = true := ⟨r, hr, beq_iff_eq.mpr hw⟩
  cases i with
  | csrrw rd csr rs1 => exact found (r := ⟨"CSRRW", 0x1073, 0x707F⟩) (by decide) (hrw.1 ⟨_, _, _, h⟩)
  | csrrs rd csr rs1 => exact found (r := ⟨"CSRRS", 0x2073, 0x707F⟩) (by decide) (hrs.1 ⟨_, _, _, h⟩)
  | csrrc rd csr rs1 => exact found (r := ⟨"CSRRC", 0x3073, 0x707F⟩) (by decide) (hrc.1 ⟨_, _, _, h⟩)
  | csrrwi rd csr uimm => exact found (r := ⟨"CSRRWI", 0x5073, 0x707F⟩) (by decide) (hrwi.1 ⟨_, _, _, h⟩)
  | csrrsi rd csr uimm => exact found (r := ⟨"CSRRSI", 0x6073, 0x707F⟩) (by decide) (hrsi.1 ⟨_, _, _, h⟩)
  | csrrci rd csr uimm => exact found (r := ⟨"CSRRCI", 0x7073, 0x707F⟩) (by decide) (hrci.1 ⟨_, _, _, h⟩)
  | mret =>
    refine found (r := ⟨"MRET", 0x30200073, 0xFFFFFFFF⟩) (by decide) ?_
    rw [hmret.1 h]
    decide
  | sret =>
    refine found (r := ⟨"SRET", 0x10200073, 0xFFFFFFFF⟩) (by decide) ?_
    rw [hsret.1 h]
    decide

/-- Settles O5: a word that decoded would match a row (`exists_row_of_decode`). -/
theorem unmatchedWordIsRefused : Obligations.UnmatchedWordIsRefused := by
  intro s s0 c w hdue hi hw hrows
  rw [step_hart hdue hi]
  cases hd : decode w with
  | error e => exact ⟨e, runInstruction_undecodable ((fetch_passBoundary_dueTurn hdue).trans hw) hd⟩
  | ok i =>
    obtain ⟨r, hr, haccepts⟩ := exists_row_of_decode hd
    rw [hrows r hr] at haccepts
    cases haccepts

/-- Settles O6: the number names no register, so the shared shape refuses it before any check. -/
theorem foreignCsrIsRefused : Obligations.ForeignCsrIsRefused := by
  rintro n i s hn ⟨rd, hform⟩
  obtain ⟨reads, rule, -, -, hexec⟩ := exec_csrFormTo hform
  rw [hexec s, csrInstr, ofNumber_eq_none hn]

/-! ## The six CSR instructions on the pair (40_csr_access) -/

/-- Settles O13: the shared shape's access, or its exception. -/
theorem pairPcAndIllegalEntry : Obligations.PairPcAndIllegalEntry := by
  rintro n i s hn ⟨rd, hform⟩
  obtain ⟨reads, rule, -, -, hexec⟩ := exec_csrFormTo hform
  rw [hexec s]
  obtain ⟨c, hc, hnum, hcheck⟩ : ∃ c, (c = .mie ∨ c = .mip) ∧ Csr.ofNumber n = some c ∧
      csrCheck c s = if s.hart.priv = .m then .granted else .illegal := by
    obtain rfl | rfl := hn
    · exact ⟨.mie, .inl rfl, ofNumber_mie, csrCheck_mie s⟩
    · exact ⟨.mip, .inr rfl, ofNumber_mip, csrCheck_mip s⟩
  have htarget : csrTarget c s = c := by obtain rfl | rfl := hc <;> simp
  constructor
  · intro hm
    rw [csrInstr_granted hnum (hcheck.trans (if_pos hm)), htarget]
    exact ⟨_, rfl, csrComplete_pcAdvanced c rd reads _ s, csrComplete_csrFrame hc rd reads _ s⟩
  · intro hm
    exact ⟨_, csrInstr_illegal hnum (hcheck.trans (if_neg hm)), raiseIllegal_entered _ s⟩

/-- A granted access to `mip` is a row of the SEIP table: `B` takes bit 9 of what is written, if anything is. -/
theorem MipAccess.seipRow {i : Instr} {rd : Reg} {written : Option Word} {s t : State} (he : exec i s = .next t)
    (h : MipAccess rd written s t) : SeipRow i rd ((written.map (bit · 9)).getD s.pend.seipB) s := by
  refine ⟨t, he, fun hrd => ?_, ?_, congrArg Inputs.seipWire h.frame.inputs⟩
  · rw [(h.regs rd).trans (if_pos ⟨rfl, hrd⟩)]
    exact mipWithSEIP_getLsbD_nine _ s
  · rw [h.pend]
    cases written <;> rfl

/-- Bit 9 of the old value of a read-modify-write is `B` (10_state R31). -/
theorem mipOld_getLsbD_nine (s : State) : (mipOld s).getLsbD 9 = s.pend.seipB := by
  rw [mipOld_eq_mipRmw]
  exact mipWithSEIP_getLsbD_nine _ s

/-- No immediate reaches bit 9. -/
theorem uimm_getLsbD_nine (uimm : Uimm) : (uimm.setWidth 64).getLsbD 9 = false := by simp

/-- Settles O14: each row is the meaning of its form on `mip`, read at bit 9. -/
theorem seipTable : Obligations.SeipTable := by
  intro rd rs1 uimm s hm
  have row {mk : CsrNum → Instr} {toMie toMip : Option Word} {after : Bool} (h : PairMeaning mk rd toMie toMip s)
      (hafter : (toMip.map (bit · 9)).getD s.pend.seipB = after) : SeipRow (mk 0x344) rd after s := by
    obtain ⟨t, he, hmip⟩ := (h.1 hm).2
    exact hafter ▸ hmip.seipRow he
  have hB := mipOld_getLsbD_nine s
  have hu := uimm_getLsbD_nine uimm
  refine ⟨row (csrrwReplacesPair rd rs1 s) rfl, row (csrrwiReplacesPair rd uimm s) hu,
    fun h1 => row (csrrsSetsBitsOfPair rd rs1 s) ?_, row (csrrsSetsBitsOfPair rd 0 s) rfl,
    fun h1 => row (csrrcClearsBitsOfPair rd rs1 s) ?_, row (csrrcClearsBitsOfPair rd 0 s) rfl,
    row (csrrsiSetsBitsOfPair rd uimm s) ?_, row (csrrciClearsBitsOfPair rd uimm s) ?_⟩
  · simp only [if_neg h1, Option.map_some, Option.getD_some, BitVec.getLsbD_or, hB]
  · simp [if_neg h1, hB, -BitVec.getLsbD_eq_getElem]
  · split
    · rfl
    · simp only [Option.map_some, Option.getD_some, BitVec.getLsbD_or, hB, hu, Bool.or_false]
  · split
    · rfl
    · simp only [Option.map_some, Option.getD_some, BitVec.getLsbD_and, BitVec.getLsbD_not, hB, hu]
      simp

/-- Settles O16: the read puts `B || E` into bit 9 of `rd`, and the write stores it in `B`. -/
theorem splitReadWriteCopiesWire : Obligations.SplitReadWriteCopiesWire := by
  intro rd s hm hrd
  obtain ⟨t, het, ht⟩ := ((csrrsSetsBitsOfPair rd 0 s).1 hm).2
  have htm : t.hart.priv = .m := (congrArg Hart.priv ht.frame.hart).trans hm
  obtain ⟨u, heu, hu⟩ := ((csrrwReplacesPair 0 rd t).1 htm).2
  refine ⟨t, u, het, heu, ?_⟩
  have hread : readReg rd t = mipRead s := (ht.regs rd).trans (if_pos ⟨rfl, hrd⟩)
  calc u.pend.seipB = bit (readReg rd t) 9 := congrArg Pending.seipB hu.pend
    _ = bit (mipRead s) 9 := by rw [hread]
    _ = (s.pend.seipB || s.inputs.seipWire) := mipWithSEIP_getLsbD_nine _ s

/-- Settles O21: the write cuts the operand to `MIE_WMASK`, and the read that follows returns `mie`. -/
theorem mieWriteIsSeenByNextRead : Obligations.MieWriteIsSeenByNextRead := by
  intro rd rs1 s hm hrd
  obtain ⟨t, het, ht⟩ := ((csrrwReplacesPair 0 rs1 s).1 hm).1
  have htm : t.hart.priv = .m := (congrArg Hart.priv ht.frame.hart).trans hm
  obtain ⟨u, heu, hu⟩ := ((csrrsSetsBitsOfPair rd 0 t).1 htm).1
  have hread : readReg rd u = t.mie := (hu.regs rd).trans (if_pos ⟨rfl, hrd⟩)
  exact ⟨t, u, het, heu, hread.trans ht.mie, hu.mie.trans ht.mie⟩

end Claims

end Sys2Proof

/-! ## `mip` and `mie` as registers, and where the controller's wire goes (10_state, 40_csr_access R79) -/

namespace Sys2Proof

namespace Params

/-- `MIP_WMASK` below 16 (10_state R32). -/
theorem mipWritable_low (p : Params) (stce : Bool) {i : Nat} (h : i < 16) :
    (p.mipWritable stce).getLsbD i = decide (i = 1 ∨ i = 2 ∨ i = 9 ∨ i = 13 ∨ (i = 5 ∧ stce = false)) := by
  rw [mipWritable, BitVec.getLsbD_or, p.platformStored_low h, Bool.or_false]
  exact (by decide : ∀ (i : Fin 16) (stce : Bool), (0x2206 ||| (if stce then 0 else 0x0020) : Word).getLsbD i =
    decide (i.val = 1 ∨ i.val = 2 ∨ i.val = 9 ∨ i.val = 13 ∨ (i.val = 5 ∧ stce = false))) ⟨i, h⟩ stce

/-- From 16 up the writable bits of `mip` are the platform's stored ones. -/
theorem mipWritable_high (p : Params) (stce : Bool) {i : Nat} (h : 16 ≤ i) (hi : i < 64) :
    (p.mipWritable stce).getLsbD i = p.platformStored.getLsbD i := by
  have hlow : (0x2206 ||| (if stce then 0 else 0x0020) : Word).getLsbD i = false :=
    (by decide : ∀ (i : Fin 64) (stce : Bool), 16 ≤ i.val →
      (0x2206 ||| (if stce then 0 else 0x0020) : Word).getLsbD i = false) ⟨i, hi⟩ stce h
  rw [mipWritable, BitVec.getLsbD_or, hlow, Bool.false_or]

/-- `MIE_WMASK` below 16 (10_state R15). -/
theorem mieWritable_low (p : Params) {i : Nat} (h : i < 16) :
    p.mieWritable.getLsbD i = decide (i = 1 ∨ i = 2 ∨ i = 5 ∨ i = 6 ∨ i = 7 ∨ i = 9 ∨ i = 10 ∨ i = 11 ∨ i = 12 ∨
      i = 13 ∨ (i = 3 ∧ p.msieWritable = true)) := by
  rw [mieWritable, BitVec.getLsbD_or, p.platformBits_low h, Bool.or_false]
  exact (by decide : ∀ (i : Fin 16) (b : Bool), (0x3EE6 ||| (if b then 0x0008 else 0) : Word).getLsbD i =
    decide (i.val = 1 ∨ i.val = 2 ∨ i.val = 5 ∨ i.val = 6 ∨ i.val = 7 ∨ i.val = 9 ∨ i.val = 10 ∨ i.val = 11 ∨
      i.val = 12 ∨ i.val = 13 ∨ (i.val = 3 ∧ b = true))) ⟨i, h⟩ p.msieWritable

/-- From 16 up the writable bits of `mie` are the platform's. -/
theorem mieWritable_high (p : Params) {i : Nat} (h : 16 ≤ i) (hi : i < 64) :
    p.mieWritable.getLsbD i = p.platformBits.getLsbD i := by
  have hlow : (0x3EE6 ||| (if p.msieWritable then 0x0008 else 0) : Word).getLsbD i = false :=
    (by decide : ∀ (i : Fin 64) (b : Bool), 16 ≤ i.val →
      (0x3EE6 ||| (if b then 0x0008 else 0) : Word).getLsbD i = false) ⟨i, hi⟩ p.msieWritable h
  rw [mieWritable, BitVec.getLsbD_or, hlow, Bool.false_or]

end Params

namespace Machine

/-! ### `mip` bit by bit -/

/-- A bit of `mip` as read, below 16. -/
theorem mipRead_low (s : State) {i : Nat} (h : i < 16) :
    (mipRead s).getLsbD i =
      (decide (1 = i) && s.pend.ssip || decide (2 = i) && s.pend.vssip || decide (5 = i) && pendingSTIP s ||
        decide (6 = i) && pendingVSTIP s || decide (7 = i) && s.inputs.mtimerIrq || decide (9 = i) && pendingSEIP s ||
        decide (10 = i) && pendingVSEIP s || decide (11 = i) && s.inputs.meipWire ||
        decide (12 = i) && pendingSGEIP s || decide (13 = i) && s.pend.lcofip) :=
  mipWithSEIP_low _ s h

/-- A bit of `mip` as read, from 16 up. -/
theorem mipRead_high (s : State) {i : Nat} (h : 16 ≤ i) : (mipRead s).getLsbD i = (pendingPlatform s).getLsbD i :=
  mipWithSEIP_high _ s h

/-- A platform bit after a write of `mip`: the written value where it is stored, the wire's where it is not. -/
theorem pendingPlatform_mipWrite (v : Word) (s : State) (i : Nat) :
    (pendingPlatform (mipWrite v s)).getLsbD i =
      if s.params.platformStored.getLsbD i then v.getLsbD i else (pendingPlatform s).getLsbD i := by
  simp only [pendingPlatform, mipWrite_pend, mipWrite_params, mipWrite_inputs, Pending.write, BitVec.getLsbD_or,
    BitVec.getLsbD_and, BitVec.getLsbD_not]
  cases s.params.platformStored.getLsbD i <;> simp

/-- The bits of `mip` that inputs alone make are what they were after a write of `mip`. -/
theorem pendingInputs_mipWrite (v : Word) (s : State) :
    pendingVSTIP (mipWrite v s) = pendingVSTIP s ∧ pendingVSEIP (mipWrite v s) = pendingVSEIP s ∧
      pendingSGEIP (mipWrite v s) = pendingSGEIP s := ⟨rfl, rfl, rfl⟩

/-- Every interrupt that can be pending has a writable enable bit (10_state R15). -/
theorem mieWritable_of_pending {s : State} {i : Nat} (h : (mipRead s).getLsbD i = true) :
    s.params.mieWritable.getLsbD i = true := by
  by_cases hlow : i < 16
  · rw [mipRead_low s hlow] at h
    simp only [Bool.or_eq_true, Bool.and_eq_true, decide_eq_true_eq] at h
    rw [s.params.mieWritable_low hlow, decide_eq_true_eq]
    omega
  · rw [mipRead_high s (by omega)] at h
    rw [s.params.mieWritable_high (by omega) (lt_of_getLsbD ((mipRead_high s (by omega)).trans h))]
    exact pendingPlatform_within s i h

/-! ### The controller's wire E -/

/-- The state with another value of the wire. -/
def State.withWire (e : Bool) (s : State) : State := { s with inputs := { s.inputs with seipWire := e } }

/-- A read of `mip` differs in bit 9 at most. -/
theorem mipRead_withWire (e : Bool) (s : State) {k : Nat} (hk : k ≠ 9) :
    (mipRead (s.withWire e)).getLsbD k = (mipRead s).getLsbD k :=
  mipWithSEIP_getLsbD_of_ne_nine (s.pend.seipB || e) (pendingSEIP s) s hk

/-- So does what the evaluation logic sees. -/
theorem boundaryNow_withWire (e : Bool) (s : State) {k : Nat} (hk : k ≠ 9) :
    (boundaryNow (s.withWire e)).held.getLsbD k = (boundaryNow s).held.getLsbD k ∧
      (boundaryNow (s.withWire e)).driven.getLsbD k = (boundaryNow s).driven.getLsbD k := by
  have hheld : (condSet (s.withWire e)).getLsbD k = (condSet s).getLsbD k := by
    rw [condSet_getLsbD, condSet_getLsbD, trapCond, trapCond, mCand, mCand, BitVec.getLsbD_and, BitVec.getLsbD_and,
      BitVec.getLsbD_and, BitVec.getLsbD_and, mipRead_withWire e s hk]
    rfl
  have hin : (inputDriven (s.withWire e)).getLsbD k = (inputDriven s).getLsbD k := by
    have hnine : ∀ b, (atBit 9 b).getLsbD k = false := fun b => by
      rw [atBit_getLsbD, decide_eq_false (Ne.symm hk), Bool.false_and, Bool.false_and]
    simp only [inputDriven, BitVec.getLsbD_or, hnine]
    rfl
  refine ⟨hheld, ?_⟩
  show (condSet (s.withWire e) &&& inputDriven (s.withWire e)).getLsbD k = _
  rw [BitVec.getLsbD_and, hheld, hin, ← BitVec.getLsbD_and]
  rfl

/-- `t'` is `t` but for the wire, the general registers and the note of the evaluation logic. -/
def SameButWire (t t' : State) : Prop :=
  { t' with
    inputs := { t'.inputs with seipWire := t.inputs.seipWire }
    hart := { t'.hart with x := t.hart.x }
    evaln := { t'.evaln with due := t.evaln.due } } = t

/-- What the evaluation logic sees in two such states differs in bit 9 at most. -/
theorem SameButWire.boundaryNow {t t' : State} (h : SameButWire t t') {k : Nat} (hk : k ≠ 9) :
    (boundaryNow t').held.getLsbD k = (boundaryNow t).held.getLsbD k ∧
      (boundaryNow t').driven.getLsbD k = (boundaryNow t).driven.getLsbD k := by
  have hb : Machine.boundaryNow t = Machine.boundaryNow (t'.withWire t.inputs.seipWire) := by
    conv_lhs => rw [← h]
    rfl
  obtain ⟨hheld, hdriven⟩ := boundaryNow_withWire t.inputs.seipWire t' hk
  rw [hb]
  exact ⟨hheld.symm, hdriven.symm⟩

/-- A granted access to `mip` takes the wire nowhere else: the old value of its rule leaves the wire out (10_state
R31). -/
theorem csrComplete_mip_sameButWire (rd : Reg) (reads : Bool) (rule : WriteRule) (s : State) (e : Bool) :
    SameButWire (csrComplete .mip rd reads rule s) (csrComplete .mip rd reads rule (s.withWire e)) := by
  have hold : csrOld .mip (s.withWire e) = csrOld .mip s := rfl
  unfold SameButWire
  rw [csrComplete_eq, csrComplete_eq, hold]
  cases reads with
  | false => cases rule (csrOld .mip s) <;> rfl
  | true =>
    by_cases hrd : rd = 0
    · cases rule (csrOld .mip s) <;> simp only [writeReg, hrd, if_true] <;> rfl
    · cases rule (csrOld .mip s) <;> simp only [writeReg, hrd, if_true, if_false] <;> rfl

/-! ### Interrupt 3 -/

/-- A state that meets the invariant never decides to take interrupt 3: not by its condition, not by the note, and not
as a stale one, since no input drives MSIP (10_state R20). -/
theorem decideInterrupt_ne_three {s : State} (h : s.Inv) (c : EvalChoice) : decideInterrupt c s ≠ some 3 := by
  intro h3
  obtain hsel | hset | ⟨-, -, hstale⟩ := decideInterrupt_some h3
  · have hcond := selectMInterrupt_trapCond hsel
    rw [trapCond_three] at hcond
    cases hcond
  · obtain ⟨b, hb, hheld, -⟩ := settledInterrupt_eq_some hset
    obtain ⟨-, -, hmsip⟩ := h.dueSound b hb
    rw [hmsip] at hheld
    cases hheld
  · obtain ⟨-, ⟨b, hb, hdriven⟩, -⟩ := (staleSet_getLsbD s 3).mp hstale
    have hdrivable := (within_iff _ _).mp (h.historySound b (List.mem_of_mem_take hb)).drivenDrivable 3 hdriven
    rw [inputDrivable_msip] at hdrivable
    cases hdrivable

/-- A step that goes on puts out nothing, unless it is a boundary's decision taken. -/
theorem step_output {s t : State} (h : step s = .next t) :
    t.output = none ∨ ∃ c s0 i, (dueTurn s = (.hart c, s0) ∨ ∃ es, dueTurn s = (.foreign c es, s0)) ∧
      decideInterrupt c s0 = some i ∧ t = takeMInterrupt i (passBoundary s0) := by
  have houtput {turn : Turn} {s0 : State} (hd : dueTurn s = (turn, s0)) : s0.output = none := by
    obtain ⟨agenda, draws, rfl⟩ := dueTurn_start hd
    rfl
  obtain ⟨c, s0, i, hd, hi, rfl⟩ | ⟨c, s0, w, i, hd, -, -, -, he⟩ | ⟨c, s0, es, hd, -, hr⟩ | ⟨e, s0, hd, rfl⟩ :=
    step_cases h
  · exact .inr ⟨c, s0, i, hd, hi, rfl⟩
  · obtain ⟨-, -, -, hout, -⟩ := exec_frame he
    exact .inl (hout.trans ((passBoundary_output s0).trans (houtput hd)))
  · obtain ⟨-, -, hout, -⟩ := runForeign_frame hr
    exact .inl (hout.trans ((passBoundary_output s0).trans (houtput hd)))
  · exact .inl ((applyEvent_frame e s0).2.2 (houtput hd))

end Machine

namespace Claims

open Machine

/-- Settles O15: below M-mode both runs raise the exception; in M-mode both make the access, whose rule is given an old
value without the wire, so that only the read, and the note of a write, can tell the runs apart. -/
theorem wireReachesOnlyBitNineOfRd : Obligations.WireReachesOnlyBitNineOfRd := by
  intro i rd s t e hform ht
  obtain ⟨reads, rule, hreads, hrule, hexec⟩ := exec_csrFormTo hform
  rw [hexec] at ht
  show ∃ t', exec i (s.withWire e) = .next t' ∧ SameButWire t t' ∧ _
  rw [hexec, hrule s (s.withWire e) rfl]
  by_cases hm : s.hart.priv = .m
  · rw [csrInstr_mip hm] at ht
    cases ht
    refine ⟨_, csrInstr_mip (s := s.withWire e) hm, ?_⟩
    have hsame := csrComplete_mip_sameButWire rd reads (rule s) s e
    have hregs := csrComplete_regs (c := .mip) hreads (rule s) s
    have hregs' := csrComplete_regs (c := .mip) hreads (rule s) (s.withWire e)
    refine ⟨hsame, ?_, ?_, ?_, fun r hr => ?_, fun k hk => ?_⟩
    · intro hdue
      cases hw : rule s (mipRmw s) with
      | none => rwa [(csrComplete_unwritten hw).1] at hdue ⊢
      | some v => rw [csrComplete_written hw] at hdue; cases hdue
    · intro b hb
      cases hw : rule s (mipRmw s) with
      | none =>
        rw [(csrComplete_unwritten hw).1] at hb ⊢
        exact ⟨b, hb, fun _ _ => ⟨rfl, rfl⟩⟩
      | some v =>
        rw [csrComplete_written hw] at hb ⊢
        cases hb
        exact ⟨_, rfl, fun k hk => hsame.boundaryNow hk⟩
    · exact congrArg Inputs.seipWire (csrComplete_pair_frame (.inr rfl) rd reads (rule s) (s.withWire e)).1
    · rw [hregs r, hregs' r, if_neg fun h => hr h.1, if_neg fun h => hr h.1]
      rfl
    · rw [hregs rd, hregs' rd]
      split
      · exact mipRead_withWire e s hk
      · rfl
  · have illegal (u : State) (hu : u.hart.priv ≠ .m) :
        csrInstr i 0x344 rd reads (rule s) u = .next (raiseIllegal (encode i) u) :=
      csrInstr_illegal ofNumber_mip ((csrCheck_mip u).trans (if_neg hu))
    rw [illegal s hm] at ht
    cases ht
    exact ⟨_, illegal (s.withWire e) hm, rfl, fun h => h, fun b hb => ⟨b, hb, fun _ _ => ⟨rfl, rfl⟩⟩, rfl,
      fun _ _ => rfl, fun _ _ => rfl⟩

/-- Settles O17: the composition bit by bit, and the read that CSRRS with `x0` makes. -/
theorem mipReadComposition : Obligations.MipReadComposition := by
  refine ⟨fun s => ?_, fun rd s hm => ?_⟩
  · have low {i : Nat} (h : i < 16) := mipRead_low s h
    refine ⟨?_, ?_, ?_, ?_, ?_, ?_, ?_, ?_, ?_, ?_, ?_, fun i hi => ?_, fun i hi hbits => ?_⟩
    case refine_12 => obtain rfl | rfl | rfl | rfl | rfl := hi <;> simp [bit, low, -BitVec.getLsbD_eq_getElem]
    case refine_13 =>
      rw [bit, mipRead_high s hi, ← Bool.not_eq_true]
      exact fun h => Bool.eq_false_iff.mp hbits (pendingPlatform_within s i h)
    all_goals
      simp [bit, low, pendingSTIP, pendingVSTIP, pendingSEIP, pendingVSEIP, pendingSGEIP, -BitVec.getLsbD_eq_getElem]
  · obtain ⟨t, he, ht⟩ := ((csrrsSetsBitsOfPair rd 0 s).1 hm).2
    exact ⟨t, he, ht.regs, ht.pend, ht.mie, ht.frame.inputs, ht.evaluated⟩

/-- Settles O19: `mipWrite_congr` for the mask; the other two by what `mip_write` and `MIP_WMASK` are. -/
theorem mipWriteFollowsMask : Obligations.MipWriteFollowsMask :=
  ⟨fun _ _ _ h => mipWrite_congr h, fun _ _ => rfl, fun p stce _ hi => p.mipWritable_low stce hi⟩

/-- Settles O20: below 16 field by field, from 16 up by `pendingPlatform_mipWrite`. -/
theorem mipReadsBackWhatWasWritten : Obligations.MipReadsBackWhatWasWritten := by
  intro v s i hi
  by_cases hlow : i < 16
  · simp only [bit, mipRead_low _ hlow, s.params.mipWritable_low _ hlow]
    clear hi
    interval_cases i <;> cases hstce : s.inputs.stce <;>
      simp [pendingSTIP, pendingSEIP, pendingInputs_mipWrite, Pending.write, hstce]
  · have h16 : 16 ≤ i := by omega
    simp only [bit]
    rw [if_neg (by omega), mipRead_high _ h16, mipRead_high _ h16, s.params.mipWritable_high _ h16 hi]
    exact pendingPlatform_mipWrite v s i

/-- Settles O22: the mask below and above bit 16, `mieWritable_of_pending`, and what `mie_write` stores. -/
theorem mieWritableBits : Obligations.MieWritableBits := by
  refine ⟨fun p i hi => ?_, fun s i h => mieWritable_of_pending h, fun s v i => ?_,
    fun s e he => (applyEvent_evaln s he).2⟩
  · split
    · next h => exact p.mieWritable_low h
    · next h => exact p.mieWritable_high (by omega) hi
  · simp only [bit, mieRead, mieWrite_mie, BitVec.getLsbD_and, Bool.and_comm]

/-- Settles O23: MSIP reads 0, so its condition never holds; `MIP_WMASK` has no bit 3; `decideInterrupt_ne_three`. -/
theorem msipIsHardwiredZero : Obligations.MsipIsHardwiredZero := by
  refine ⟨mipRead_getLsbD_three, fun v b s => mipWrite_congr (word_ext fun i hi => ?_),
    fun s => ⟨trapCond_three s, fun h => ?_⟩, fun s t hinv hs h3 => ?_⟩
  · rw [BitVec.getLsbD_and, BitVec.getLsbD_and, withBit_getLsbD]
    split
    · next h3 => rw [← h3.1, s.params.mipWritable_low _ (by decide)]; simp
    · rfl
  · have hcond := selectMInterrupt_trapCond h
    rw [trapCond_three] at hcond
    cases hcond
  · obtain hnone | ⟨c, s0, i, hd, hi, rfl⟩ := step_output hs
    · rw [hnone] at h3
      cases h3
    · have hinv0 : s0.Inv := by obtain hd | ⟨es, hd⟩ := hd <;> exact dueTurn_inv hinv hd
      exact decideInterrupt_ne_three hinv0 c (hi.trans h3)

/-! ## Reset (70_reset) -/

/-- Settles O49: `mie` after reset is the drawn value cut to the mask, and a value within the mask is its own cut. -/
theorem resetLeavesMieOpen : Obligations.ResetLeavesMieOpen := by
  refine ⟨fun p mie0 _ _ => and_within mie0 _, fun p v vector cause0 hv => ⟨v, word_ext fun i _ => ?_⟩, rfl⟩
  show (v &&& p.mieWritable).getLsbD i = v.getLsbD i
  have hbit := (within_iff v _).mp hv i
  rw [BitVec.getLsbD_and]
  cases hvi : v.getLsbD i with
  | false => rfl
  | true => rw [hbit hvi]; rfl

/-- Right after reset `mip` reads 0: its storage and its inputs are all 0. -/
theorem mipRead_resetWith (p : Params) (mie0 vector cause0 : Word) :
    mipRead (State.resetWith p mie0 vector cause0) = 0 := by
  simp [mipRead, mipWithSEIP, pendingSTIP, pendingVSTIP, pendingSEIP, pendingVSEIP, pendingSGEIP, pendingPlatform,
    State.resetWith]

/-- Settles O50: `mipRead_resetWith`, and the inputs as reset has them. -/
theorem resetReadsMipZero : Obligations.ResetReadsMipZero := fun p mie0 vector cause0 =>
  ⟨mipRead_resetWith p mie0 vector cause0, rfl, rfl, rfl, rfl, rfl, rfl, rfl, rfl, rfl⟩

end Claims

end Sys2Proof

/-! ## The turns of the machine (00_scope R4, 20_memory) -/

namespace Sys2Proof

namespace Machine

/-! ### Neither the eight instructions nor another end in a fault -/

/-- A CSR instruction never faults. -/
theorem csrInstr_ne_fault (i : Instr) (csr : CsrNum) (rd : Reg) (reads : Bool) (rule : WriteRule) (s : State)
    (r : Fault) : csrInstr i csr rd reads rule s ≠ .fault r := by
  unfold csrInstr
  split
  · simp
  · split <;> simp

/-- No instruction faults. -/
theorem exec_ne_fault (i : Instr) (s : State) (r : Fault) : exec i s ≠ .fault r := by
  cases i with
  | mret => simp only [exec, execMret]; split <;> simp
  | sret => simp only [exec, execSret]; split <;> simp
  | _ => exact csrInstr_ne_fault _ _ _ _ _ s r

/-- The effects of an instruction outside this spec never fault. -/
theorem applyEffects_ne_fault (es : List HartEffect) (s : State) (r : Fault) : applyEffects es s ≠ .fault r := by
  induction es generalizing s with
  | nil => simp [applyEffects]
  | cons e rest ih =>
    simp only [applyEffects]
    split
    · simp
    · exact ih _

/-- Nor does the instruction. -/
theorem runForeign_ne_fault (es : List HartEffect) (s : State) (r : Fault) : runForeign es s ≠ .fault r := by
  unfold runForeign
  split
  · simp
  · next hf => exact absurd hf (applyEffects_ne_fault es s _)
  · simp

/-- Running the instruction at `pc` faults only where no word is supplied there. -/
theorem fetch_eq_none_of_runInstruction_fault {s : State} {r : Fault} (h : runInstruction s = .fault r) :
    fetch s = none := by
  cases hf : fetch s with
  | none => rfl
  | some w =>
    cases hd : decode w with
    | error e => rw [runInstruction_undecodable hf hd] at h; cases h
    | ok i => rw [runInstruction_decoded hf hd] at h; exact absurd h (exec_ne_fault i s r)

/-! ### A word placed for the next fetch -/

/-- A 32-bit word placed by its number is placed as it is. -/
theorem withFetchWord_toNat (s : State) (w : InstrWord) : s.withFetchWord 32 w.toNat = placeNext s w := by
  rw [State.withFetchWord, Nat.mod_eq_of_lt w.isLt, BitVec.ofNat_toNat, BitVec.setWidth_eq]

/-- Placing a word makes the hart's turn the due one. -/
theorem dueTurn_placeNext (s : State) (w : InstrWord) :
    dueTurn (placeNext s w) = (.hart .defer, { placeNext s w with agenda := s.agenda, output := none }) :=
  dueTurn_cons rfl

/-- The word placed is the one fetched. -/
theorem fetch_placeNext (s : State) (w : InstrWord) : fetch (placeNext s w) = some w := Code.word_place_same _ _ w

end Machine

namespace Claims

open Machine

/-- Settles O54: case by case over what a step can be. -/
theorem stepKeepsParameters : Obligations.StepKeepsParameters := by
  intro s t hs
  have start {turn : Turn} {s0 : State} (hd : dueTurn s = (turn, s0)) : s0.params = s.params := by
    obtain ⟨agenda, draws, rfl⟩ := dueTurn_start hd
    rfl
  obtain ⟨c, s0, i, hd, hi, rfl⟩ | ⟨c, s0, w, i, hd, -, -, -, he⟩ | ⟨c, s0, es, hd, -, hr⟩ | ⟨e, s0, hd, rfl⟩ :=
    step_cases hs
  · obtain hd | ⟨es, hd⟩ := hd <;> exact start (s0 := s0) hd
  · exact (exec_frame he).1.trans (start (s0 := s0) hd)
  · exact (runForeign_frame hr).1.trans (start (s0 := s0) hd)
  · exact (applyEvent_frame e s0).1.trans (start (s0 := s0) hd)

/-- Settles O55: the turn due, turn by turn. -/
theorem stepRunsDecodedInstruction : Obligations.StepRunsDecodedInstruction := by
  refine fun s => ⟨fun c s0 w i hdue hi hw hd => ?_, fun _ _ h => dueTurn_cons h, fun _ _ h => dueTurn_cons h,
    dueTurn_nil, fun _ _ h => step_env h, fun _ _ _ h => dueTurn_cons h, fun _ _ _ h hi => step_foreign h hi⟩
  refine ⟨?_, ?_⟩
  · rw [step_hart hdue hi, runInstruction_decoded ((fetch_passBoundary_dueTurn hdue).trans hw) hd]
  · obtain ⟨agenda, draws, rfl⟩ := dueTurn_start hdue
    exact ⟨rfl, rfl, rfl, rfl, rfl, rfl⟩

/-- Settles O56: of the turns, only the hart's with no word at `pc` ends in a fault. -/
theorem faultsOnlyWithoutAWord : Obligations.FaultsOnlyWithoutAWord := by
  intro s
  constructor
  · rintro ⟨r, hr⟩
    rcases hd : dueTurn s with ⟨turn, s0⟩
    cases turn with
    | env e => rw [step_env hd] at hr; cases hr
    | foreign c es =>
      cases hi : decideInterrupt c s0 with
      | some i => rw [step_taken (.inr ⟨es, hd⟩) hi] at hr; cases hr
      | none => rw [step_foreign hd hi] at hr; exact absurd hr (runForeign_ne_fault es _ r)
    | hart c =>
      cases hi : decideInterrupt c s0 with
      | some i => rw [step_taken (.inl hd) hi] at hr; cases hr
      | none =>
        rw [step_hart hd hi] at hr
        exact ⟨c, s0, hd, hi, (fetch_passBoundary_dueTurn hd).symm.trans (fetch_eq_none_of_runInstruction_fault hr)⟩
  · rintro ⟨c, s0, hdue, hi, hf⟩
    exact ⟨_, (step_hart hdue hi).trans (runInstruction_unsupplied ((fetch_passBoundary_dueTurn hdue).trans hf))⟩

/-- Settles O57: the hart's turn, with the choice to defer, is the due one; where nothing must be taken it runs the
word. -/
theorem placedWordRunsNext : Obligations.PlacedWordRunsNext := by
  intro s w i hd hmust
  rw [withFetchWord_toNat]
  have hdue := dueTurn_placeNext s w
  have hdefer : decideInterrupt .defer { placeNext s w with agenda := s.agenda, output := none } = none := by
    show (if mustTake s then _ else none) = none
    rw [hmust]
    rfl
  refine ⟨_, (step_hart hdue hdefer).trans (runInstruction_decoded
    ((fetch_passBoundary_dueTurn hdue).trans (fetch_placeNext s w)) hd), rfl, rfl, rfl, rfl, rfl, rfl, fun a ha => ?_⟩
  exact Code.word_place_other s.code w ha

/-- Settles O58: read after place, at the address and at every other. -/
theorem placedWordsAreSupplied : Obligations.PlacedWordsAreSupplied := by
  refine fun c a w => ⟨fun b => ?_, Code.place_wellFormed c a w⟩
  split
  · next h => exact h ▸ Code.word_place_same c a w
  · next h => exact Code.word_place_other c w h

/-- Settles O24: the due event, event by event. -/
theorem hardwareUpdatesAndInputChanges : Obligations.HardwareUpdatesAndInputChanges := by
  intro s s0 e hdue he
  refine ⟨_, step_env hdue, ?_⟩
  obtain ⟨agenda, draws, rfl⟩ := dueTurn_start hdue
  cases e with
  | reset => exact absurd rfl he
  | menvcfgSTCE b => cases b <;> simp [applyEvent, changeStce_frame, inputsAfter]
  | _ => simp [applyEvent, inputsAfter]

/-- Settles O51: after reset M-mode's interrupts are off and nothing is due. -/
theorem resetStepMasksInterrupts : Obligations.ResetStepMasksInterrupts := by
  intro s s0 hdue
  refine ⟨_, step_env hdue, ?_⟩
  obtain ⟨agenda, draws, rfl⟩ := dueTurn_start hdue
  refine ⟨rfl, rfl, rfl, mipRead_resetWith s.params (Config.mieReset draws) Config.resetVector Config.resetCause,
    and_within _ _, rfl, fun _ => rfl, rfl, fun c t0 hb => ?_⟩
  obtain ⟨turn, hb⟩ : ∃ turn, dueTurn _ = (turn, t0) := by obtain hb | ⟨es, hb⟩ := hb <;> exact ⟨_, hb⟩
  obtain ⟨agenda', draws', rfl⟩ := dueTurn_start hb
  exact decideInterrupt_off rfl rfl

end Claims

end Sys2Proof

/-! ## The trap condition, its evaluation, priority and entry (60_exceptions) -/

namespace Sys2Proof

namespace Machine

/-! ### The order -/

/-- A search of a list, one element at a time. -/
theorem find?_cons_eq_ite {α : Type} (p : α → Bool) (a : α) (l : List α) :
    (a :: l).find? p = if p a then some a else l.find? p := by
  rw [List.find?_cons]
  cases p a <;> rfl

/-- No interrupt from 16 up is a candidate where the platform has no bits. -/
theorem mCand_high {s : State} (h : s.params.platformBits = 0) {i : Nat} (hi : 16 ≤ i) :
    (mCand s).getLsbD i = false := by
  rw [← Bool.not_eq_true]
  intro hc
  rw [mCand, BitVec.getLsbD_and, BitVec.getLsbD_and, Bool.and_eq_true, Bool.and_eq_true, mipRead_high s hi] at hc
  obtain ⟨⟨hpending, -⟩, -⟩ := hc
  have hbit := pendingPlatform_within s i hpending
  simp [h] at hbit

/-- Where nothing holds nothing is selected. -/
theorem selectMInterrupt_eq_none {s : State} (h : ∀ i, trapCond i s = false) : selectMInterrupt s = none := by
  cases hs : selectMInterrupt s with
  | none => rfl
  | some i => exact absurd (selectMInterrupt_trapCond hs) (by simp [h i])

/-- Where nothing holds the set of what holds is empty. -/
theorem condSet_eq_zero {s : State} (h : ∀ i, trapCond i s = false) : condSet s = 0 :=
  word_ext fun i _ => by rw [condSet_getLsbD, h i]; simp

/-- An interrupt whose condition holds stands in the order. -/
theorem trapCond_mem_order {s : State} {i : Nat} (h : trapCond i s = true) : i ∈ s.params.order :=
  pending_mem_order s ((trapCond_iff i s).mp h).2.1

/-! ### The entry -/

/-- `TakeMInterrupt(i)` is the entry of `i` from the state before it, and leaves nothing due. -/
theorem takeMInterrupt_entered (i : Nat) (s : State) (agenda : List Turn) (draws : Nat) :
    Claims.InterruptEntered i s
      (takeMInterrupt i (passBoundary { s with agenda := agenda, draws := draws, output := none })) :=
  ⟨⟨rfl, rfl, rfl, rfl, rfl, rfl, rfl, rfl, rfl, rfl, ⟨rfl, rfl, rfl, rfl, rfl⟩, ⟨rfl, rfl, rfl, rfl, rfl⟩, rfl, rfl,
    rfl, rfl, fun _ => rfl⟩, rfl, rfl⟩

end Machine

namespace Claims

open Machine

/-! ### What a boundary that is due does -/

/-- The state at a boundary differs from the one before in the agenda, the draws and the output only. -/
theorem BoundaryDue.start {c : EvalChoice} {s s0 : State} (h : BoundaryDue c s s0) :
    ∃ agenda draws, s0 = { s with agenda := agenda, draws := draws, output := none } := by
  obtain h | ⟨es, h⟩ := h <;> exact dueTurn_start h

/-- The boundary decides by what stands before the turn. -/
theorem BoundaryDue.decide_eq {c : EvalChoice} {s s0 : State} (h : BoundaryDue c s s0) :
    decideInterrupt c s0 = decideInterrupt c s := by
  obtain ⟨agenda, draws, rfl⟩ := h.start
  exact decideInterrupt_congr c rfl rfl rfl rfl rfl rfl

/-- An interrupt decided is taken. -/
theorem BoundaryDue.taken {c : EvalChoice} {s s0 : State} (h : BoundaryDue c s s0) {i : Nat}
    (hi : decideInterrupt c s = some i) : ∃ t, step s = .next t ∧ InterruptEntered i s t := by
  refine ⟨_, step_taken h (h.decide_eq.trans hi), ?_⟩
  obtain ⟨agenda, draws, rfl⟩ := h.start
  exact takeMInterrupt_entered i s agenda draws

/-- There is one due turn: its choice and its start are determined. -/
theorem BoundaryDue.unique {c c' : EvalChoice} {s s0 s0' : State} (h : BoundaryDue c s s0) (h' : BoundaryDue c' s s0') :
    c' = c ∧ s0' = s0 := by
  obtain h | ⟨es, h⟩ := h <;> obtain h' | ⟨es', h'⟩ := h' <;> cases h.symm.trans h' <;> exact ⟨rfl, rfl⟩

/-- Every step that takes an interrupt is a boundary's decision, and the entry of that interrupt. -/
theorem taken_of_output {s t : State} {i : Nat} (hs : step s = .next t) (hi : t.output = some i) :
    ∃ c s0, BoundaryDue c s s0 ∧ decideInterrupt c s = some i ∧ t = takeMInterrupt i (passBoundary s0) ∧
      InterruptEntered i s t := by
  obtain hnone | ⟨c, s0, j, hd, hj, rfl⟩ := step_output hs
  · rw [hnone] at hi
    cases hi
  · have hb : BoundaryDue c s s0 := hd
    obtain rfl : j = i := Option.some.inj hi
    refine ⟨c, s0, hb, hb.decide_eq.symm.trans hj, rfl, ?_⟩
    obtain ⟨agenda, draws, rfl⟩ := hb.start
    exact takeMInterrupt_entered j s agenda draws

/-- A boundary that decides to take none puts out nothing. -/
theorem BoundaryDue.quiet {c : EvalChoice} {s s0 t : State} (h : BoundaryDue c s s0) (hn : decideInterrupt c s = none)
    (hs : step s = .next t) : t.output = none := by
  cases hout : t.output with
  | none => rfl
  | some i =>
    obtain ⟨c', s0', hb, hi, -⟩ := taken_of_output hs hout
    obtain ⟨rfl, rfl⟩ := h.unique hb
    rw [hn] at hi
    cases hi

/-- Where one must be taken one is, whatever the choice: the selected interrupt, or one whose condition held right after
an xRET or explicit write. -/
theorem BoundaryDue.must {c : EvalChoice} {s s0 : State} (h : BoundaryDue c s s0) (hm : mustTake s = true) :
    ∃ t j, step s = .next t ∧ InterruptEntered j s t ∧
      (selectMInterrupt s = some j ∨ ∃ b, s.evaln.due = some b ∧ bit b.held j = true) := by
  obtain ⟨j, hj, hwhy⟩ := decideInterrupt_must c hm
  obtain ⟨t, hs, ht⟩ := h.taken hj
  refine ⟨t, j, hs, ht, hwhy.imp id fun hset => ?_⟩
  obtain ⟨b, hb, hheld, -⟩ := settledInterrupt_eq_some hset
  exact ⟨b, hb, hheld⟩

/-! ### The condition and the order -/

/-- Settles O32: `trapCond_iff`, with condition (a) written out. -/
theorem trapCondition : Obligations.TrapCondition := by
  intro i s
  rw [trapCond_iff]
  have hg : mGlobal s = true ↔ (s.hart.priv = .m ∧ s.hart.mstatus.mie = true) ∨ s.hart.priv ≠ .m := by
    by_cases hm : s.hart.priv = .m <;> simp [mGlobal, hm]
  rw [hg, and_assoc (a := bit (mipRead s) i = true)]
  rfl

/-- Settles O37: with no platform bits the search of the order comes down to its last eleven places. -/
theorem fixedPriorityOrder : Obligations.FixedPriorityOrder := by
  intro s h
  have hhigh : (s.params.platformOrder.filter (fun i => decide (16 ≤ i)) ++ List.range' 16 48).find?
      (fun i => (mCand s).getLsbD i) = none := by
    rw [List.find?_eq_none]
    intro i hi
    have h16 : 16 ≤ i := by
      obtain hi | hi := List.mem_append.mp hi
      · exact of_decide_eq_true (List.mem_filter.mp hi).2
      · exact (List.mem_range'_1.mp hi).1
    simp [mCand_high h h16]
  unfold selectMInterrupt firstInOrder Params.order
  rw [List.find?_append, hhigh, Option.none_or]
  simp only [find?_cons_eq_ite, List.find?_nil]
  cases mGlobal s <;> simp

/-- Settles O38: the selected interrupt is what the search of the order finds first. -/
theorem selectionIsFirstInOrder : Obligations.SelectionIsFirstInOrder := by
  refine fun s => ⟨⟨fun ⟨i, hi⟩ => ?_, fun ⟨i, hi⟩ => ⟨i, selectMInterrupt_trapCond hi⟩⟩, fun i hi => ?_⟩
  · rw [← Option.isSome_iff_exists, selectMInterrupt_isSome, condSet_ne_zero_iff]
    exact ⟨i, trapCond_lt hi, hi⟩
  · refine ⟨selectMInterrupt_trapCond hi, ?_⟩
    unfold selectMInterrupt firstInOrder at hi
    split at hi
    · obtain ⟨-, before, after, horder, hbefore⟩ := List.find?_eq_some_iff_append.mp hi
      exact ⟨before, after, horder, fun j hj => by simpa [trapCond] using fun _ => by simpa using hbefore j hj⟩
    · cases hi

/-- Settles O39: a boundary takes what it decides. -/
theorem interruptEntry : Obligations.InterruptEntry := by
  intro s s0 c i hb hi
  exact hb.taken (hb.decide_eq.symm.trans hi)

/-- Settles O40: an entry leaves `mie`, the storage and the inputs alone, and `mip` is read from these. -/
theorem takingClearsNothing : Obligations.TakingClearsNothing := by
  intro s t i hs hi
  obtain ⟨c, s0, hb, -, rfl, -⟩ := taken_of_output hs hi
  obtain ⟨agenda, draws, rfl⟩ := hb.start
  exact ⟨rfl, rfl, rfl, rfl⟩

/-- Settles O41: the entry turns M-mode's interrupts off and leaves nothing due. -/
theorem noNestingAfterEntry : Obligations.NoNestingAfterEntry := by
  rintro s t u i hs hi ⟨c, t0, hb⟩ hu
  obtain ⟨-, -, -, -, -, hentry, -, hdue⟩ := taken_of_output hs hi
  have hoff : mGlobal t = false := by simp [mGlobal, hentry.priv, hentry.mieCleared]
  exact hb.quiet (decideInterrupt_off hoff hdue) hu

/-! ### When a boundary must take one, and when it may -/

/-- Settles O33: with `EVAL_BOUND` = 0 the history is empty, so that a condition that holds forces an interrupt, and
nothing is stale. -/
theorem zeroBoundTakesExactlyWhenCond : Obligations.ZeroBoundTakesExactlyWhenCond := by
  intro s s0 c hb hzero
  refine ⟨fun ⟨i, hi⟩ => ?_, fun t hnone hnote hs => ?_⟩
  · exact hb.must (mustTake_zero hzero ((condSet_ne_zero_iff s).mpr ⟨i, trapCond_lt hi, hi⟩))
  · refine hb.quiet (decideInterrupt_quiet (condSet_eq_zero hnone) (staleSet_zero hzero) ?_) hs
    cases hset : settledInterrupt s with
    | none => rfl
    | some i =>
      obtain ⟨b, hdue, hheld, -⟩ := settledInterrupt_eq_some hset
      rw [hnote b hdue] at hheld
      simp at hheld

/-- Settles O35: `mustTake` by its two parts, and the decision of each choice where it is false. -/
theorem mustAndMayCases : Obligations.MustAndMayCases := by
  intro s
  refine ⟨?_, fun hm c s0 hb => hb.must hm, fun hm => ⟨fun s0 t hb hs => ?_, fun s0 i hb hi => ?_,
    fun s0 i hb hg hmie hdel hmip hdriven => ?_⟩⟩
  · rw [mustTake_iff, settledInterrupt_isSome, heldForBound_iff]
  · exact hb.quiet (by simp [decideInterrupt, forcedInterrupt, hm]) hs
  · obtain ⟨j, hj⟩ := ((selectionIsFirstInOrder s).1).mp ⟨i, hi⟩
    obtain ⟨t, hs, ht⟩ := hb.taken (i := j) (by simp [decideInterrupt, hj])
    exact ⟨t, j, hs, hj, ht⟩
  · have hstale : (staleSet s).getLsbD i = true := (staleSet_getLsbD s i).mpr ⟨hg, hdriven, hmip, hmie, hdel⟩
    exact hb.taken (by rw [decideInterrupt, if_pos ⟨hm, hstale⟩])

/-- Settles O36: what a boundary decides to take is selected, was noted, or is stale; each says why. -/
theorem onlyDueInterruptsAreTaken : Obligations.OnlyDueInterruptsAreTaken := by
  intro s t i hs hi
  obtain ⟨c, s0, hb, hd, -, hentry⟩ := taken_of_output hs hi
  refine ⟨⟨c, s0, hb⟩, hentry, ?_⟩
  obtain hsel | hset | ⟨-, -, hstale⟩ := decideInterrupt_some hd
  · obtain ⟨hg, hmip, hmie, hdel⟩ := (trapCond_iff i s).mp (selectMInterrupt_trapCond hsel)
    exact ⟨.inl ⟨hg, hmie, hdel, .inl hmip⟩, fun _ => hmie⟩
  · obtain ⟨b, hdue, hheld, -⟩ := settledInterrupt_eq_some hset
    refine ⟨.inr ⟨b, hdue, hheld⟩, fun hinv => ?_⟩
    obtain ⟨-, henabled, -⟩ := hinv.dueSound b hdue
    exact (within_iff _ _).mp henabled i hheld
  · obtain ⟨hg, hdriven, -, hmie, hdel⟩ := (staleSet_getLsbD s i).mp hstale
    exact ⟨.inl ⟨hg, hmie, hdel, .inr hdriven⟩, fun _ => hmie⟩

/-! ### The bound on how long a condition waits (60_exceptions R108) -/

/-- What held at the boundaries remembered, latest first. -/
def heldHistory (s : State) : List Word := s.evaln.recent.map Boundary.held

/-- An xRET or explicit write strikes what was driven from the history, not what held. -/
theorem held_after (e : Evaluation) (now : Boundary) :
    (e.after now).recent.map Boundary.held = e.recent.map Boundary.held := by
  simp [Evaluation.after, Boundary.undriven, Function.comp_def]

/-- An instruction run after a boundary leaves what that boundary remembered. -/
theorem heldHistory_of_ran {s s0 t : State} {turn : Turn} (hd : dueTurn s = (turn, s0))
    (h : t.evaln = (passBoundary s0).evaln.after (boundaryNow t) ∨ t.evaln = (passBoundary s0).evaln) :
    heldHistory t = (condSet s :: heldHistory s).take s.params.evalBound := by
  have hpass : (passBoundary s0).evaln.recent.map Boundary.held =
      (condSet s :: heldHistory s).take s.params.evalBound := by
    obtain ⟨agenda, draws, rfl⟩ := dueTurn_start hd
    rw [passBoundary_evaln, List.map_take]
    rfl
  obtain h | h := h
  · rw [heldHistory, h, held_after, hpass]
  · rw [heldHistory, h, hpass]

/-- A turn of the hart that takes no interrupt remembers what holds at its boundary. -/
theorem heldHistory_step {s t : State} (hs : step s = .next t) (hturn : hartsTurn s = true) (hout : t.output = none) :
    heldHistory t = (condSet s :: heldHistory s).take s.params.evalBound := by
  obtain ⟨c, s0, i, hd, hi, rfl⟩ | ⟨c, s0, w, i, hd, -, -, -, he⟩ | ⟨c, s0, es, hd, -, hr⟩ | ⟨e, s0, hd, rfl⟩ :=
    step_cases hs
  · cases hout
  · exact heldHistory_of_ran hd (exec_evaln he)
  · obtain ⟨-, -, -, -, hev⟩ := runForeign_frame hr
    refine heldHistory_of_ran hd ?_
    split at hev
    · exact .inl hev
    · exact .inr hev
  · simp [hartsTurn, hd] at hturn

/-- A step of another agent, a reset aside, leaves the history as it was. -/
theorem heldHistory_env {s t : State} (hs : step s = .next t) (hturn : hartsTurn s = false)
    (hreset : ∀ s0, ¬EnvDue .reset s s0) : heldHistory t = heldHistory s := by
  rcases hd : dueTurn s with ⟨turn, s0⟩
  cases turn with
  | hart c => simp [hartsTurn, hd] at hturn
  | foreign c es => simp [hartsTurn, hd] at hturn
  | env e =>
    have he : e ≠ .reset := by rintro rfl; exact hreset s0 hd
    rw [step_env hd] at hs
    cases hs
    obtain ⟨agenda, draws, rfl⟩ := dueTurn_start hd
    rw [heldHistory, (applyEvent_evaln _ he).1]
    rfl

/-- The condition of `i` held at each of the last `m` boundaries, that many being remembered. -/
def HeldFor (i m : Nat) (s : State) : Prop := ∀ j < m, ∃ v, (heldHistory s)[j]? = some v ∧ v.getLsbD i = true

/-- One boundary more. -/
theorem HeldFor.boundary {i m : Nat} {s t : State} (h : HeldFor i m s) (hm : m < s.params.evalBound)
    (hcond : trapCond i s = true) (ht : heldHistory t = (condSet s :: heldHistory s).take s.params.evalBound) :
    HeldFor i (m + 1) t := by
  intro j hj
  rw [ht, List.getElem?_take_of_lt (by omega)]
  cases j with
  | zero => exact ⟨condSet s, rfl, (condSet_getLsbD s i).trans hcond⟩
  | succ j => exact h j (by omega)

/-- A condition that holds and has held for the bound forces an interrupt. -/
theorem HeldFor.forces {i m : Nat} {s : State} (h : HeldFor i m s) (hm : s.params.evalBound ≤ m)
    (hcond : trapCond i s = true) : mustTake s = true := by
  have hheld : ∀ j < s.params.evalBound, ∃ b, s.evaln.recent[j]? = some b ∧ b.held.getLsbD i = true := by
    intro j hj
    obtain ⟨v, hv, hvi⟩ := h j (by omega)
    rw [heldHistory, List.getElem?_map, Option.map_eq_some_iff] at hv
    obtain ⟨b, hb, rfl⟩ := hv
    exact ⟨b, hb, hvi⟩
  refine (mustTake_iff s).mpr (.inr ((heldForBound_iff s).mpr ⟨?_, i, hcond, fun b hb => ?_⟩))
  · by_contra hlt
    obtain ⟨b, hb, -⟩ := hheld s.evaln.recent.length (by omega)
    simp at hb
  · obtain ⟨j, hj, hjb⟩ := List.mem_take_iff_getElem.mp hb
    obtain ⟨b', hb', hi⟩ := hheld j (by omega)
    rw [List.getElem?_eq_getElem (by omega), Option.some.injEq, hjb] at hb'
    exact hb' ▸ hi

/-- The turn due is a boundary's where it is the hart's. -/
theorem boundaryDue_of_hartsTurn {s : State} (h : hartsTurn s = true) : ∃ c s0, BoundaryDue c s s0 := by
  rcases hd : dueTurn s with ⟨turn, s0⟩
  cases turn with
  | hart c => exact ⟨c, s0, .inl hd⟩
  | foreign c es => exact ⟨c, s0, .inr ⟨es, hd⟩⟩
  | env e => simp [hartsTurn, hd] at h

/-- One step of a run in which the condition of `i` holds at each boundary and no interrupt is taken: where the step is
a boundary's, the bound is not reached yet, and one boundary more is remembered. -/
theorem HeldFor.quietStep {i m : Nat} {s t : State} (h : HeldFor i m s) (hm : m ≤ s.params.evalBound)
    (hs : step s = .next t) (hcond : hartsTurn s = true → trapCond i s = true) (hreset : ∀ s0, ¬EnvDue .reset s s0)
    (hout : t.output = none) :
    m + (if hartsTurn s then 1 else 0) ≤ s.params.evalBound ∧ HeldFor i (m + if hartsTurn s then 1 else 0) t := by
  cases hturn : hartsTurn s with
  | false =>
    refine ⟨hm, ?_⟩
    unfold HeldFor
    rw [heldHistory_env hs hturn hreset]
    exact h
  | true =>
    have hlt : m < s.params.evalBound := by
      by_contra hge
      obtain ⟨c, s0, hb⟩ := boundaryDue_of_hartsTurn hturn
      obtain ⟨u, j, hu, ⟨-, hj, -⟩, -⟩ := hb.must (h.forces (by omega) (hcond hturn))
      obtain rfl : t = u := Host.Outcome.next.inj (hs.symm.trans hu)
      rw [hout] at hj
      cases hj
    exact ⟨hlt, h.boundary hlt (hcond hturn) (heldHistory_step hs hturn hout)⟩

/-- Settles O34: while none is taken, the boundaries passed are remembered one by one and stay within the bound
(`HeldFor.quietStep`). -/
theorem interruptTakenWithinBound : Obligations.InterruptTakenWithinBound := by
  intro σ n i hrun hcount
  by_contra hnone
  have hquiet : ∀ k < n, (σ (k + 1)).output = none := by
    intro k hk
    cases hout : (σ (k + 1)).output with
    | none => rfl
    | some j =>
      obtain ⟨-, -, -, -, -, hentry⟩ := taken_of_output (hrun k hk).1 hout
      exact absurd ⟨k, hk, j, hout, hentry⟩ hnone
  have hinv : ∀ k ≤ n, (σ k).params = (σ 0).params ∧
      (List.range k).countP (fun k => hartsTurn (σ k)) ≤ (σ 0).params.evalBound ∧
      HeldFor i ((List.range k).countP (fun k => hartsTurn (σ k))) (σ k) := by
    intro k
    induction k with
    | zero => exact fun _ => ⟨rfl, Nat.zero_le _, fun j hj => absurd hj (Nat.not_lt_zero j)⟩
    | succ k ih =>
      intro hk
      obtain ⟨hp, hle, hheld⟩ := ih (by omega)
      obtain ⟨hs, hcond, hreset⟩ := hrun k hk
      rw [List.range_succ, List.countP_append, List.countP_singleton]
      rw [← hp] at hle ⊢
      exact ⟨stepKeepsParameters _ _ hs, hheld.quietStep hle hs hcond hreset (hquiet k hk)⟩
  obtain ⟨-, hle, -⟩ := hinv n le_rfl
  omega

end Claims

end Sys2Proof

/-! ## The evaluation right after an explicit write or xRET (60_exceptions R109), and trap return (41_trap_return) -/

namespace Sys2Proof.Claims

open Machine

/-! ### What stands right after such an instruction decides -/

/-- At the boundary that follows, the values as they stand decide. -/
theorem decidedAtOnce_of_evaluated {t : State} {e : Evaluation} (h : t.evaln = e.after (boundaryNow t)) :
    DecidedAtOnce t := by
  intro c s0 hb
  have hd : decideInterrupt c t = selectMInterrupt t := by
    refine decideInterrupt_after (by rw [h]; rfl) fun b hb => ?_
    rw [h] at hb
    exact (mem_after_recent hb).1
  exact ⟨fun i hi => hb.taken (hd.trans hi), fun u hnone hs => hb.quiet (hd.trans (selectMInterrupt_eq_none hnone)) hs⟩

/-- A step of another agent, a reset aside, leaves alone what is noted, the parameters and `pc`. -/
theorem envStep_keeps {e : EnvEvent} {s s0 t : State} (hdue : EnvDue e s s0) (he : e ≠ .reset) (hs : step s = .next t) :
    t.evaln = s.evaln ∧ t.params = s.params ∧ t.hart.pc = s.hart.pc := by
  rw [step_env hdue] at hs
  cases hs
  obtain ⟨agenda, draws, rfl⟩ := dueTurn_start hdue
  refine ⟨(applyEvent_evaln _ he).1, (applyEvent_frame e _).1, ?_⟩
  cases e with
  | reset => exact absurd rfl he
  | menvcfgSTCE b => simp [applyEvent, changeStce_frame]
  | _ => rfl

/-- Where an evaluation is due and an interrupt in the order held then, one must be taken. -/
theorem mustTake_of_due {s : State} {b : Boundary} (hdue : s.evaln.due = some b) {i : Nat} (hi : i ∈ s.params.order)
    (hheld : bit b.held i = true) : mustTake s = true :=
  (mustTake_iff s).mpr (.inl ((settledInterrupt_isSome s).mpr ⟨b, hdue, i, hi, hheld⟩))

/-- What is noted outlasts other agents' steps, and forces an interrupt at the first boundary after them. -/
theorem trapsFirst_of_evaluated {t : State} {e : Evaluation} (h : t.evaln = e.after (boundaryNow t)) :
    TrapsFirst t := by
  rintro σ n hstart hrun ⟨c, s0, hb⟩ ⟨i, hi⟩
  have hkept : ∀ k ≤ n, (σ k).evaln = t.evaln ∧ (σ k).params = t.params ∧ (σ k).hart.pc = t.hart.pc := by
    intro k
    induction k with
    | zero => exact fun _ => ⟨by rw [hstart], by rw [hstart], by rw [hstart]⟩
    | succ k ih =>
      intro hk
      obtain ⟨hs, ev, u, hdue, hev⟩ := hrun k hk
      obtain ⟨h1, h2, h3⟩ := ih (by omega)
      obtain ⟨h1', h2', h3'⟩ := envStep_keeps hdue hev hs
      exact ⟨h1'.trans h1, h2'.trans h2, h3'.trans h3⟩
  obtain ⟨hev, hparams, hpc⟩ := hkept n le_rfl
  have hdue : (σ n).evaln.due = some (boundaryNow t) := by rw [hev, h]; rfl
  have hmem : i ∈ (σ n).params.order := hparams ▸ trapCond_mem_order hi
  obtain ⟨u, j, hu, hentry, -⟩ := hb.must (mustTake_of_due hdue hmem ((condSet_getLsbD t i).trans hi))
  exact ⟨u, j, hu, hentry, hentry.1.mepc.trans hpc⟩

/-! ### The instructions after which the conditions are evaluated -/

/-- A form that writes, whatever the old value, is evaluated next. -/
theorem evaluated_of_csrInstr {i : Instr} {csr : CsrNum} {rd : Reg} {reads : Bool} {rule : WriteRule} {s t : State}
    (hcsr : csr = 0x304 ∨ csr = 0x344) (hm : s.hart.priv = .m) (hrule : ∀ old, ∃ v, rule old = some v)
    (he : csrInstr i csr rd reads rule s = .next t) :
    t.evaln = s.evaln.after (boundaryNow t) ∧ PcPlusFour s t := by
  obtain ⟨c, rfl⟩ : ∃ c, t = csrComplete c rd reads rule s := by
    obtain rfl | rfl := hcsr
    · rw [csrInstr_mie hm] at he; cases he; exact ⟨.mie, rfl⟩
    · rw [csrInstr_mip hm] at he; cases he; exact ⟨.mip, rfl⟩
  obtain ⟨v, hv⟩ := hrule (csrOld c s)
  exact ⟨csrComplete_written hv, pcPlusFour_of_pcAdvanced (csrComplete_pcAdvanced c rd reads rule s)⟩

/-- Each of the six forms, its write not suppressed, leaves the conditions to be evaluated next. -/
theorem ExplicitWrite.evaluated {i : Instr} {s t : State} (h : ExplicitWrite i) (hm : s.hart.priv = .m)
    (he : exec i s = .next t) : t.evaln = s.evaln.after (boundaryNow t) ∧ PcPlusFour s t := by
  cases h with
  | csrrw rd rs1 csr hcsr | csrrwi rd uimm csr hcsr => exact evaluated_of_csrInstr hcsr hm (fun _ => ⟨_, rfl⟩) he
  | csrrs rd rs1 csr hcsr h1 | csrrsi rd uimm csr hcsr h1 =>
    exact evaluated_of_csrInstr hcsr hm (fun old => ⟨_, (setBits_decide _ _ old).trans (if_neg h1)⟩) he
  | csrrc rd rs1 csr hcsr h1 | csrrci rd uimm csr hcsr h1 =>
    exact evaluated_of_csrInstr hcsr hm (fun old => ⟨_, (clearBits_decide _ _ old).trans (if_neg h1)⟩) he

/-- Settles O42: `ExplicitWrite.evaluated`, and what being evaluated next means. -/
theorem explicitWriteIsEvaluatedAtOnce : Obligations.ExplicitWriteIsEvaluatedAtOnce := by
  intro i s t hw hm he
  obtain ⟨hev, hpc⟩ := hw.evaluated hm he
  exact ⟨decidedAtOnce_of_evaluated hev, trapsFirst_of_evaluated hev, hpc⟩

/-- Settles O43: each of the effects named is one after which the conditions are evaluated. -/
theorem otherExplicitWritesAreEvaluatedAtOnce : Obligations.OtherExplicitWritesAreEvaluatedAtOnce := by
  intro es s t hes hr
  have hany : es.any HartEffect.evaluated = true := by
    rw [List.any_eq_true]
    obtain ⟨m, h⟩ | ⟨w, h⟩ | ⟨b, h⟩ | ⟨p, v, h⟩ | ⟨f, b, h⟩ := hes <;> exact ⟨_, h, rfl⟩
  obtain ⟨-, -, -, -, hev⟩ := runForeign_frame hr
  rw [if_pos hany] at hev
  exact ⟨decidedAtOnce_of_evaluated hev, trapsFirst_of_evaluated hev⟩

/-- With nothing noted that held, a boundary must take one only by the history. -/
theorem mustTake_eq_false_of_due {s : State} {b : Boundary} (hdue : s.evaln.due = some b) (hheld : b.held = 0)
    (hhistory : ∀ i, trapCond i s = true → s.evaln.recent.length < s.params.evalBound ∨
      ∃ r ∈ s.evaln.recent.take s.params.evalBound, bit r.held i = false) : mustTake s = false := by
  rw [← Bool.not_eq_true, mustTake_iff]
  rintro (hset | hheldFor)
  · obtain ⟨b', hb', i, -, hi⟩ := (settledInterrupt_isSome s).mp hset
    rw [hdue] at hb'
    cases hb'
    simp [hheld] at hi
  · obtain ⟨hlen, i, hcond, hall⟩ := (heldForBound_iff s).mp hheldFor
    obtain hlt | ⟨r, hr, hri⟩ := hhistory i hcond
    · omega
    · exact Bool.eq_false_iff.mp hri (hall r hr)

/-- Settles O44: `envStep_keeps`, and the decision of each choice where an evaluation is due. -/
theorem dueEvaluationOutlastsOtherAgents : Obligations.DueEvaluationOutlastsOtherAgents := by
  refine ⟨fun s s0 t e hdue he hs => (envStep_keeps hdue he hs).1, fun s s0 c b hb hdue => ⟨?_, ?_, ?_, ?_⟩⟩
  · rintro ⟨i, hi, hheld⟩
    obtain ⟨t, j, hs, ht, -⟩ := hb.must (mustTake_of_due hdue hi hheld)
    exact ⟨t, j, hs, ht⟩
  · rintro rfl hheld hhistory t hs
    have hm := mustTake_eq_false_of_due hdue hheld hhistory
    exact hb.quiet (by simp [decideInterrupt, forcedInterrupt, hm]) hs
  · rintro i before after rfl horder hbefore hi
    have hset : settledInterrupt s = some i := by
      simp only [settledInterrupt, hdue, firstInOrder, List.find?_eq_some_iff_append]
      exact ⟨hi, before, after, horder, fun j hj => by simp [hbefore j hj]⟩
    exact hb.taken (by simp [decideInterrupt, hset])
  · rintro i rfl hi
    exact hb.taken (by simp [decideInterrupt, hi])

/-! ### Trap return -/

/-- MRET in M-mode returns. -/
theorem exec_mret {s : State} (h : s.hart.priv = .m) : exec .mret s = .next (returnFromM s) := if_pos h

/-- In a lower mode it is illegal. -/
theorem exec_mret_illegal {s : State} (h : s.hart.priv ≠ .m) : exec .mret s = .next (raiseIllegal (encode .mret) s) :=
  if_neg h

/-- SRET returns where it is not illegal. -/
theorem exec_sret {s : State} (h : s.hart.priv = .m ∨ (s.hart.priv = .s ∧ s.hart.mstatus.tsr = false)) :
    exec .sret s = .next (returnFromS s) := by
  have hlegal : sretIllegal s = false := by
    obtain h | ⟨h, htsr⟩ := h
    · simp [sretIllegal, h]
    · simp [sretIllegal, h, htsr]
  simp [exec, execSret, hlegal]

/-- In U-mode, and in S-mode with TSR set, it is illegal. -/
theorem exec_sret_illegal {s : State} (h : s.hart.priv = .u ∨ (s.hart.priv = .s ∧ s.hart.mstatus.tsr = true)) :
    exec .sret s = .next (raiseIllegal (encode .sret) s) := by
  have hillegal : sretIllegal s = true := by
    obtain h | ⟨h, htsr⟩ := h
    · simp [sretIllegal, h]
    · simp [sretIllegal, h, htsr]
  simp [exec, execSret, hillegal]

/-- Settles O45: `returnFromM` field by field. -/
theorem mretReturns : Obligations.MretReturns := by
  refine fun s => ⟨fun hm => ⟨_, exec_mret hm, ?_⟩, fun hm => ⟨_, exec_mret_illegal hm, raiseIllegal_entered _ s⟩⟩
  simp [returnFromM]

/-- Settles O46: `returnFromS` field by field. -/
theorem sretReturns : Obligations.SretReturns := by
  refine fun s => ⟨fun hm => ⟨_, exec_sret hm, ?_⟩, fun hm => ⟨_, exec_sret_illegal hm, raiseIllegal_entered _ s⟩⟩
  simp [returnFromS, Mstatus.sppMode]

/-- Settles O47: both returns leave the conditions to be evaluated next. -/
theorem trapReturnIsEvaluatedAtOnce : Obligations.TrapReturnIsEvaluatedAtOnce := by
  refine fun s t => ⟨fun he hm => ?_, fun he hm => ?_⟩
  · rw [exec_mret hm] at he
    cases he
    exact ⟨decidedAtOnce_of_evaluated rfl, trapsFirst_of_evaluated rfl, rfl⟩
  · rw [exec_sret hm] at he
    cases he
    exact ⟨decidedAtOnce_of_evaluated rfl, trapsFirst_of_evaluated rfl, rfl⟩

/-! ### U-mode -/

/-- Settles O59: in U-mode no access is granted and neither return is legal, so that only the exception is left. -/
theorem userModeCannotTouchThePair : Obligations.UserModeCannotTouchThePair := by
  intro i s t hu he
  obtain ⟨c, rd, reads, rule, hk, -⟩ | rfl | ⟨-, hm, -⟩ | ⟨-, hlegal, -⟩ := exec_cases he
  · exact absurd hk (csrCheck_user c s hu)
  · exact ⟨rfl, rfl, rfl⟩
  · rw [hu] at hm
    cases hm
  · simp [sretIllegal, hu] at hlegal

end Sys2Proof.Claims

/-! ## The views of `mip` and `mie` bits (10_state R36 to R40) -/

namespace Sys2Proof

namespace Machine

/-! ### One field -/

/-- A write through a view field looks at `mie`, the storage and the inputs only. -/
theorem viewStore_congr (f : ViewField) (b : Bool) {s u : State} (hmie : u.mie = s.mie) (hpend : u.pend = s.pend)
    (hinputs : u.inputs = s.inputs) :
    (viewStore f b u).mie = (viewStore f b s).mie ∧ (viewStore f b u).pend = (viewStore f b s).pend ∧
      (viewStore f b u).inputs = (viewStore f b s).inputs := by
  cases f with
  | sipSSIP | sipLCOFIP => simp only [viewStore, hinputs]; split <;> simp [hmie, hpend, hinputs]
  | sieSSIE | sieSTIE | sieSEIE | sieLCOFIE =>
    simp only [viewStore, writeSie, hinputs]
    split <;> simp [hmie, hpend, hinputs]
  | _ => simp [viewStore, hmie, hpend, hinputs]

/-- A write through `sip.SSIP` stores where SSI is delegated (10_state R36). -/
theorem viewStore_sipSSIP (b : Bool) (s : State) :
    (viewStore .sipSSIP b s).pend = { s.pend with ssip := if s.inputs.mideleg.getLsbD 1 then b else s.pend.ssip } ∧
      (viewStore .sipSSIP b s).mie = s.mie ∧ (viewStore .sipSSIP b s).inputs = s.inputs := by
  simp only [viewStore]
  split <;> exact ⟨rfl, rfl, rfl⟩

/-- A write through `sip.LCOFIP` stores where LCOFI is delegated (10_state R36). -/
theorem viewStore_sipLCOFIP (b : Bool) (s : State) :
    (viewStore .sipLCOFIP b s).pend =
        { s.pend with lcofip := if s.inputs.mideleg.getLsbD 13 then b else s.pend.lcofip } ∧
      (viewStore .sipLCOFIP b s).mie = s.mie ∧ (viewStore .sipLCOFIP b s).inputs = s.inputs := by
  simp only [viewStore]
  split <;> exact ⟨rfl, rfl, rfl⟩

/-- A write through `sie` stores where the interrupt is delegated (10_state R37). -/
theorem writeSie_eq (i : Nat) (b : Bool) (s : State) :
    (writeSie i b s).pend = s.pend ∧
      (writeSie i b s).mie = (if s.inputs.mideleg.getLsbD i then withBit s.mie i b else s.mie) ∧
      (writeSie i b s).inputs = s.inputs := by
  unfold writeSie
  split <;> exact ⟨rfl, rfl, rfl⟩

/-- An effect that is one write through a given field: the write, and the evaluation due next. -/
theorem runForeign_viewWrite {f : ViewField} {s : State} (h : viewGiven f s = true) (b : Bool) :
    runForeign [.viewWrite f b] s = .next (evaluateNext (viewStore f b s)) := by
  simp [runForeign, applyEffects, effectNotGiven, h, applyEffect, HartEffect.evaluated, evaluateIf]

/-- One through a field the spec does not give is refused by name. -/
theorem runForeign_viewWrite_refused {f : ViewField} {s : State} (h : viewGiven f s = false) (b : Bool) :
    runForeign [.viewWrite f b] s = .refused (.viewFieldNotGiven f) := by
  simp [runForeign, applyEffects, effectNotGiven, h]

/-! ### What a view register reads -/

/-- The fields of a register stand in different bits. -/
theorem viewFields_nodup (c : Csr) : ((viewFields c).map Prod.fst).Nodup := by cases c <;> decide

/-- A bit with no field is 0 among the fields' bits. -/
theorem viewBits_other {fs : List (Nat × ViewField)} {i : Nat} (h : ∀ kf ∈ fs, kf.1 ≠ i) (s : State) :
    (viewBits fs s).getLsbD i = false := by
  induction fs with
  | nil => exact BitVec.getLsbD_zero
  | cons kf rest ih =>
    have hne : kf.1 ≠ i := h kf List.mem_cons_self
    rw [viewBits, BitVec.getLsbD_or, atBit_getLsbD, ih fun q hq => h q (List.mem_cons_of_mem _ hq)]
    simp [hne]

/-- A field's bit is what the field reads. -/
theorem viewBits_field {fs : List (Nat × ViewField)} (hnodup : (fs.map Prod.fst).Nodup) (hlt : ∀ kf ∈ fs, kf.1 < 16)
    (s : State) {kf : Nat × ViewField} (h : kf ∈ fs) : (viewBits fs s).getLsbD kf.1 = viewRead kf.2 s := by
  induction fs with
  | nil => cases h
  | cons qf rest ih =>
    obtain ⟨hnot, hrest⟩ := List.nodup_cons.mp hnodup
    rw [viewBits, BitVec.getLsbD_or, atBit_getLsbD]
    obtain rfl | h := List.mem_cons.mp h
    · have hk : kf.1 < 16 := hlt kf List.mem_cons_self
      rw [viewBits_other fun q hq heq => hnot (List.mem_map.mpr ⟨q, hq, heq⟩)]
      simp [show kf.1 < 64 by omega]
    · have hne : qf.1 ≠ kf.1 := fun heq => hnot (List.mem_map.mpr ⟨kf, h, heq.symm⟩)
      rw [ih hrest (fun q hq => hlt q (List.mem_cons_of_mem _ hq)) h]
      simp [hne]

/-- The free bits leave the fields out. -/
theorem viewRestMask_field {c : Csr} {kf : Nat × ViewField} (h : kf ∈ viewFields c) (s : State) :
    (viewRestMask c s).getLsbD kf.1 = false := by
  have hmask (m : Word) (hm : ∀ q ∈ viewFields c, (~~~m).getLsbD q.1 = false) : (~~~m).getLsbD kf.1 = false := hm kf h
  cases c with
  | mie | mip => cases h
  | sip | sie => rw [viewRestMask, BitVec.getLsbD_and, hmask _ (by decide), Bool.and_false]
  | mvip | hip | hvip | vsip =>
    rw [viewRestMask, Params.fit, BitVec.getLsbD_and, hmask _ (by decide), Bool.false_and]

/-- The register read at a field. -/
theorem viewRegRead_field {c : Csr} {kf : Nat × ViewField} (h : kf ∈ viewFields c) (s : State) :
    (viewRegRead c s).getLsbD kf.1 = viewRead kf.2 s := by
  rw [viewRegRead, BitVec.getLsbD_or, BitVec.getLsbD_and, viewRestMask_field h, Bool.and_false, Bool.or_false]
  exact viewBits_field (viewFields_nodup c) (fun _ => viewFields_lt) s h

/-- The register read where it holds no field. -/
theorem viewRegRead_other {c : Csr} {i : Nat} (h : ∀ kf ∈ viewFields c, kf.1 ≠ i) (s : State) :
    (viewRegRead c s).getLsbD i = ((Config.viewRest s.draws).getLsbD i && (viewRestMask c s).getLsbD i) := by
  rw [viewRegRead, BitVec.getLsbD_or, BitVec.getLsbD_and, viewBits_other h, Bool.false_or]

/-- A restricted view: every bit of it is the bit viewed or 0, and 0 where `mideleg` is clear, if its fields are and its
free bits keep within the delegated bits viewed. -/
theorem viewRegRead_restricted {c : Csr} {s : State} {v : Word}
    (hfields : ∀ kf ∈ viewFields c, viewRead kf.2 s = (s.inputs.mideleg.getLsbD kf.1 && v.getLsbD kf.1))
    (hrest : viewRestMask c s = s.inputs.mideleg &&& v &&& ~~~0x2222) {k : Nat}
    (hk : (viewRegRead c s).getLsbD k = true) : s.inputs.mideleg.getLsbD k = true ∧ v.getLsbD k = true := by
  by_cases hfield : ∃ kf ∈ viewFields c, kf.1 = k
  · obtain ⟨kf, hkf, rfl⟩ := hfield
    rw [viewRegRead_field hkf, hfields kf hkf, Bool.and_eq_true] at hk
    exact hk
  · rw [viewRegRead_other fun kf hkf heq => hfield ⟨kf, hkf, heq⟩, hrest, BitVec.getLsbD_and, BitVec.getLsbD_and] at hk
    simp only [Bool.and_eq_true] at hk
    exact hk.2.1

end Machine

namespace Claims

open Machine

/-! ### Writes through a field by an instruction outside this spec -/

/-- A write through a given field, where no interrupt is taken in its place, leaves what `viewStore` makes of the
storage, `mie` and the inputs, and all else as it was. -/
theorem viewWriteGives_viewStore {f : ViewField} {s : State} (h : viewGiven f s = true) (b : Bool) :
    ViewWriteGives f b (viewStore f b s).pend (viewStore f b s).mie (viewStore f b s).inputs s := by
  intro c s0 hdue hi
  obtain ⟨agenda, draws, rfl⟩ := dueTurn_start hdue
  refine ⟨_, (step_foreign hdue hi).trans (runForeign_viewWrite (by exact h) b), ?_⟩
  let u := passBoundary { s with agenda := agenda, draws := draws, output := none }
  obtain ⟨hparams, hhart, hevaln, hcode, hagenda, hdraws, houtput, -, -⟩ := viewStore_frame f b u
  obtain ⟨hmie, hpend, hinputs⟩ := viewStore_congr f b (s := s) (u := u) rfl rfl rfl
  exact ⟨hpend, hmie, hinputs, hhart, hparams, hcode, hagenda, hdraws, houtput, congrArg (Evaluation.after · _) hevaln⟩

/-- A write through a field that the spec does not give is refused. -/
theorem viewWrite_refused {f : ViewField} {s s0 : State} {b : Bool} {c : EvalChoice} (h : viewGiven f s = false)
    (hdue : ForeignDue c [.viewWrite f b] s s0) (hi : decideInterrupt c s0 = none) :
    step s = .refused (.viewFieldNotGiven f) := by
  obtain ⟨agenda, draws, rfl⟩ := dueTurn_start hdue
  exact (step_foreign hdue hi).trans (runForeign_viewWrite_refused (by exact h) b)

/-- The same with what `viewStore` makes written out. -/
theorem viewWriteGives_of_eq {f : ViewField} {b : Bool} {s : State} {pend : Pending} {mie : Word} {inputs : Inputs}
    (h : viewGiven f s = true) (hpend : (viewStore f b s).pend = pend) (hmie : (viewStore f b s).mie = mie)
    (hinputs : (viewStore f b s).inputs = inputs) : ViewWriteGives f b pend mie inputs s := by
  subst hpend hmie hinputs
  exact viewWriteGives_viewStore h b

/-- The four fields of `sip` read the delegated bits of `mip` (10_state R36). -/
theorem viewRead_sip (s : State) :
    ∀ kf ∈ viewFields .sip, viewRead kf.2 s = (bit s.inputs.mideleg kf.1 && bit (mipRead s) kf.1) := by
  simp [viewFields, viewRead, delegated, mipRead_low, -BitVec.getLsbD_eq_getElem]

/-- The four fields of `sie` read the delegated bits of `mie` (10_state R37). -/
theorem viewRead_sie (s : State) :
    ∀ kf ∈ viewFields .sie, viewRead kf.2 s = (bit s.inputs.mideleg kf.1 && bit (mieRead s) kf.1) := by
  simp [viewFields, viewRead, delegated, mieRead, -BitVec.getLsbD_eq_getElem]

/-- Settles O25: field by field, and `viewRegRead_restricted` for the whole register. -/
theorem sipIsRestrictedView : Obligations.SipIsRestrictedView := by
  intro s
  have read {i : Nat} {f : ViewField} (h : (i, f) ∈ viewFields .sip) := viewRead_sip s (i, f) h
  refine ⟨⟨read (by decide), read (by decide), read (by decide), read (by decide)⟩, fun b => ?_, fun b => ?_,
    fun b => viewWriteGives_viewStore rfl b, fun b => viewWriteGives_viewStore rfl b,
    fun k hk => viewRegRead_restricted (viewRead_sip s) rfl hk⟩
  · obtain ⟨hpend, hmie, hinputs⟩ := viewStore_sipSSIP b s
    exact viewWriteGives_of_eq rfl hpend hmie hinputs
  · obtain ⟨hpend, hmie, hinputs⟩ := viewStore_sipLCOFIP b s
    exact viewWriteGives_of_eq rfl hpend hmie hinputs

/-- Settles O26: field by field, and `viewRegRead_restricted` for the whole register. -/
theorem sieIsRestrictedView : Obligations.SieIsRestrictedView := by
  refine ⟨fun s f i hf => ⟨?_, fun b => ?_⟩, fun s k hk => viewRegRead_restricted (viewRead_sie s) rfl hk⟩
  · refine viewRead_sie s (i, f) ?_
    revert hf
    cases f <;> simp [viewFields]
  · have hgiven : viewGiven f s = true := by revert hf; cases f <;> simp [viewGiven]
    have hstore : viewStore f b s = writeSie i b s := by
      simp only [List.mem_cons, Prod.mk.injEq, List.not_mem_nil, or_false] at hf
      obtain ⟨rfl, rfl⟩ | ⟨rfl, rfl⟩ | ⟨rfl, rfl⟩ | ⟨rfl, rfl⟩ := hf <;> rfl
    obtain ⟨hpend, hmie, hinputs⟩ := writeSie_eq i b s
    exact viewWriteGives_of_eq hgiven (hstore ▸ hpend) (hstore ▸ hmie) (hstore ▸ hinputs)

/-- Settles O27: field by field; the refusal where STCE is set. -/
theorem mvipAliasesStorage : Obligations.MvipAliasesStorage := by
  refine fun s => ⟨rfl, rfl, fun b => viewWriteGives_viewStore rfl b, fun b => viewWriteGives_viewStore rfl b,
    fun h => ⟨rfl, fun b => viewWriteGives_viewStore (by simp [viewGiven, h]) b⟩, fun h b c s0 hdue hi => ?_⟩
  exact viewWrite_refused (by simp [viewGiven, h]) hdue hi

/-- The VS-level bits of `mip` (10_state R22, R25, R27). -/
theorem mipRead_vsLevel (s : State) : (mipRead s).getLsbD 6 = pendingVSTIP s ∧ (mipRead s).getLsbD 10 = pendingVSEIP s ∧
    (mipRead s).getLsbD 12 = pendingSGEIP s := by
  simp [mipRead_low, -BitVec.getLsbD_eq_getElem]

/-- Settles O28: field by field, the VS-level bits by `mipRead_vsLevel`. -/
theorem hipAndHvipAliases : Obligations.HipAndHvipAliases := by
  intro s
  obtain ⟨h6, h10, h12⟩ := mipRead_vsLevel s
  refine ⟨rfl, rfl, h6.symm, h10.symm, h12.symm, rfl, rfl, fun h => ?_, fun b => viewWriteGives_viewStore rfl b,
    fun b => viewWriteGives_viewStore rfl b, fun b => viewWriteGives_viewStore rfl b,
    fun b => viewWriteGives_viewStore rfl b, fun b => viewWriteGives_viewStore rfl b,
    fun b => viewWriteGives_viewStore rfl b, fun b => viewWriteGives_viewStore rfl b, fun v => rfl⟩
  rw [bit, h6, pendingVSTIP, h, Bool.false_and, Bool.or_false]
  rfl

/-- Settles O29: field by field, each given exactly where its `hideleg` bit is set. -/
theorem vsipAliases : Obligations.VsipAliases := by
  intro s
  obtain ⟨h6, h10, -⟩ := mipRead_vsLevel s
  refine ⟨fun h => ⟨rfl, fun b => viewWriteGives_viewStore (f := .vsipSSIP) h b⟩,
    fun h => ⟨h6.symm, fun b => viewWriteGives_viewStore (f := .vsipSTIP) h b⟩,
    fun h => ⟨h10.symm, fun b => viewWriteGives_viewStore (f := .vsipSEIP) h b⟩,
    fun h => ⟨rfl, fun b => viewWriteGives_viewStore (f := .vsipLCOFIP) h b⟩,
    fun f i b c s0 hf h hdue hi => viewWrite_refused ?_ hdue hi⟩
  simp only [List.mem_cons, Prod.mk.injEq, List.not_mem_nil, or_false] at hf
  obtain ⟨rfl, rfl⟩ | ⟨rfl, rfl⟩ | ⟨rfl, rfl⟩ | ⟨rfl, rfl⟩ := hf <;> exact h

end Claims

end Sys2Proof

/-! ## The CSR instructions on the view registers, and what the lower modes reach (30_encoding R65, 60_exceptions
R118) -/

namespace Sys2Proof

namespace Machine

open Claims (bit VSMode seenAs ModeReaches ViewGranted ViewAccess viewPendAfter viewMieBitAfter viewInputsAfter views)

/-! ### The access check in the terms of the claims -/

/-- VS-mode, as the model and as the claims say it. -/
theorem inVS_iff (s : State) : inVS s = true ↔ VSMode s := by simp [inVS, VSMode]

/-- The register reached, as the model and as the claims say it. -/
theorem csrTarget_eq_seenAs (c : Csr) (s : State) : csrTarget c s = seenAs c s := by
  simp [csrTarget, seenAs, inVS, and_assoc]

/-- The modes that may make an access, as the model and as the claims say it. -/
theorem modeMayAccess_iff (c : Csr) (s : State) : modeMayAccess c s = true ↔ ModeReaches c s := by
  simp only [modeMayAccess, Bool.or_eq_true, Bool.and_eq_true, decide_eq_true_eq, inVS_iff, ModeReaches]
  refine or_congr (iff_of_eq (congrArg (c.lowestPrivilege ≤ ·) ?_)) Iff.rfl
  unfold privRank
  cases s.hart.priv <;> rfl

/-- The access is granted exactly where the spec gives it. -/
theorem csrCheck_granted_iff_viewGranted (c : Csr) (s : State) : csrCheck c s = .granted ↔ ViewGranted c s := by
  rw [csrCheck_granted_iff, modeMayAccess_iff, inVS_iff, csrTarget_eq_seenAs, firstNotGiven_eq_none_iff]
  rfl

/-- A mode too low finds the access illegal. -/
theorem csrCheck_illegal {c : Csr} {s : State} (h : ¬ModeReaches c s) : csrCheck c s = .illegal := by
  rw [csrCheck, if_pos]
  rwa [← Bool.not_eq_true, modeMayAccess_iff]

/-- `sie` from VS-mode is refused: the mode is high enough for its number. -/
theorem csrCheck_sie_inVS {s : State} (h : VSMode s) : csrCheck .sie s = .refused (.viewFromVirtualMode .sie) := by
  have hvs := (inVS_iff s).mpr h
  have hmay : modeMayAccess .sie s = true :=
    (modeMayAccess_iff _ s).mpr (.inl (by rw [h.2, h.1]; decide))
  simp [csrCheck, hmay, hvs]

/-- Where a field of the register reached is one the spec leaves out, the access is refused under such a field's
name. -/
theorem csrCheck_notGiven {c : Csr} {s : State} (hmode : ModeReaches c s) (hsie : ¬(VSMode s ∧ c = .sie))
    (hfield : ∃ kf ∈ viewFields (seenAs c s), viewGiven kf.2 s = false) :
    ∃ f, csrCheck c s = .refused (.viewFieldNotGiven f) ∧ viewGiven f s = false := by
  have hmay := (modeMayAccess_iff c s).mpr hmode
  have hvs : ¬(inVS s = true ∧ c = .sie) := by rwa [inVS_iff]
  rw [← csrTarget_eq_seenAs] at hfield
  cases hf : firstNotGiven (csrTarget c s) s with
  | none =>
    obtain ⟨kf, hkf, hnot⟩ := hfield
    rw [(firstNotGiven_eq_none_iff _ s).mp hf kf hkf] at hnot
    cases hnot
  | some f =>
    refine ⟨f, ?_, ?_⟩
    · simp [csrCheck, hmay, hvs, hf]
    · obtain ⟨kf, hkf, rfl⟩ := Option.map_eq_some_iff.mp hf
      simpa using List.find?_some hkf

/-! ### What a write of a view register stores -/

/-- `mie` after a write through one bit of `sie`. -/
theorem writeSie_getLsbD {i : Nat} (hi : i < 64) (b : Bool) (s : State) (k : Nat) :
    (writeSie i b s).mie.getLsbD k = if i = k ∧ s.inputs.mideleg.getLsbD k = true then b else s.mie.getLsbD k := by
  obtain ⟨-, hmie, -⟩ := writeSie_eq i b s
  by_cases hd : s.inputs.mideleg.getLsbD i = true
  · rw [hmie, if_pos hd, withBit_getLsbD]
    by_cases hk : i = k
    · subst hk
      simp only [hi, hd, and_self, if_true]
    · simp only [hk, false_and, if_false]
  · rw [hmie, if_neg hd, if_neg]
    rintro ⟨rfl, h⟩
    exact hd h

/-- A write through `sie` leaves the inputs alone. -/
theorem writeSie_inputs (i : Nat) (b : Bool) (s : State) : (writeSie i b s).inputs = s.inputs := (writeSie_eq i b s).2.2

/-- A write of a view register: the storage, the bits of `mie` and the inputs its fields stand for (10_state R36
to R40). -/
theorem csrWrite_view {c : Csr} (hc : c ∈ views) (v : Word) (s : State) :
    (csrWrite c v s).pend = viewPendAfter c v s ∧ (∀ i, bit (csrWrite c v s).mie i = viewMieBitAfter c v s i) ∧
      (csrWrite c v s).inputs = viewInputsAfter c v s := by
  cases c with
  | mie | mip => exact absurd hc (by decide)
  | mvip | hip | hvip | vsip => exact ⟨rfl, fun i => Eq.symm (if_neg fun h => nomatch h.1), rfl⟩
  | sip =>
    have hw : csrWrite .sip v s =
      evaluateNext (viewStore .sipLCOFIP (v.getLsbD 13) (viewStore .sipSSIP (v.getLsbD 1) s)) := rfl
    obtain ⟨hpend, hmie, hinputs⟩ := viewStore_sipSSIP (v.getLsbD 1) s
    obtain ⟨hpend', hmie', hinputs'⟩ := viewStore_sipLCOFIP (v.getLsbD 13) (viewStore .sipSSIP (v.getLsbD 1) s)
    rw [hpend, hinputs] at hpend'
    rw [hw]
    exact ⟨hpend', fun i => by rw [evaluateNext_mie, hmie', hmie]; simp [viewMieBitAfter], hinputs'.trans hinputs⟩
  | sie =>
    have hw : csrWrite .sie v s = evaluateNext (writeSie 13 (v.getLsbD 13) (writeSie 9 (v.getLsbD 9)
      (writeSie 5 (v.getLsbD 5) (writeSie 1 (v.getLsbD 1) s)))) := rfl
    rw [hw]
    refine ⟨by simp [writeSie_eq, viewPendAfter], fun k => ?_, by simp [writeSie_eq, viewInputsAfter]⟩
    simp only [bit, evaluateNext_mie, viewMieBitAfter, writeSie_getLsbD (show 13 < 64 by decide),
      writeSie_getLsbD (show 9 < 64 by decide), writeSie_getLsbD (show 5 < 64 by decide),
      writeSie_getLsbD (show 1 < 64 by decide), writeSie_inputs]
    by_cases hk : k = 1 ∨ k = 5 ∨ k = 9 ∨ k = 13
    · obtain rfl | rfl | rfl | rfl := hk <;> simp [-BitVec.getLsbD_eq_getElem]
    · obtain ⟨h1, h5, h9, h13⟩ : ¬1 = k ∧ ¬5 = k ∧ ¬9 = k ∧ ¬13 = k := by omega
      simp only [h1, h5, h9, h13, hk, false_and, and_false, if_false]

/-- What an access to a view register leaves in the pair and the inputs, and that it is evaluated next if it writes. -/
theorem csrComplete_view {c : Csr} (hc : c ∈ views) (rd : Reg) (reads : Bool) {rule : WriteRule} {s : State} {v : Word}
    (hv : rule (csrOld c s) = some v) :
    (csrComplete c rd reads rule s).pend = viewPendAfter c v s ∧
      (∀ i, bit (csrComplete c rd reads rule s).mie i = viewMieBitAfter c v s i) ∧
      (csrComplete c rd reads rule s).inputs = viewInputsAfter c v s := by
  have hread : ∀ u : State, u.pend = s.pend → u.mie = s.mie → u.inputs = s.inputs →
      (csrWrite c v u).pend = viewPendAfter c v s ∧ (∀ i, bit (csrWrite c v u).mie i = viewMieBitAfter c v s i) ∧
        (csrWrite c v u).inputs = viewInputsAfter c v s := by
    intro u hpend hmie hinputs
    have h := csrWrite_view hc v u
    simpa only [viewPendAfter, viewMieBitAfter, viewInputsAfter, hpend, hmie, hinputs] using h
  have hn := noteRead_frame c s
  rw [csrComplete_eq, hv]
  cases reads with
  | false => exact hread s rfl rfl rfl
  | true => exact hread _ (by simp [hn]) (by simp [hn]) (by simp [hn])

/-- The register the number of a view register reaches is a view register. -/
theorem seenAs_mem_views {c : Csr} (hc : c ∈ views) (s : State) : seenAs c s ∈ views := by
  unfold seenAs
  split
  · decide
  · exact hc

/-- What a read and the old value of a view register are. -/
theorem csrRead_view {c : Csr} (hc : c ∈ views) (s : State) :
    csrRead c s = viewRegRead c s ∧ csrOld c s = viewBits (viewFields c) s := by
  cases c with
  | mie | mip => exact absurd hc (by decide)
  | sip | sie | mvip | hip | hvip | vsip => exact ⟨rfl, rfl⟩

/-- A granted access to a view register. -/
theorem viewAccess_csrComplete {c : Csr} (hc : c ∈ views) {rd : Reg} {reads : Bool} (hreads : rd ≠ 0 → reads = true)
    (rule : WriteRule) (s : State) : ViewAccess c rd rule s (csrComplete c rd reads rule s) := by
  obtain ⟨hread, hold⟩ := csrRead_view hc s
  obtain ⟨hparams, hcode, hagenda, houtput, -, -⟩ := csrComplete_frame c rd reads rule s
  have hregs := csrComplete_regs (c := c) hreads rule s
  have hrd (h : rd ≠ 0) : readReg rd (csrComplete c rd reads rule s) = viewRegRead c s :=
    (hregs rd).trans ((if_pos ⟨rfl, h⟩).trans hread)
  refine ⟨fun r hr => (hregs r).trans (if_neg ?_), fun h kf hkf => ?_, fun h i hi hmask => ?_,
    csrComplete_pcAdvanced c rd reads rule s, csrComplete_hart_frame c rd reads rule s, hparams,
    fun a => by rw [hcode], hagenda, houtput, csrOld c s, fun kf hkf => ?_, ?_⟩
  · rintro ⟨rfl, h⟩
    exact hr.elim (fun hne => hne rfl) h
  · rw [hrd h]
    exact viewRegRead_field hkf s
  · rw [bit, hrd h, viewRegRead_other hi, show (viewRestMask c s).getLsbD i = false from hmask, Bool.and_false]
  · rw [hold]
    exact viewBits_field (viewFields_nodup c) (fun _ => viewFields_lt) s hkf
  · cases hw : rule (csrOld c s) with
    | none =>
      obtain ⟨hevaln, hmie, hpend, hinputs⟩ := csrComplete_unwritten (rd := rd) (reads := reads) hw
      exact ⟨hpend, hmie, hinputs, hevaln⟩
    | some v =>
      obtain ⟨hpend, hmie, hinputs⟩ := csrComplete_view hc rd reads hw
      exact ⟨hpend, hmie, hinputs, csrComplete_written hw⟩

/-- A form of the shared shape completes on a view register wherever the spec gives the access. -/
theorem csrInstr_view {c : Csr} (hc : c ∈ views) {s : State} (hg : ViewGranted c s) {i : Instr} {rd : Reg}
    {reads : Bool} (hreads : rd ≠ 0 → reads = true) (rule : WriteRule) :
    ∃ t, csrInstr i c.number rd reads rule s = .next t ∧ ViewAccess (seenAs c s) rd rule s t := by
  refine ⟨_, csrInstr_granted (ofNumber_number c) ((csrCheck_granted_iff_viewGranted c s).mpr hg), ?_⟩
  rw [csrTarget_eq_seenAs]
  exact viewAccess_csrComplete (seenAs_mem_views hc s) hreads rule s

end Machine

namespace Claims

open Machine

/-- Settles O30: the shared shape with the rule of each form. -/
theorem csrFormsOnViewRegisters : Obligations.CsrFormsOnViewRegisters := by
  intro c rd rs1 uimm s hc hg
  simp only [← setBits_decide, ← clearBits_decide]
  exact ⟨csrInstr_view hc hg (fun h => decide_eq_true h) (writeOperand _), csrInstr_view hc hg (fun _ => rfl) _,
    csrInstr_view hc hg (fun _ => rfl) _, csrInstr_view hc hg (fun h => decide_eq_true h) (writeOperand _),
    csrInstr_view hc hg (fun _ => rfl) _, csrInstr_view hc hg (fun _ => rfl) _⟩

/-- Settles O31: the access check, before the access of any form. -/
theorem viewRegisterStops : Obligations.ViewRegisterStops := by
  rintro c i s - ⟨rd, hform⟩
  obtain ⟨reads, rule, -, -, hexec⟩ := exec_csrFormTo hform
  rw [hexec s]
  refine ⟨fun hmode => ⟨_, csrInstr_illegal (ofNumber_number c) (csrCheck_illegal hmode), raiseIllegal_entered _ s⟩,
    fun hvs hsie => ?_, fun hmode hsie hfield => ?_⟩
  · subst hsie
    rw [csrInstr, ofNumber_number]
    simp only [csrCheck_sie_inVS hvs]
  · obtain ⟨f, hf, hnot⟩ := csrCheck_notGiven hmode hsie hfield
    refine ⟨f, ?_, hnot⟩
    rw [csrInstr, ofNumber_number]
    simp only [hf]

/-! ### Below M-mode -/

/-- What an instruction below M-mode may reach, told by the register it reaches. -/
theorem granted_belowM {c : Csr} {s : State} (hm : s.hart.priv ≠ .m) (hk : csrCheck c s = .granted) :
    s.hart.priv = .s ∧ csrTarget c s ∈ [.sip, .sie, .hip, .hvip, .vsip] ∧
      (csrTarget c s = .hip → c = .hip ∧ s.hart.virt = false) ∧
      (csrTarget c s = .hvip → c = .hvip ∧ s.hart.virt = false) ∧
      (csrTarget c s = .vsip → c = .vsip ∨ (c = .sip ∧ s.hart.virt = true)) := by
  have hs : s.hart.priv = .s := by
    cases hp : s.hart.priv with
    | u => exact absurd hk (csrCheck_user c s hp)
    | s => rfl
    | m => exact absurd hp hm
  obtain ⟨hmode, -⟩ := (csrCheck_granted_iff c s).mp hk
  refine ⟨hs, ?_⟩
  revert hmode
  cases hv : s.hart.virt <;> cases c <;>
    simp [modeMayAccess, inVS, csrTarget, privRank, Csr.lowestPrivilege, Csr.number, hs, hv]

/-- An instruction that goes on below M-mode makes a granted access by one of the six forms, or leaves the pair and the
inputs alone. -/
theorem exec_belowM_cases {i : Instr} {s t : State} (hm : s.hart.priv ≠ .m) (he : exec i s = .next t) :
    (∃ c rd reads rule, CsrForm c.number i ∧ csrCheck c s = .granted ∧
        t = csrComplete (csrTarget c s) rd reads rule s) ∨
      (t.mie = s.mie ∧ t.pend = s.pend ∧ t.inputs = s.inputs) := by
  have form {n : CsrNum} {rd : Reg} (hform : CsrFormTo n rd i) :
      (∃ c rd reads rule, CsrForm c.number i ∧ csrCheck c s = .granted ∧
          t = csrComplete (csrTarget c s) rd reads rule s) ∨
        (t.mie = s.mie ∧ t.pend = s.pend ∧ t.inputs = s.inputs) := by
    obtain ⟨reads, rule, -, -, hexec⟩ := exec_csrFormTo hform
    rw [hexec] at he
    obtain ⟨c, hn, ⟨hk, rfl⟩ | ⟨-, rfl⟩⟩ := csrInstr_cases he
    · rw [number_of_ofNumber hn] at hform
      exact .inl ⟨c, rd, reads, rule s, ⟨rd, hform⟩, hk, rfl⟩
    · exact .inr ⟨rfl, rfl, rfl⟩
  cases i with
  | mret =>
    rw [exec_mret_illegal hm] at he
    cases he
    exact .inr ⟨rfl, rfl, rfl⟩
  | sret =>
    simp only [exec, execSret] at he
    split at he <;> cases he <;> exact .inr ⟨rfl, rfl, rfl⟩
  | csrrw rd n rs1 => exact form (.csrrw rs1)
  | csrrs rd n rs1 => exact form (.csrrs rs1)
  | csrrc rd n rs1 => exact form (.csrrc rs1)
  | csrrwi rd n uimm => exact form (.csrrwi uimm)
  | csrrsi rd n uimm => exact form (.csrrsi uimm)
  | csrrci rd n uimm => exact form (.csrrci uimm)

/-- A `vsip` that is granted shows its fields: their `hideleg` bits are set (10_state R40). -/
theorem hideleg_of_granted_vsip {c : Csr} {s : State} (hk : csrCheck c s = .granted) (hc : csrTarget c s = .vsip) :
    bit s.inputs.hideleg 2 = true ∧ bit s.inputs.hideleg 13 = true := by
  obtain ⟨-, -, hnone⟩ := (csrCheck_granted_iff c s).mp hk
  rw [hc, firstNotGiven_eq_none_iff] at hnone
  exact ⟨hnone (1, .vsipSSIP) (by decide), hnone (13, .vsipLCOFIP) (by decide)⟩

/-- What the registers within reach below M-mode leave of the storage. -/
theorem viewPendAfter_belowM {c : Csr} (hc : c ∈ [.sip, .sie, .hip, .hvip, .vsip]) (v : Word) (s : State) :
    (viewPendAfter c v s).stip = s.pend.stip ∧ (viewPendAfter c v s).seipB = s.pend.seipB ∧
      (viewPendAfter c v s).platform = s.pend.platform ∧
      (bit s.inputs.mideleg 1 = false → (viewPendAfter c v s).ssip = s.pend.ssip) ∧
      (bit s.inputs.mideleg 13 = false → c ≠ .vsip → (viewPendAfter c v s).lcofip = s.pend.lcofip) ∧
      ((viewPendAfter c v s).vssip ≠ s.pend.vssip → c = .hip ∨ c = .hvip ∨ c = .vsip) := by
  simp only [List.mem_cons, List.not_mem_nil, or_false] at hc
  obtain rfl | rfl | rfl | rfl | rfl := hc <;> simp +contextual [viewPendAfter, -BitVec.getLsbD_eq_getElem]

/-- Settles O60: by the register an access reaches, `granted_belowM` and what a write of it stores. -/
theorem lowerModesReachOfThePair : Obligations.LowerModesReachOfThePair := by
  intro i s t hm he
  obtain ⟨c, rd, reads, rule, hform, hk, rfl⟩ | ⟨hmie, hpend, hinputs⟩ := exec_belowM_cases hm he
  · obtain ⟨hs, hreach, hhip, hhvip, hvsip⟩ := granted_belowM hm hk
    have hviews : csrTarget c s ∈ views := by
      revert hreach
      cases csrTarget c s <;> decide
    cases hw : rule (csrOld (csrTarget c s) s) with
    | none =>
      obtain ⟨-, hmie, hpend, hinputs⟩ := csrComplete_unwritten (rd := rd) (reads := reads) hw
      simp [hmie, hpend, hinputs]
    | some v =>
      obtain ⟨hpend, hmie, hinputs⟩ := csrComplete_view hviews rd reads hw
      obtain ⟨hstip, hseip, hplatform, hssip, hlcofip, hvssip⟩ := viewPendAfter_belowM hreach v s
      rw [hpend, hinputs]
      refine ⟨hstip, hseip, hplatform, hssip, fun h13 hh13 => hlcofip h13 fun hc => ?_, fun k hdel => ?_,
        fun hne => ⟨hs, ?_⟩, fun hne => ?_⟩
      · rw [(hideleg_of_granted_vsip hk hc).2] at hh13
        cases hh13
      · rw [hmie, viewMieBitAfter, if_neg]
        rintro ⟨-, -, h⟩
        rw [hdel] at h
        cases h
      · obtain hc | hc | hc := hvssip hne
        · obtain ⟨rfl, hvirt⟩ := hhip hc
          exact .inl ⟨hvirt, .inl hform⟩
        · obtain ⟨rfl, hvirt⟩ := hhvip hc
          exact .inl ⟨hvirt, .inr hform⟩
        · have hshown := (hideleg_of_granted_vsip hk hc).1
          obtain rfl | ⟨rfl, hvirt⟩ := hvsip hc
          · exact .inr (.inl ⟨hshown, hform⟩)
          · exact .inr (.inr ⟨hvirt, hshown, hform⟩)
      · have hc : csrTarget c s = .hvip := by
          by_contra hc
          exact hne (if_neg hc)
        obtain ⟨rfl, hvirt⟩ := hhvip hc
        refine ⟨hs, hvirt, hform, ?_⟩
        rw [viewInputsAfter, if_pos hc]
  · simp [hmie, hpend, hinputs]

end Claims

end Sys2Proof
